-- ==== Sys2Proof/Word.lean ====
section
/-! DEFINITION. The three word types of the engine: storage bytes (R8), 32-bit command, host and SHA-256 words
(R80, R39, the glossary's Word) and 64-bit scalars (R34). -/

namespace Sys2Proof

/-- A storage byte of a vector register; bit position 7 is its most significant bit (R8). -/
abbrev Byte := BitVec 8

/-- A 32-bit word: a command word, a host register, or a SHA-256 Word read as its number `val` (R10, R11). -/
abbrev Word := BitVec 32

/-- The contents of a scalar register, `XLEN` = 64 bits (R34). -/
abbrev Scalar := BitVec 64

end Sys2Proof
end

