-- ==== Sys2Proof/Syntax.lean ====
section
/-! DEFINITION. The command set "BVE": one constructor of `Instr` for each row of spec/opcode_table.json, with the
operands in the order of the R85 syntax column. -/

namespace Sys2Proof

/-- The number of a vector register `v0` to `v15` (R31, R83: all 16 values of a field are valid). -/
abbrev VReg := Fin 16

/-- The number of a scalar register `x0` to `x15` (R34, R83). -/
abbrev XReg := Fin 16

/-- A command (R85). `d`, `a`, `b`, `c` are the fields of R81 and R82; a must-be-zero field has no argument. -/
inductive Instr where
  /-- `NOP` (R108). -/
  | nop
  /-- `XLI xd, imm` (R106). -/
  | xli (d : XReg) (imm : BitVec 16)
  /-- `XLIS xd, imm` (R107). -/
  | xlis (d : XReg) (imm : BitVec 16)
  /-- `VZERO vd, xa` (R100). -/
  | vzero (d : VReg) (a : XReg)
  /-- `VBITS vd, va` (R101). -/
  | vbits (d a : VReg)
  /-- `VUINT vd, xa, xb` (R102). -/
  | vuint (d : VReg) (a b : XReg)
  /-- `VCOPY vd, va` (R103). -/
  | vcopy (d a : VReg)
  /-- `VFREE vd` (R104). -/
  | vfree (d : VReg)
  /-- `VSIZE xd, va` (R105). -/
  | vsize (d : XReg) (a : VReg)
  /-- `VGETB xd, va, xb` (R120). -/
  | vgetb (d : XReg) (a : VReg) (b : XReg)
  /-- `VSETB vd, xa, xb` (R121), `vd` modified in place. -/
  | vsetb (d : VReg) (a b : XReg)
  /-- `VSETY vd, xa, xb` (R122), `vd` modified in place. -/
  | vsety (d : VReg) (a b : XReg)
  /-- `VSETU vd, xa, xb, xc` (R123), `vd` modified in place. -/
  | vsetu (d : VReg) (a b c : XReg)
  /-- `VSLICE vd, va, xb, xc` (R124). -/
  | vslice (d a : VReg) (b c : XReg)
  /-- `VEQ xd, va, vb` (R130). -/
  | veq (d : XReg) (a b : VReg)
  /-- `VNOT vd, va` (R131). -/
  | vnot (d a : VReg)
  /-- `VOR vd, va, vb` (R132). -/
  | vor (d a b : VReg)
  /-- `VAND vd, va, vb` (R133). -/
  | vand (d a b : VReg)
  /-- `VXOR vd, va, vb` (R134). -/
  | vxor (d a b : VReg)
  /-- `VCHOOSE vd, va, vb, vc` (R135), `va` the selector. -/
  | vchoose (d a b c : VReg)
  /-- `VMAJ vd, va, vb, vc` (R136). -/
  | vmaj (d a b c : VReg)
  /-- `VSHL vd, va, xb` (R140). -/
  | vshl (d a : VReg) (b : XReg)
  /-- `VSHR vd, va, xb` (R141). -/
  | vshr (d a : VReg) (b : XReg)
  /-- `VROL vd, va, xb` (R142). -/
  | vrol (d a : VReg) (b : XReg)
  /-- `VROR vd, va, xb` (R143). -/
  | vror (d a : VReg) (b : XReg)
  /-- `VADD vd, va, vb` (R150). -/
  | vadd (d a b : VReg)
  /-- `VCLZ xd, va` (R151). -/
  | vclz (d : XReg) (a : VReg)
  /-- `VTOBIN vd, va` (R160). -/
  | vtobin (d a : VReg)
  /-- `VTOHEX vd, va` (R161). -/
  | vtohex (d a : VReg)
  /-- `VTODEC vd, va` (R162). -/
  | vtodec (d a : VReg)
  /-- `VPAD vd, va` (R223). -/
  | vpad (d a : VReg)
  /-- `VHASH vd, va` (R222). -/
  | vhash (d a : VReg)
  deriving DecidableEq, Repr, Inhabited

end Sys2Proof
end

