-- ==== Sys2Proof/WellFormed.lean ====
section
/-! DEFINITION. When the six raw fields of a command word are legal for a row of the opcode map: the must-be-zero
checks of R81, R82 and R86. An `Instr` needs no check of its own: its register numbers and its immediate are bounded
by their types, as every value of a 4-bit field is a register (R83). -/

namespace Sys2Proof

/-- The fields of a command word (R81): `op` 31:24, `d` 23:20, `a` 19:16, `b` 15:12, `c` 11:8, `z` 7:0. -/
structure Fields where
  op : BitVec 8
  d  : BitVec 4
  a  : BitVec 4
  b  : BitVec 4
  c  : BitVec 4
  z  : BitVec 8
  deriving DecidableEq, Repr, Inhabited

/-- What an operand column of R85 says of a field: a vector register, a scalar register, or `-` (must be zero). -/
inductive Column where
  | V
  | X
  | zero
  deriving DecidableEq, Repr, Inhabited

/-- Format R (R81), or format I (R82), in which bits 15:0 are the immediate. -/
inductive Format where
  | R
  | I
  deriving DecidableEq, Repr, Inhabited

/-- One row of the opcode map R85: its opcode, its format and its operand columns. -/
structure OpRow where
  code : BitVec 8
  fmt  : Format
  d    : Column
  a    : Column
  b    : Column
  c    : Column
  deriving DecidableEq, Repr, Inhabited

/-- A field is legal for its column unless the column is `-` and the field is not 0 (R81, R86). -/
def Column.allows (k : Column) (x : BitVec 4) : Bool := k != .zero || x == 0

/-- The must-be-zero checks of R86 on the fields of a word, for the row of its opcode. Format I checks only the `a`
field: its bits 15:0 are the immediate (R82). -/
def OpRow.legal (r : OpRow) (f : Fields) : Bool :=
  match r.fmt with
  | .I => r.d.allows f.d && r.a.allows f.a
  | .R => r.d.allows f.d && r.a.allows f.a && r.b.allows f.b && r.c.allows f.c && f.z == 0

end Sys2Proof
end

