-- ==== Sys2Proof/Decode.lean ====
section
/-! DEFINITION. The opcode map R85, the decoder R86 (total on every word, rejecting by name) and the encoder R81, R82
written from the same map. -/

namespace Sys2Proof

/-- The 32 commands of R85 by name. -/
inductive Op where
  | nop | xli | xlis
  | vzero | vbits | vuint | vcopy | vfree | vsize
  | vgetb | vsetb | vsety | vsetu | vslice
  | veq | vnot | vor | vand | vxor | vchoose | vmaj
  | vshl | vshr | vrol | vror
  | vadd | vclz
  | vtobin | vtohex | vtodec
  | vpad | vhash
  deriving DecidableEq, Repr, Inhabited

/-- Why a word is illegal (R87): its opcode is not in R85, or a must-be-zero field is not 0. -/
inductive DecodeError where
  | undefinedOpcode
  | mustBeZero
  deriving DecidableEq, Repr, Inhabited

/-- The opcode map (R85): opcode, format and the operand columns `d`, `a`, `b`, `c`. The format-I rows have no `b`
and `c` fields. -/
def Op.row : Op → OpRow
  | .nop     => ⟨0x01, .R, .zero, .zero, .zero, .zero⟩
  | .xli     => ⟨0x02, .I, .X, .zero, .zero, .zero⟩
  | .xlis    => ⟨0x03, .I, .X, .zero, .zero, .zero⟩
  | .vzero   => ⟨0x10, .R, .V, .X, .zero, .zero⟩
  | .vbits   => ⟨0x11, .R, .V, .V, .zero, .zero⟩
  | .vuint   => ⟨0x12, .R, .V, .X, .X, .zero⟩
  | .vcopy   => ⟨0x13, .R, .V, .V, .zero, .zero⟩
  | .vfree   => ⟨0x14, .R, .V, .zero, .zero, .zero⟩
  | .vsize   => ⟨0x15, .R, .X, .V, .zero, .zero⟩
  | .vgetb   => ⟨0x20, .R, .X, .V, .X, .zero⟩
  | .vsetb   => ⟨0x21, .R, .V, .X, .X, .zero⟩
  | .vsety   => ⟨0x22, .R, .V, .X, .X, .zero⟩
  | .vsetu   => ⟨0x23, .R, .V, .X, .X, .X⟩
  | .vslice  => ⟨0x24, .R, .V, .V, .X, .X⟩
  | .veq     => ⟨0x30, .R, .X, .V, .V, .zero⟩
  | .vnot    => ⟨0x31, .R, .V, .V, .zero, .zero⟩
  | .vor     => ⟨0x32, .R, .V, .V, .V, .zero⟩
  | .vand    => ⟨0x33, .R, .V, .V, .V, .zero⟩
  | .vxor    => ⟨0x34, .R, .V, .V, .V, .zero⟩
  | .vchoose => ⟨0x35, .R, .V, .V, .V, .V⟩
  | .vmaj    => ⟨0x36, .R, .V, .V, .V, .V⟩
  | .vshl    => ⟨0x40, .R, .V, .V, .X, .zero⟩
  | .vshr    => ⟨0x41, .R, .V, .V, .X, .zero⟩
  | .vrol    => ⟨0x42, .R, .V, .V, .X, .zero⟩
  | .vror    => ⟨0x43, .R, .V, .V, .X, .zero⟩
  | .vadd    => ⟨0x50, .R, .V, .V, .V, .zero⟩
  | .vclz    => ⟨0x51, .R, .X, .V, .zero, .zero⟩
  | .vtobin  => ⟨0x60, .R, .V, .V, .zero, .zero⟩
  | .vtohex  => ⟨0x61, .R, .V, .V, .zero, .zero⟩
  | .vtodec  => ⟨0x62, .R, .V, .V, .zero, .zero⟩
  | .vpad    => ⟨0x70, .R, .V, .V, .zero, .zero⟩
  | .vhash   => ⟨0x71, .R, .V, .V, .zero, .zero⟩

/-- Every command, in the order of R85. -/
def Op.all : List Op :=
  [.nop, .xli, .xlis, .vzero, .vbits, .vuint, .vcopy, .vfree, .vsize, .vgetb, .vsetb, .vsety, .vsetu, .vslice,
   .veq, .vnot, .vor, .vand, .vxor, .vchoose, .vmaj, .vshl, .vshr, .vrol, .vror, .vadd, .vclz,
   .vtobin, .vtohex, .vtodec, .vpad, .vhash]

/-- The command an opcode names, if R85 has the opcode (R86, R87). -/
def Op.ofCode (code : BitVec 8) : Option Op := Op.all.find? fun o => o.row.code == code

/-- The fields of a word (R81; bit 31 is the most significant bit, R80). -/
def Fields.ofWord (w : Word) : Fields where
  op := w.extractLsb' 24 8
  d  := w.extractLsb' 20 4
  a  := w.extractLsb' 16 4
  b  := w.extractLsb' 12 4
  c  := w.extractLsb' 8 4
  z  := w.extractLsb' 0 8

/-- The word with the given fields (R81). -/
def Fields.toWord (f : Fields) : Word := f.op ++ f.d ++ f.a ++ f.b ++ f.c ++ f.z

/-- The immediate of a format-I word, bits 15:0 (R82). -/
def Fields.imm (f : Fields) : BitVec 16 := f.b ++ f.c ++ f.z

/-- The register a 4-bit field names (R83). -/
def regOf (x : BitVec 4) : Fin 16 := x.toFin

/-- The 4-bit field that names a register (R83). -/
def fieldOf (r : Fin 16) : BitVec 4 := BitVec.ofFin r

/-- The command with its operands taken from the fields that its row of R85 uses. -/
def Op.build (o : Op) (f : Fields) : Instr :=
  let d := regOf f.d
  let a := regOf f.a
  let b := regOf f.b
  let c := regOf f.c
  match o with
  | .nop     => .nop
  | .xli     => .xli d f.imm
  | .xlis    => .xlis d f.imm
  | .vzero   => .vzero d a
  | .vbits   => .vbits d a
  | .vuint   => .vuint d a b
  | .vcopy   => .vcopy d a
  | .vfree   => .vfree d
  | .vsize   => .vsize d a
  | .vgetb   => .vgetb d a b
  | .vsetb   => .vsetb d a b
  | .vsety   => .vsety d a b
  | .vsetu   => .vsetu d a b c
  | .vslice  => .vslice d a b c
  | .veq     => .veq d a b
  | .vnot    => .vnot d a
  | .vor     => .vor d a b
  | .vand    => .vand d a b
  | .vxor    => .vxor d a b
  | .vchoose => .vchoose d a b c
  | .vmaj    => .vmaj d a b c
  | .vshl    => .vshl d a b
  | .vshr    => .vshr d a b
  | .vrol    => .vrol d a b
  | .vror    => .vror d a b
  | .vadd    => .vadd d a b
  | .vclz    => .vclz d a
  | .vtobin  => .vtobin d a
  | .vtohex  => .vtohex d a
  | .vtodec  => .vtodec d a
  | .vpad    => .vpad d a
  | .vhash   => .vhash d a

/-- R86: the opcode selects the row, every must-be-zero field is checked, then the operands are read. -/
def decode (w : Word) : Except DecodeError Instr :=
  let f := Fields.ofWord w
  match Op.ofCode f.op with
  | none => .error .undefinedOpcode
  | some o => if o.row.legal f then .ok (o.build f) else .error .mustBeZero

/-- The command an instruction is an instance of. -/
def Instr.op : Instr → Op
  | .nop           => .nop
  | .xli ..        => .xli
  | .xlis ..       => .xlis
  | .vzero ..      => .vzero
  | .vbits ..      => .vbits
  | .vuint ..      => .vuint
  | .vcopy ..      => .vcopy
  | .vfree ..      => .vfree
  | .vsize ..      => .vsize
  | .vgetb ..      => .vgetb
  | .vsetb ..      => .vsetb
  | .vsety ..      => .vsety
  | .vsetu ..      => .vsetu
  | .vslice ..     => .vslice
  | .veq ..        => .veq
  | .vnot ..       => .vnot
  | .vor ..        => .vor
  | .vand ..       => .vand
  | .vxor ..       => .vxor
  | .vchoose ..    => .vchoose
  | .vmaj ..       => .vmaj
  | .vshl ..       => .vshl
  | .vshr ..       => .vshr
  | .vrol ..       => .vrol
  | .vror ..       => .vror
  | .vadd ..       => .vadd
  | .vclz ..       => .vclz
  | .vtobin ..     => .vtobin
  | .vtohex ..     => .vtohex
  | .vtodec ..     => .vtodec
  | .vpad ..       => .vpad
  | .vhash ..      => .vhash

/-- Format-R fields of a command with the register operands `d`, `a`, `b`, `c` (an unused one 0), `z` = 0 (R81). -/
def fieldsR (o : Op) (d : Fin 16 := 0) (a : Fin 16 := 0) (b : Fin 16 := 0) (c : Fin 16 := 0) : Fields :=
  ⟨o.row.code, fieldOf d, fieldOf a, fieldOf b, fieldOf c, 0⟩

/-- Format-I fields: `a` = 0 and the immediate in bits 15:0 (R82). -/
def fieldsI (o : Op) (d : Fin 16) (imm : BitVec 16) : Fields :=
  ⟨o.row.code, fieldOf d, 0, imm.extractLsb' 12 4, imm.extractLsb' 8 4, imm.extractLsb' 0 8⟩

/-- The fields of a command, every unused one 0 (R81, R82, R90). -/
def Instr.fields (i : Instr) : Fields :=
  match i with
  | .nop             => fieldsR i.op
  | .xli d imm       => fieldsI i.op d imm
  | .xlis d imm      => fieldsI i.op d imm
  | .vzero d a       => fieldsR i.op d a
  | .vbits d a       => fieldsR i.op d a
  | .vuint d a b     => fieldsR i.op d a b
  | .vcopy d a       => fieldsR i.op d a
  | .vfree d         => fieldsR i.op d
  | .vsize d a       => fieldsR i.op d a
  | .vgetb d a b     => fieldsR i.op d a b
  | .vsetb d a b     => fieldsR i.op d a b
  | .vsety d a b     => fieldsR i.op d a b
  | .vsetu d a b c   => fieldsR i.op d a b c
  | .vslice d a b c  => fieldsR i.op d a b c
  | .veq d a b       => fieldsR i.op d a b
  | .vnot d a        => fieldsR i.op d a
  | .vor d a b       => fieldsR i.op d a b
  | .vand d a b      => fieldsR i.op d a b
  | .vxor d a b      => fieldsR i.op d a b
  | .vchoose d a b c => fieldsR i.op d a b c
  | .vmaj d a b c    => fieldsR i.op d a b c
  | .vshl d a b      => fieldsR i.op d a b
  | .vshr d a b      => fieldsR i.op d a b
  | .vrol d a b      => fieldsR i.op d a b
  | .vror d a b      => fieldsR i.op d a b
  | .vadd d a b      => fieldsR i.op d a b
  | .vclz d a        => fieldsR i.op d a
  | .vtobin d a      => fieldsR i.op d a
  | .vtohex d a      => fieldsR i.op d a
  | .vtodec d a      => fieldsR i.op d a
  | .vpad d a        => fieldsR i.op d a
  | .vhash d a       => fieldsR i.op d a

/-- The command word of an instruction (R80 to R82, R85). -/
def encode (i : Instr) : Word := i.fields.toWord

/-- What the decoder reads from the table's word `w` of `nbits` bits. Every command is one 32-bit word (R80), so the
bits above `nbits` are 0. -/
def decodeTableWord (nbits w : Nat) : Option Instr := (decode (BitVec.ofNat 32 (w % 2 ^ nbits))).toOption

end Sys2Proof
end

