-- ==== Sys2Proof/Machine/Types.lean ====
section
/-! DEFINITION. The plain data the state is made of: a bit vector with its storage bytes (R7, R8), and the SHA-256
unit's working state (R49). -/

namespace Sys2Proof.Machine

/-- One bit vector: its logical size in bits and its storage bytes, byte 0 first, scratch bits included (R8, R31).
That `bytes` holds exactly `nbytes size` entries is the canonical form `Vec.wf` (Machine/BitVector.lean). -/
structure Vec where
  size  : Nat
  bytes : List Byte
  deriving DecidableEq, Repr, Inhabited

/-- `PHASE` of the SHA-256 unit (R49, R216). -/
inductive ShaPhase where
  | idle
  | load
  | sched
  | round
  | update
  | done
  deriving DecidableEq, Repr, Inhabited

/-- The SHA-256 unit's state, field by field as R49 lists it: `m` the padded message, `nblk` its number of blocks,
`blk` the current block, `t` the counter, `h` the running hash state, `w` the message schedule, `a` to `hh` the
working variables, `dest` the destination register of the running `VHASH`. A Word is held as a 32-bit number whose
most significant bit is the vector's bit index 0 (R10). -/
structure ShaUnit where
  phase : ShaPhase
  m     : Vec
  nblk  : Nat
  blk   : Nat
  t     : Nat
  h     : Vector Word 8
  w     : Vector Word 64
  a     : Word
  b     : Word
  c     : Word
  d     : Word
  e     : Word
  f     : Word
  g     : Word
  hh    : Word
  dest  : Fin 16
  deriving DecidableEq, Repr, Inhabited

end Sys2Proof.Machine
end

