-- ==== Sys2Proof/Config.lean ====
section
/-! DEFINITION. What is fixed for this hardware (the parameters of R6) and the values the spec leaves open. -/

namespace Sys2Proof

/-- `NV`, the number of vector registers (R6); the register files of `Machine.State` have this length. -/
def Config.NV : Nat := 16

/-- `NX`, the number of scalar registers (R6). -/
def Config.NX : Nat := 16

/-- `XLEN`, the width of a scalar register (R6). -/
def Config.XLEN : Nat := 64

/-- `VLEN_MAX`, the largest size in bits a vector register may hold: this hardware's value (R6, R32). -/
def Config.VLEN_MAX : Nat := 65536

/-- `CQ_DEPTH`, the capacity of the command queue in words: this hardware's value (R6, R37). -/
def Config.CQ_DEPTH : Nat := 16

/-- The length of the host register block in bytes (R48, R68). -/
def Config.BLOCK_LEN : Nat := 0x40

/-- `HOST_BASE`, the platform's base address of the host register block: open (R6, R68), so a constant with no
body. No rule depends on its value; host accesses are written by their offset in the block (log entry 9). -/
opaque Config.HOST_BASE : Nat

/-- `RESET_DONE`, the time from power-on until the platform releases reset: open (R6, R243). The model has no time
(R249), so nothing reads it (log entry 10). -/
opaque Config.RESET_DONE : Nat

/-- A FREE VALUE: what the `n`-th host read of `RDLO`, `RDHI` or `RVINFO` made while `BUSY` = 1 returns (R175: "an
unspecified 32-bit value (a model draws it freely)"). No body, so nothing can be proved of it (log entry 4). -/
opaque Config.freeRead : Nat → Word

/-- A FREE VALUE: what the SHA-256 unit's working fields hold after the `n`-th draw, that is between runs and after a
reset made during a run (R49, R51: "unspecified; never observable"). Its `phase` is never used (log entry 3). -/
opaque Config.freeSha : Nat → Machine.ShaUnit

end Sys2Proof
end

