-- ==== Sys2Proof/Machine/State.lean ====
section
/-! DEFINITION. The machine's state, every piece the spec gives it (R31, R34, R37, R39 to R51) and the model's own
input and output, the reasons a step can stop, and the state after reset (R51). -/

namespace Sys2Proof.Machine

/-- The fields of `RSEL` (R44): `REG` bits 3:0, `SPACE` bit 4, `BOFF` bits 31:16. The reserved bits 15:5 are not
stored: what is written to them is ignored and they read 0. -/
structure Rsel where
  reg   : BitVec 4
  space : Bool
  boff  : BitVec 16
  deriving DecidableEq, Repr, Inhabited

/-- What the outside world does next (R30, R240). A list of these in `State.inputs` says in which order, and
`wait` says when the engine moves before the next of them: so every interleaving of the two agents is some list. -/
inductive HostEvent where
  /-- A host read, `width` bits wide, of the block's byte offset `off` (R63, R175). -/
  | read (width off : Nat)
  /-- A host write, `width` bits wide, of `data` to the block's byte offset `off` (R63, R172 to R177). -/
  | write (width off : Nat) (data : Word)
  /-- The platform drives power-on reset (R240). -/
  | powerOn
  /-- The host does nothing while the engine takes its step, if it has one (R170). -/
  | wait
  deriving DecidableEq, Repr, Inhabited

/-- The state. `v` to `sha` are the spec's; `inputs`, `reads` and `draws` are the model's own (log entries 1, 2, 4). -/
structure State where
  /-- Vector registers `V[0]` to `V[15]`; `none` is `Empty` (R31). -/
  v       : Vector (Option Vec) 16
  /-- Scalar registers `X[0]` to `X[15]` (R34). -/
  x       : Vector Scalar 16
  /-- The command queue, head first (R37). -/
  queue   : List Word
  /-- `STATUS.ERR` (R40); `STATUS.BUSY` is computed from `queue`. -/
  err     : Bool
  /-- `STATUS.ERRCODE` (R40, R179). -/
  errCode : BitVec 8
  /-- `ERRCMD` (R42). -/
  errCmd  : Word
  /-- `DONECNT` (R43). -/
  doneCnt : BitVec 32
  /-- `RSEL` (R44). -/
  rsel    : Rsel
  /-- The SHA-256 unit (R49). -/
  sha     : ShaUnit
  /-- MODEL: what the outside world still does, first first. -/
  inputs  : List HostEvent
  /-- MODEL: the values host reads have returned, latest first. -/
  reads   : List Word
  /-- MODEL: how many free values have been drawn. -/
  draws   : Nat
  deriving DecidableEq, Repr, Inhabited

/-- The ways the machine has no step. -/
inductive Fault where
  /-- Raised by `engineStep`: the queue is empty and the outside world does nothing more (R170: "When the queue is
  empty the engine has no step", R194: the run has ended). Safe: nothing happens on the hardware either. -/
  | idle
  /-- Raised by `engineStep`: `STATUS.ERR` = 1 and the outside world does nothing more, so no `ERRCLR` comes (R170,
  R186, R194: "ended in error"). Safe: nothing happens on the hardware either. -/
  | stoppedInError
  deriving DecidableEq, Repr, Inhabited

/-- The steps to which the spec gives no meaning. -/
inductive Refusal where
  /-- Raised by an arm of `exec` that has no meaning yet; no arm does. Safe. -/
  | notModelled (mnemonic : String)
  /-- Raised by `hostStep`: a host access that is not 32 bits wide, or not at a multiple of 4 (R63: "a model gives it
  no meaning (refuses it)"). Safe. -/
  | unsupportedAccess
  /-- Raised by `hostStep`: an access outside the 0x40-byte host register block, which is not the engine's (R48, R68).
  Safe. -/
  | outsideBlock
  deriving DecidableEq, Repr, Inhabited

/-- The SHA-256 unit right after power-on: `PHASE` is `IDLE` (R51); every other field is "unspecified", and the model
names the value of its type with the least content that R49's ranges allow (DESIGN CHOICE, log entry 3). -/
def ShaUnit.reset : ShaUnit where
  phase := .idle
  m     := ⟨512, List.replicate 64 0⟩
  nblk  := 1
  blk   := 0
  t     := 0
  h     := Vector.replicate 8 0
  w     := Vector.replicate 64 0
  a     := 0
  b     := 0
  c     := 0
  d     := 0
  e     := 0
  f     := 0
  g     := 0
  hh    := 0
  dest  := 0

/-- The machine right after reset (R51, R242): every vector register `Empty`, every scalar 0, the queue empty, the
host registers 0, the SHA-256 unit `IDLE`. Nothing has been asked of it and nothing read. -/
def State.reset : State where
  v       := Vector.replicate 16 none
  x       := Vector.replicate 16 0
  queue   := []
  err     := false
  errCode := 0
  errCmd  := 0
  doneCnt := 0
  rsel    := ⟨0, false, 0⟩
  sha     := .reset
  inputs  := []
  reads   := []
  draws   := 0

end Sys2Proof.Machine
end

