-- ==== Sys2Proof/Machine/BitVector.lean ====
section
/-! DEFINITION. The vector primitives of R13: storage bytes and logical bits (R7, R8), scratch bits (R9), the numeric
value (R10), `mkvec`, `vec`, `MemRead` and `MemWrite`. -/

namespace Sys2Proof.Machine

/-- `nbytes(n) = (n + 7) div 8` (R8). -/
def nbytes (n : Nat) : Nat := (n + 7) / 8

/-- `v.byte[k]` (R8); past the storage the list ends and the value, which no rule reads, is 0. -/
def Vec.byte (v : Vec) (k : Nat) : Byte := v.bytes.getD k 0

/-- `bit(v, i) = (v.byte[i div 8] >> (7 - (i mod 8))) & 1` (R8). -/
def Vec.bit (v : Vec) (i : Nat) : Bool := (v.byte (i / 8)).getLsbD (7 - i % 8)

/-- The canonical form of a vector (R8, R31, R32): exactly `nbytes(size)` storage bytes, and a size of at most
`VLEN_MAX`. -/
def Vec.wf (v : Vec) : Bool := decide (v.bytes.length = nbytes v.size) && decide (v.size ≤ Config.VLEN_MAX)

/-- Every scratch bit of `v` is 0 (R9). -/
def Vec.clean (v : Vec) : Bool :=
  (List.range (8 * nbytes v.size)).all fun i => decide (i < v.size) || !v.bit i

/-- "The vector of size `n` with `byte[k] = g k`" for each of its `nbytes(n)` storage bytes: every vector a command
makes is made by this. -/
def ofBytes (n : Nat) (g : Nat → Byte) : Vec := ⟨n, (List.range (nbytes n)).map g⟩

/-- The byte whose bit positions 7 down to 0 are `g 0` to `g 7` (R8). -/
def packByte (g : Nat → Bool) : Byte :=
  BitVec.ofNat 8 (128 * (g 0).toNat + 64 * (g 1).toNat + 32 * (g 2).toNat + 16 * (g 3).toNat
    + 8 * (g 4).toNat + 4 * (g 5).toNat + 2 * (g 6).toNat + (g 7).toNat)

/-- `mkvec(n, f)`: size `n`, `bit = f i` for each `i` in `[0, n)`, scratch bits 0 (R13). -/
def mkvec (n : Nat) (f : Nat → Bool) : Vec :=
  ofBytes n fun k => packByte fun j => decide (8 * k + j < n) && f (8 * k + j)

/-- The number written by the first `n` bits of `v`, bit 0 the most significant. -/
def Vec.valUpto (v : Vec) : Nat → Nat
  | 0     => 0
  | n + 1 => 2 * v.valUpto n + (v.bit n).toNat

/-- `val(v)`, the sum over `i` of `bit(v, i) * 2^(size - 1 - i)` (R10), by Horner's rule. -/
def Vec.val (v : Vec) : Nat := v.valUpto v.size

/-- `vec(n, x)`: size `n`, `val = x mod 2^n`, scratch bits 0 (R10). -/
def vecOf (n x : Nat) : Vec := mkvec n fun i => x.testBit (n - 1 - i)

/-- `MemRead(v, k, n)`: the `n` storage bytes from `k` (R13). -/
def Vec.memRead (v : Vec) (k n : Nat) : List Byte := (List.range n).map fun j => v.byte (k + j)

/-- `MemWrite(v, k, n, bs)` with `n` the length of `bs`: those storage bytes replaced, size and all other bytes
unchanged (R13). -/
def Vec.memWrite (v : Vec) (k : Nat) (bs : List Byte) : Vec :=
  ofBytes v.size fun j => if k ≤ j ∧ j < k + bs.length then bs.getD (j - k) 0 else v.byte j

/-- The byte `b` with bit position `p` set to `x`. -/
def putBit (b : Byte) (p : Nat) (x : Bool) : Byte :=
  (b &&& ~~~(1#8 <<< p)) ||| (if x then 1#8 <<< p else 0)

/-- `v` with `bit(v, i) = x` and every other bit and every scratch bit unchanged (R121). -/
def Vec.putBit (v : Vec) (i : Nat) (x : Bool) : Vec :=
  v.memWrite (i / 8) [Machine.putBit (v.byte (i / 8)) (7 - i % 8) x]

/-- Byte `k` of the number `value` written big-endian into `n` bytes: `(value div 2^(8*(n-1-k))) mod 256` (R61,
R102, R123). -/
def beByte (value n k : Nat) : Byte := BitVec.ofNat 8 (value / 2 ^ (8 * (n - 1 - k)))

end Sys2Proof.Machine
end

