-- ==== Sys2Proof/Machine/Ops.lean ====
section
/-! DEFINITION. The named operations over the registers, the storage bytes and the command queue, and the two ways a
command ends: completion (R171) and error entry (R180), with the return from an error (R176) beside them. -/

namespace Sys2Proof.Machine

/-- The errors a command can raise (R179). -/
inductive Err where
  | invalidSize
  | indexOutOfRange
  | invalidValue
  | sizeMismatch
  | invalidCharacter
  | noVector
  | illegalCommand
  deriving DecidableEq, Repr, Inhabited

/-- `code(E)` (R179). -/
def errNumber : Err → BitVec 8
  | .invalidSize      => 1
  | .indexOutOfRange  => 2
  | .invalidValue     => 3
  | .sizeMismatch     => 4
  | .invalidCharacter => 5
  | .noVector         => 6
  | .illegalCommand   => 7

/-- `V[r]` (R13). -/
def State.getV (s : State) (r : VReg) : Option Vec := s.v[r]

/-- `V[r] <- o`; the old contents are discarded (R33, R36). -/
def State.setV (s : State) (r : VReg) (o : Option Vec) : State := { s with v := s.v.set r o }

/-- `X[r]` (R13); no scalar register is hardwired (R34). -/
def State.getX (s : State) (r : XReg) : Scalar := s.x[r]

/-- `X[r] <- y` (R13). -/
def State.setX (s : State) (r : XReg) (y : Scalar) : State := { s with x := s.x.set r y }

/-- One byte of the engine's only byte-addressable storage: byte `k` of `V[r]`, none where the register is `Empty`
or has no such byte (R60). -/
def State.readByte (s : State) (r : VReg) (k : Nat) : Option Byte :=
  match s.getV r with
  | none   => none
  | some v => if k < nbytes v.size then some (v.byte k) else none

/-- The canonical form of the vector storage: every register that holds a vector holds a well-formed one (R31). -/
def Memory.wf (m : Vector (Option Vec) 16) : Bool :=
  m.toList.all fun o => match o with
    | none   => true
    | some v => v.wf

/-- The word of the command being executed: the head of the queue (R38, R170). On an empty queue, where no command
is executed, the value is 0 and no step reads it. -/
def State.current (s : State) : Word := s.queue.headD 0

/-- Completion (R171): the word leaves the head of the queue and `DONECNT` counts it, modulo 2^32 (R43). -/
def State.complete (s : State) : State := { s with queue := s.queue.tail, doneCnt := s.doneCnt + 1 }

/-- Error entry, `raise E` (R180): `ERR`, `ERRCODE` and `ERRCMD` record the error, the queue is emptied, and nothing
else changes. `BUSY` <- 0 follows, since it is computed from the queue. -/
def State.raise (s : State) (e : Err) : State :=
  { s with err := true, errCode := errNumber e, errCmd := s.current, queue := [] }

/-- The return from an error, `ERRCLR` (R176, R186): with `ERR` = 0 all three fields are 0 already. -/
def State.clearError (s : State) : State := { s with err := false, errCode := 0, errCmd := 0 }

/-- `w` appended at the tail of the queue (R172). -/
def State.enqueue (s : State) (w : Word) : State := { s with queue := s.queue ++ [w] }

/-- A free value for the SHA-256 unit's working fields, with `PHASE` = `IDLE`: nothing is known of them between runs
(R49; log entry 3). -/
def State.forgetSha (s : State) : State :=
  { s with sha := { Config.freeSha s.draws with phase := .idle }, draws := s.draws + 1 }

/-- Reset during a run, by `SRESET` or by the platform (R240, R241): every piece of the spec's state takes its R51
value, the SHA-256 unit's working fields an unspecified one. What the outside world does next, and what it has read,
is not the engine's. -/
def State.engineReset (s : State) : State :=
  State.forgetSha { State.reset with inputs := s.inputs, reads := s.reads, draws := s.draws }

/-- How a command that writes `V[d]` ends: it holds the result and the command completes (R171), or the error is
raised and no register is written (R180). -/
def finishV (s : State) (d : VReg) (r : Except Err Vec) : Host.Outcome State Fault Refusal :=
  match r with
  | .ok v    => .next (s.setV d (some v)).complete
  | .error e => .next (s.raise e)

/-- How a command that writes `X[d]` ends; `n` is written modulo 2^64 (R13). -/
def finishX (s : State) (d : XReg) (r : Except Err Nat) : Host.Outcome State Fault Refusal :=
  match r with
  | .ok n    => .next (s.setX d (BitVec.ofNat 64 n)).complete
  | .error e => .next (s.raise e)

end Sys2Proof.Machine
end

