-- ==== Sys2Proof/Machine/Operands.lean ====
section
/-! DEFINITION. The operand forms: a vector register, checked for `Empty` (R184); a scalar register read signed or
unsigned (R12); the 16-bit immediate extended by sign or by zeros (R84). -/

namespace Sys2Proof.Machine

/-- A vector operand: `NoVector` if the register is `Empty` (R33, R184). A meaning reads its vector operands before
its own checks, in R184's order: `d` if it is modified in place, then `a`, `b`, `c`. -/
def State.vec (s : State) (r : VReg) : Except Err Vec :=
  match s.getV r with
  | none   => .error .noVector
  | some v => .ok v

/-- `sx(X[r])` (R12). -/
def State.sx (s : State) (r : XReg) : Int := (s.getX r).toInt

/-- `ux(X[r])` (R12). -/
def State.ux (s : State) (r : XReg) : Nat := (s.getX r).toNat

/-- `sext_16(imm16)` (R84). -/
def sext16 (imm : BitVec 16) : Scalar := imm.signExtend 64

/-- `zext_16(imm16)` (R84). -/
def zext16 (imm : BitVec 16) : Scalar := imm.setWidth 64

end Sys2Proof.Machine
end

