-- ==== Sys2Proof/Machine/Flags.lean ====
section
/-! DEFINITION. The engine has no flags, condition codes or predicates (R35); the only status it keeps is the error
state. This file computes the `STATUS` word from it (R40). -/

namespace Sys2Proof.Machine

/-- `STATUS.BUSY`: 1 while the command queue is not empty (R40). -/
def State.busy (s : State) : Bool := !s.queue.isEmpty

/-- `STATUS` (R40): `BUSY` bit 0, `ERR` bit 1, `ERRCODE` bits 15:8, every other bit 0. -/
def State.status (s : State) : Word :=
  0#16 ++ s.errCode ++ 0#6 ++ BitVec.ofBool s.err ++ BitVec.ofBool s.busy

/-- Whether the engine has a step: the queue is not empty and `ERR` = 0 (R170). -/
def State.ready (s : State) : Bool := s.busy && !s.err

end Sys2Proof.Machine
end

