-- ==== Sys2Proof/Machine/Construct.lean ====
section
/-! DEFINITION. Construction, lifecycle and scalar commands (spec 40_construct.md, R100 to R108). -/

namespace Sys2Proof.Machine

/-- A size is legal for a result if it is not negative and at most `VLEN_MAX` (R32). -/
def sizeOk (n : Int) : Bool := decide (0 ≤ n) && decide (n ≤ (Config.VLEN_MAX : Int))

/-- `init_zeros(size)` (R100). -/
def initZeros (n : Int) : Except Err Vec :=
  if sizeOk n then .ok (mkvec n.toNat fun _ => false) else .error .invalidSize

/-- `init_from_bit_string(s)`: the storage bytes of `s` are the characters; '0' is 0x30 and '1' is 0x31 (R101). -/
def initFromBitString (s : Vec) : Except Err Vec :=
  if s.size % 8 ≠ 0 then .error .invalidSize
  else if (List.range (s.size / 8)).all fun k => s.byte k == 0x30 || s.byte k == 0x31 then
    .ok (mkvec (s.size / 8) fun i => s.byte i == 0x31)
  else .error .invalidCharacter

/-- `init_from_unsigned(value, bytes)`: big-endian, high-order bytes dropped without error (R102). -/
def initFromUnsigned (value : Nat) (m : Int) : Except Err Vec :=
  if sizeOk (8 * m) then .ok (ofBytes (8 * m.toNat) fun k => beByte value m.toNat k) else .error .invalidSize

/-- `copy(a)`: every storage byte, scratch bits included (R103). -/
def copyVec (v : Vec) : Vec := ofBytes v.size v.byte

/-- `NOP` (R108). -/
def execNop (s : State) : Host.Outcome State Fault Refusal := .next s.complete

/-- `XLI xd, imm` (R106). -/
def execXli (d : XReg) (imm : BitVec 16) (s : State) : Host.Outcome State Fault Refusal :=
  finishX s d (.ok (sext16 imm).toNat)

/-- `XLIS xd, imm` (R107): `X[d] * 2^16 + imm16`, modulo 2^64. -/
def execXlis (d : XReg) (imm : BitVec 16) (s : State) : Host.Outcome State Fault Refusal :=
  finishX s d (.ok (s.ux d * 2 ^ 16 + (zext16 imm).toNat))

/-- `VZERO vd, xa` (R100). -/
def execVzero (d : VReg) (a : XReg) (s : State) : Host.Outcome State Fault Refusal :=
  finishV s d (initZeros (s.sx a))

/-- `VBITS vd, va` (R101). -/
def execVbits (d a : VReg) (s : State) : Host.Outcome State Fault Refusal :=
  finishV s d (do
    let v ← s.vec a
    initFromBitString v)

/-- `VUINT vd, xa, xb` (R102). -/
def execVuint (d : VReg) (a b : XReg) (s : State) : Host.Outcome State Fault Refusal :=
  finishV s d (initFromUnsigned (s.ux a) (s.sx b))

/-- `VCOPY vd, va` (R103). -/
def execVcopy (d a : VReg) (s : State) : Host.Outcome State Fault Refusal :=
  finishV s d (do
    let v ← s.vec a
    .ok (copyVec v))

/-- `VFREE vd` (R104): no operand is checked, and a register that is `Empty` already completes too. -/
def execVfree (d : VReg) (s : State) : Host.Outcome State Fault Refusal := .next (s.setV d none).complete

/-- `VSIZE xd, va` (R105). -/
def execVsize (d : XReg) (a : VReg) (s : State) : Host.Outcome State Fault Refusal :=
  finishX s d (do
    let v ← s.vec a
    .ok v.size)

end Sys2Proof.Machine
end

