-- ==== Sys2Proof/Machine/Access.lean ====
section
/-! DEFINITION. Bit, byte and range access (spec 41_access.md, R120 to R124). -/

namespace Sys2Proof.Machine

/-- An index is in range of `n` things numbered from 0. -/
def indexOk (i : Int) (n : Nat) : Bool := decide (0 ≤ i) && decide (i < (n : Int))

/-- `get_bit(index)` (R120). -/
def getBit (v : Vec) (i : Int) : Except Err Nat :=
  if indexOk i v.size then .ok (v.bit i.toNat).toNat else .error .indexOutOfRange

/-- `set_bit(index, v)`: the index is checked first (R121). -/
def setBit (v : Vec) (i x : Int) : Except Err Vec :=
  if !indexOk i v.size then .error .indexOutOfRange
  else if x ≠ 0 ∧ x ≠ 1 then .error .invalidValue
  else .ok (v.putBit i.toNat (x == 1))

/-- `set_byte(byteIndex, v)`: all 8 bits of the byte, scratch bits included (R122). -/
def setByte (v : Vec) (k x : Int) : Except Err Vec :=
  if !indexOk k (nbytes v.size) then .error .indexOutOfRange
  else if x < 0 ∨ x > 255 then .error .invalidValue
  else .ok (v.memWrite k.toNat [BitVec.ofInt 8 x])

/-- `set_bytes_from_unsigned(value, startByte, numBytes)`: big-endian, high-order bytes dropped (R123). -/
def setBytesFromUnsigned (v : Vec) (value : Nat) (s n : Int) : Except Err Vec :=
  if n < 0 then .error .invalidSize
  else if s < 0 ∨ s + n > (nbytes v.size : Int) then .error .indexOutOfRange
  else .ok (v.memWrite s.toNat ((List.range n.toNat).map fun k => beByte value n.toNat k))

/-- `slice(start, end)`, the end exclusive (R124). -/
def slice (v : Vec) (s e : Int) : Except Err Vec :=
  if s < 0 ∨ e > (v.size : Int) ∨ e < s then .error .indexOutOfRange
  else .ok (mkvec (e - s).toNat fun i => v.bit (s.toNat + i))

/-- `VGETB xd, va, xb` (R120). -/
def execVgetb (d : XReg) (a : VReg) (b : XReg) (s : State) : Host.Outcome State Fault Refusal :=
  finishX s d (do
    let v ← s.vec a
    getBit v (s.sx b))

/-- `VSETB vd, xa, xb` (R121). -/
def execVsetb (d : VReg) (a b : XReg) (s : State) : Host.Outcome State Fault Refusal :=
  finishV s d (do
    let v ← s.vec d
    setBit v (s.sx a) (s.sx b))

/-- `VSETY vd, xa, xb` (R122). -/
def execVsety (d : VReg) (a b : XReg) (s : State) : Host.Outcome State Fault Refusal :=
  finishV s d (do
    let v ← s.vec d
    setByte v (s.sx a) (s.sx b))

/-- `VSETU vd, xa, xb, xc` (R123). -/
def execVsetu (d : VReg) (a b c : XReg) (s : State) : Host.Outcome State Fault Refusal :=
  finishV s d (do
    let v ← s.vec d
    setBytesFromUnsigned v (s.ux a) (s.sx b) (s.sx c))

/-- `VSLICE vd, va, xb, xc` (R124). -/
def execVslice (d a : VReg) (b c : XReg) (s : State) : Host.Outcome State Fault Refusal :=
  finishV s d (do
    let v ← s.vec a
    slice v (s.sx b) (s.sx c))

end Sys2Proof.Machine
end

