-- ==== Sys2Proof/Machine/Boolean.lean ====
section
/-! DEFINITION. Equality and boolean operations (spec 42_boolean.md, R130 to R136). -/

namespace Sys2Proof.Machine

/-- `equal(a, b)`: different sizes are unequal, and scratch bits are never compared (R130). -/
def equalVec (p q : Vec) : Bool :=
  p.size == q.size && (List.range p.size).all fun i => p.bit i == q.bit i

/-- `not(a)`: every storage byte is complemented, scratch bits included (R131). -/
def notVec (p : Vec) : Vec := ofBytes p.size fun k => ~~~p.byte k

/-- The shape of `or`, `and` and `xor`: bit by bit, on vectors of one size, scratch bits of the result 0. -/
def bitwise2 (f : Bool → Bool → Bool) (p q : Vec) : Except Err Vec :=
  if p.size ≠ q.size then .error .sizeMismatch
  else .ok (mkvec p.size fun i => f (p.bit i) (q.bit i))

/-- The shape of `choose` and `majority`: bit by bit, on three vectors of one size. -/
def bitwise3 (f : Bool → Bool → Bool → Bool) (p q u : Vec) : Except Err Vec :=
  if ¬(p.size = q.size ∧ q.size = u.size) then .error .sizeMismatch
  else .ok (mkvec p.size fun i => f (p.bit i) (q.bit i) (u.bit i))

/-- `or` (R132). -/
def orVec (p q : Vec) : Except Err Vec := bitwise2 (fun x y => x || y) p q

/-- `and` (R133). -/
def andVec (p q : Vec) : Except Err Vec := bitwise2 (fun x y => x && y) p q

/-- `xor` (R134). -/
def xorVec (p q : Vec) : Except Err Vec := bitwise2 (fun x y => x ^^ y) p q

/-- `choose(selector, a, b)`: selector bit 1 picks `a`, 0 picks `b` (R135). -/
def chooseVec (s p q : Vec) : Except Err Vec := bitwise3 (fun x y z => if x then y else z) s p q

/-- `majority(a, b, c)` (R136). -/
def majorityVec (p q u : Vec) : Except Err Vec := bitwise3 (fun x y z => (x && y) || (x && z) || (y && z)) p q u

/-- `VEQ xd, va, vb` (R130). -/
def execVeq (d : XReg) (a b : VReg) (s : State) : Host.Outcome State Fault Refusal :=
  finishX s d (do
    let p ← s.vec a
    let q ← s.vec b
    .ok (equalVec p q).toNat)

/-- `VNOT vd, va` (R131). -/
def execVnot (d a : VReg) (s : State) : Host.Outcome State Fault Refusal :=
  finishV s d (do
    let p ← s.vec a
    .ok (notVec p))

/-- `VOR vd, va, vb` (R132). -/
def execVor (d a b : VReg) (s : State) : Host.Outcome State Fault Refusal :=
  finishV s d (do
    let p ← s.vec a
    let q ← s.vec b
    orVec p q)

/-- `VAND vd, va, vb` (R133). -/
def execVand (d a b : VReg) (s : State) : Host.Outcome State Fault Refusal :=
  finishV s d (do
    let p ← s.vec a
    let q ← s.vec b
    andVec p q)

/-- `VXOR vd, va, vb` (R134). -/
def execVxor (d a b : VReg) (s : State) : Host.Outcome State Fault Refusal :=
  finishV s d (do
    let p ← s.vec a
    let q ← s.vec b
    xorVec p q)

/-- `VCHOOSE vd, va, vb, vc` (R135): `va` the selector, `vb` picked on 1, `vc` picked on 0. -/
def execVchoose (d a b c : VReg) (s : State) : Host.Outcome State Fault Refusal :=
  finishV s d (do
    let p ← s.vec a
    let q ← s.vec b
    let u ← s.vec c
    chooseVec p q u)

/-- `VMAJ vd, va, vb, vc` (R136). -/
def execVmaj (d a b c : VReg) (s : State) : Host.Outcome State Fault Refusal :=
  finishV s d (do
    let p ← s.vec a
    let q ← s.vec b
    let u ← s.vec c
    majorityVec p q u)

end Sys2Proof.Machine
end

