-- ==== Sys2Proof/Machine/Shift.lean ====
section
/-! DEFINITION. Shifts and rotates (spec 43_shift_rotate.md, R140 to R143). "Left" is toward bit index 0. A negative
count is the opposite direction by the exact negation, so a count of -2^63 does not overflow (R12). -/

namespace Sys2Proof.Machine

/-- The left shift by a count of at least 0 (R140). -/
def shiftLeftBy (v : Vec) (c : Nat) : Vec := mkvec v.size fun i => decide (i + c < v.size) && v.bit (i + c)

/-- The right shift by a count of at least 0 (R141). -/
def shiftRightBy (v : Vec) (c : Nat) : Vec := mkvec v.size fun i => decide (c ≤ i) && v.bit (i - c)

/-- `lshift(v, c)` (R140). -/
def lshift (v : Vec) (c : Int) : Vec := if c < 0 then shiftRightBy v (-c).toNat else shiftLeftBy v c.toNat

/-- `rshift(v, c)` (R141). -/
def rshift (v : Vec) (c : Int) : Vec := if c < 0 then shiftLeftBy v (-c).toNat else shiftRightBy v c.toNat

/-- The left rotation by a count of at least 0, reduced modulo the size; a size-0 vector is left as it is (R142). -/
def rotateLeftBy (v : Vec) (c : Nat) : Vec := mkvec v.size fun i => v.bit ((i + c % v.size) % v.size)

/-- The right rotation by a count of at least 0, `bit(v, (i - r) mod size)` (R143). -/
def rotateRightBy (v : Vec) (c : Nat) : Vec :=
  mkvec v.size fun i => v.bit ((i + (v.size - c % v.size)) % v.size)

/-- `lrotate(v, c)` (R142). -/
def lrotate (v : Vec) (c : Int) : Vec := if c < 0 then rotateRightBy v (-c).toNat else rotateLeftBy v c.toNat

/-- `rrotate(v, c)` (R143). -/
def rrotate (v : Vec) (c : Int) : Vec := if c < 0 then rotateLeftBy v (-c).toNat else rotateRightBy v c.toNat

/-- `VSHL vd, va, xb` (R140). -/
def execVshl (d a : VReg) (b : XReg) (s : State) : Host.Outcome State Fault Refusal :=
  finishV s d (do
    let v ← s.vec a
    .ok (lshift v (s.sx b)))

/-- `VSHR vd, va, xb` (R141). -/
def execVshr (d a : VReg) (b : XReg) (s : State) : Host.Outcome State Fault Refusal :=
  finishV s d (do
    let v ← s.vec a
    .ok (rshift v (s.sx b)))

/-- `VROL vd, va, xb` (R142). -/
def execVrol (d a : VReg) (b : XReg) (s : State) : Host.Outcome State Fault Refusal :=
  finishV s d (do
    let v ← s.vec a
    .ok (lrotate v (s.sx b)))

/-- `VROR vd, va, xb` (R143). -/
def execVror (d a : VReg) (b : XReg) (s : State) : Host.Outcome State Fault Refusal :=
  finishV s d (do
    let v ← s.vec a
    .ok (rrotate v (s.sx b)))

end Sys2Proof.Machine
end

