-- ==== Sys2Proof/Machine/Arith.lean ====
section
/-! DEFINITION. Addition modulo `2^size` and the leading-zero count (spec 44_arith.md, R150, R151). -/

namespace Sys2Proof.Machine

/-- `add_mod(a, b)`: the carry out of bit 0 is discarded and recorded nowhere (R150). -/
def addMod (p q : Vec) : Except Err Vec :=
  if p.size ≠ q.size then .error .sizeMismatch
  else .ok (vecOf p.size ((p.val + q.val) % 2 ^ p.size))

/-- The loop of R151 with `fuel` indices left: from `n`, the first index whose bit is 1, or the end. -/
def countZeros (v : Vec) (n : Nat) : Nat → Nat
  | 0        => n
  | fuel + 1 => if v.bit n then n else countZeros v (n + 1) fuel

/-- `leading_zeros(a)` (R151). -/
def leadingZeros (v : Vec) : Nat := countZeros v 0 v.size

/-- `VADD vd, va, vb` (R150). -/
def execVadd (d a b : VReg) (s : State) : Host.Outcome State Fault Refusal :=
  finishV s d (do
    let p ← s.vec a
    let q ← s.vec b
    addMod p q)

/-- `VCLZ xd, va` (R151). -/
def execVclz (d : XReg) (a : VReg) (s : State) : Host.Outcome State Fault Refusal :=
  finishX s d (do
    let v ← s.vec a
    .ok (leadingZeros v))

end Sys2Proof.Machine
end

