-- ==== Sys2Proof/Machine/Text.lean ====
section
/-! DEFINITION. Text conversions (spec 45_text.md, R160 to R162): ASCII characters, one a byte, first in byte 0. -/

namespace Sys2Proof.Machine

/-- A text of `n` characters, or `InvalidSize` if it would not fit in a register (R32). -/
def textVec (n : Nat) (char : Nat → Byte) : Except Err Vec :=
  if 8 * n > Config.VLEN_MAX then .error .invalidSize else .ok (ofBytes (8 * n) char)

/-- The binary string: one character a logical bit (R160). -/
def toBinString (v : Vec) : Except Err Vec := textVec v.size fun i => if v.bit i then 0x31 else 0x30

/-- `hexdigit(n)`, lowercase (R161). -/
def hexDigit (n : Nat) : Byte := BitVec.ofNat 8 (if n < 10 then 0x30 + n else 0x61 + (n - 10))

/-- The hex dump: two digits an allocated byte, high nibble first (R161). -/
def toHexDump (v : Vec) : Except Err Vec :=
  textVec (2 * nbytes v.size) fun j =>
    let byte := (v.byte (j / 2)).toNat
    hexDigit (if j % 2 = 0 then byte / 16 else byte % 16)

/-- The decimal dump: three digits an allocated byte, zero-padded (R162). -/
def toDecDump (v : Vec) : Except Err Vec :=
  textVec (3 * nbytes v.size) fun j =>
    let byte := (v.byte (j / 3)).toNat
    BitVec.ofNat 8 (0x30 + (if j % 3 = 0 then byte / 100 else if j % 3 = 1 then byte / 10 % 10 else byte % 10))

/-- `VTOBIN vd, va` (R160). -/
def execVtobin (d a : VReg) (s : State) : Host.Outcome State Fault Refusal :=
  finishV s d (do
    let v ← s.vec a
    toBinString v)

/-- `VTOHEX vd, va` (R161). -/
def execVtohex (d a : VReg) (s : State) : Host.Outcome State Fault Refusal :=
  finishV s d (do
    let v ← s.vec a
    toHexDump v)

/-- `VTODEC vd, va` (R162). -/
def execVtodec (d a : VReg) (s : State) : Host.Outcome State Fault Refusal :=
  finishV s d (do
    let v ← s.vec a
    toDecDump v)

end Sys2Proof.Machine
end

