-- ==== Sys2Proof/Machine/Sha256.lean ====
section
/-! DEFINITION. The SHA-256 unit: its constant tables (R201, R202), its functions on Words (R203 to R209), padding
(R210) and its state machine (R216 to R221). A Word is a 32-bit number; that its operations are the engine's own on
size-32 vectors (R200) is stated in Certificates/Slice0/Obligations.lean. -/

namespace Sys2Proof.Machine

/-- The round constants `K[0..63]` (R201, R50). -/
def roundK : List Word :=
  [0x428a2f98, 0x71374491, 0xb5c0fbcf, 0xe9b5dba5, 0x3956c25b, 0x59f111f1, 0x923f82a4, 0xab1c5ed5] ++
  [0xd807aa98, 0x12835b01, 0x243185be, 0x550c7dc3, 0x72be5d74, 0x80deb1fe, 0x9bdc06a7, 0xc19bf174] ++
  [0xe49b69c1, 0xefbe4786, 0x0fc19dc6, 0x240ca1cc, 0x2de92c6f, 0x4a7484aa, 0x5cb0a9dc, 0x76f988da] ++
  [0x983e5152, 0xa831c66d, 0xb00327c8, 0xbf597fc7, 0xc6e00bf3, 0xd5a79147, 0x06ca6351, 0x14292967] ++
  [0x27b70a85, 0x2e1b2138, 0x4d2c6dfc, 0x53380d13, 0x650a7354, 0x766a0abb, 0x81c2c92e, 0x92722c85] ++
  [0xa2bfe8a1, 0xa81a664b, 0xc24b8b70, 0xc76c51a3, 0xd192e819, 0xd6990624, 0xf40e3585, 0x106aa070] ++
  [0x19a4c116, 0x1e376c08, 0x2748774c, 0x34b0bcb5, 0x391c0cb3, 0x4ed8aa4a, 0x5b9cca4f, 0x682e6ff3] ++
  [0x748f82ee, 0x78a5636f, 0x84c87814, 0x8cc70208, 0x90befffa, 0xa4506ceb, 0xbef9a3f7, 0xc67178f2]

/-- The initial hash values `H0[0..7]` (R202, R50). -/
def initialH : Vector Word 8 :=
  #v[0x6a09e667, 0xbb67ae85, 0x3c6ef372, 0xa54ff53a, 0x510e527f, 0x9b05688c, 0x1f83d9ab, 0x5be0cd19]

/-- `rrotate(x, n)` on a Word (R143, R200). -/
def rotrWord (x : Word) (n : Nat) : Word := x.rotateRight n

/-- `rshift(x, n)` on a Word (R141, R200). -/
def shrWord (x : Word) (n : Nat) : Word := x >>> n

/-- `lower_sigma_0` (R204). -/
def lowerSigma0 (x : Word) : Word := rotrWord x 7 ^^^ rotrWord x 18 ^^^ shrWord x 3

/-- `lower_sigma_1` (R205). -/
def lowerSigma1 (x : Word) : Word := rotrWord x 17 ^^^ rotrWord x 19 ^^^ shrWord x 10

/-- `upper_sigma_0` (R206). -/
def upperSigma0 (x : Word) : Word := rotrWord x 2 ^^^ rotrWord x 13 ^^^ rotrWord x 22

/-- `upper_sigma_1` (R207). -/
def upperSigma1 (x : Word) : Word := rotrWord x 6 ^^^ rotrWord x 11 ^^^ rotrWord x 25

/-- `choose(e, f, g)` on Words (R208). -/
def chooseWord (e f g : Word) : Word := (e &&& f) ||| (~~~e &&& g)

/-- `majority(a, b, c)` on Words (R209). -/
def majorityWord (a b c : Word) : Word := (a &&& b) ||| (a &&& c) ||| (b &&& c)

/-- `pad(m)` (R210). -/
def pad (m : Vec) : Vec :=
  let l := m.size
  let z := ((447 - (l : Int)) % 512).toNat
  mkvec (l + 1 + z + 64) fun i =>
    if i < l then m.bit i
    else if i = l then true
    else if i < l + 1 + z then false
    else (vecOf 64 l).bit (i - (l + 1 + z))

/-- The number of a size-32 vector as a Word (R10). -/
def wordOf (v : Vec) : Word := BitVec.ofNat 32 v.val

/-- Word `s` of block `j` of the padded message (R211). -/
def blockWord (m : Vec) (j s : Nat) : Word := wordOf (mkvec 32 fun i => m.bit (512 * j + 32 * s + i))

/-- `W[i]`. -/
def ShaUnit.wAt (u : ShaUnit) (i : Nat) : Word := u.w[i]?.getD 0

/-- `H[k]`. -/
def ShaUnit.hAt (u : ShaUnit) (k : Nat) : Word := u.h[k]?.getD 0

/-- `K[t]`. -/
def kAt (t : Nat) : Word := roundK.getD t 0

/-- The start step (R217). Nothing of an earlier run is kept but fields that are written before they are read. -/
def shaStart (u : ShaUnit) (m : Vec) (d : Fin 16) : ShaUnit :=
  let p := pad m
  { u with m := p, nblk := p.size / 512, blk := 0, h := initialH, dest := d, phase := .load }

/-- The `LOAD` step (R218). -/
def shaLoad (u : ShaUnit) : ShaUnit :=
  { u with
    w := Vector.ofFn fun s : Fin 64 => if s.val < 16 then blockWord u.m u.blk s.val else u.w[s]
    t := 16
    phase := .sched }

/-- The `SCHED` step (R219): the next schedule Word, or, at `T` = 64, the working variables from `H`. -/
def shaSched (u : ShaUnit) : ShaUnit :=
  if u.t < 64 then
    { u with
      w := u.w.setIfInBounds u.t
        (lowerSigma1 (u.wAt (u.t - 2)) + u.wAt (u.t - 7) + lowerSigma0 (u.wAt (u.t - 15)) + u.wAt (u.t - 16))
      t := u.t + 1 }
  else
    { u with
      a := u.hAt 0, b := u.hAt 1, c := u.hAt 2, d := u.hAt 3
      e := u.hAt 4, f := u.hAt 5, g := u.hAt 6, hh := u.hAt 7
      t := 0
      phase := .round }

/-- `T1` of the round (R213, R220). -/
def ShaUnit.t1 (u : ShaUnit) : Word :=
  u.hh + upperSigma1 u.e + chooseWord u.e u.f u.g + kAt u.t + u.wAt u.t

/-- `T2` of the round (R213, R220). -/
def ShaUnit.t2 (u : ShaUnit) : Word := upperSigma0 u.a + majorityWord u.a u.b u.c

/-- The `ROUND` step (R220): the eight assignments are simultaneous. At `T` = 64 only the phase changes. -/
def shaRound (u : ShaUnit) : ShaUnit :=
  if u.t < 64 then
    { u with
      hh := u.g, g := u.f, f := u.e, e := u.d + u.t1
      d := u.c, c := u.b, b := u.a, a := u.t1 + u.t2
      t := u.t + 1 }
  else { u with phase := .update }

/-- The `UPDATE` step (R214, R221). -/
def shaUpdate (u : ShaUnit) : ShaUnit :=
  { u with
    h := #v[u.hAt 0 + u.a, u.hAt 1 + u.b, u.hAt 2 + u.c, u.hAt 3 + u.d,
            u.hAt 4 + u.e, u.hAt 5 + u.f, u.hAt 6 + u.g, u.hAt 7 + u.hh]
    blk := u.blk + 1
    phase := if u.blk + 1 < u.nblk then .load else .done }

/-- One step of the state machine (R216). `IDLE` has none of its own: it is left by `shaStart`. -/
def shaStep (u : ShaUnit) : ShaUnit :=
  match u.phase with
  | .idle   => u
  | .load   => shaLoad u
  | .sched  => shaSched u
  | .round  => shaRound u
  | .update => shaUpdate u
  | .done   => { u with phase := .idle }

/-- At most `n` steps, until `PHASE` = `IDLE`. -/
def shaRun : Nat → ShaUnit → ShaUnit
  | 0, u     => u
  | n + 1, u => match u.phase with
    | .idle => u
    | _     => shaRun n (shaStep u)

/-- The steps R216 counts after the start step: `NBLK * (1 + 49 + 64 + 1 + 1) + 1`. -/
def shaStepCount (nblk : Nat) : Nat := nblk * 116 + 1

/-- The digest, the concatenation of `H[0..7]`: `bit(D, 32k + i) = bit(H[k], i)` (R215). -/
def ShaUnit.digest (u : ShaUnit) : Vec := mkvec 256 fun i => (u.hAt (i / 32)).getMsbD (i % 32)

end Sys2Proof.Machine
end

