-- ==== Sys2Proof/Machine/Hash.lean ====
section
/-! DEFINITION. The SHA-256 commands (spec 46_sha256.md, R222, R223). -/

namespace Sys2Proof.Machine

/-- `VPAD vd, va` (R223). -/
def execVpad (d a : VReg) (s : State) : Host.Outcome State Fault Refusal :=
  finishV s d (do
    let m ← s.vec a
    if m.size % 8 ≠ 0 then .error .invalidSize
    else if (pad m).size > Config.VLEN_MAX then .error .invalidSize
    else .ok (pad m))

/-- `VHASH vd, va` (R222): the state machine runs from its start step to `IDLE`, and its `DONE` step writes the digest
to `V[DEST]` (R221). The command is atomic (R65), and nothing is known of the unit's working fields after it (R49). -/
def execVhash (d a : VReg) (s : State) : Host.Outcome State Fault Refusal :=
  match s.vec a with
  | .error e => .next (s.raise e)
  | .ok m =>
    if m.size % 8 ≠ 0 then .next (s.raise .invalidSize)
    else
      let start := shaStart s.sha m d
      let unit := shaRun (shaStepCount start.nblk) start
      .next (s.setV unit.dest (some unit.digest)).forgetSha.complete

end Sys2Proof.Machine
end

