-- ==== Sys2Proof/Machine/Dispatch.lean ====
section
/-! DEFINITION. One arm a command: each calls the meaning of its row of spec/opcode_table.json. -/

namespace Sys2Proof.Machine

def exec (i : Instr) (s : State) : Host.Outcome State Fault Refusal :=
  match i with
  | .nop => Sys2Proof.Machine.execNop s
  | .xli d imm => Sys2Proof.Machine.execXli d imm s
  | .xlis d imm => Sys2Proof.Machine.execXlis d imm s
  | .vzero d a => Sys2Proof.Machine.execVzero d a s
  | .vbits d a => Sys2Proof.Machine.execVbits d a s
  | .vuint d a b => Sys2Proof.Machine.execVuint d a b s
  | .vcopy d a => Sys2Proof.Machine.execVcopy d a s
  | .vfree d => Sys2Proof.Machine.execVfree d s
  | .vsize d a => Sys2Proof.Machine.execVsize d a s
  | .vgetb d a b => Sys2Proof.Machine.execVgetb d a b s
  | .vsetb d a b => Sys2Proof.Machine.execVsetb d a b s
  | .vsety d a b => Sys2Proof.Machine.execVsety d a b s
  | .vsetu d a b c => Sys2Proof.Machine.execVsetu d a b c s
  | .vslice d a b c => Sys2Proof.Machine.execVslice d a b c s
  | .veq d a b => Sys2Proof.Machine.execVeq d a b s
  | .vnot d a => Sys2Proof.Machine.execVnot d a s
  | .vor d a b => Sys2Proof.Machine.execVor d a b s
  | .vand d a b => Sys2Proof.Machine.execVand d a b s
  | .vxor d a b => Sys2Proof.Machine.execVxor d a b s
  | .vchoose d a b c => Sys2Proof.Machine.execVchoose d a b c s
  | .vmaj d a b c => Sys2Proof.Machine.execVmaj d a b c s
  | .vshl d a b => Sys2Proof.Machine.execVshl d a b s
  | .vshr d a b => Sys2Proof.Machine.execVshr d a b s
  | .vrol d a b => Sys2Proof.Machine.execVrol d a b s
  | .vror d a b => Sys2Proof.Machine.execVror d a b s
  | .vadd d a b => Sys2Proof.Machine.execVadd d a b s
  | .vclz d a => Sys2Proof.Machine.execVclz d a s
  | .vtobin d a => Sys2Proof.Machine.execVtobin d a s
  | .vtohex d a => Sys2Proof.Machine.execVtohex d a s
  | .vtodec d a => Sys2Proof.Machine.execVtodec d a s
  | .vpad d a => Sys2Proof.Machine.execVpad d a s
  | .vhash d a => Sys2Proof.Machine.execVhash d a s

end Sys2Proof.Machine
end

