-- ==== Sys2Proof/Machine/HostPort.lean ====
section
/-! DEFINITION. The host's transactions on the register block (R39 to R48, R172 to R177) and reset (R240, R241). -/

namespace Sys2Proof.Machine

/-- The registers of the block (R39); `reserved` is every other offset of it (R48). -/
inductive HostReg where
  | cmd
  | status
  | ctrl
  | errcmd
  | donecnt
  | rsel
  | rdlo
  | rdhi
  | rvinfo
  | reserved
  deriving DecidableEq, Repr, Inhabited

/-- The register at a byte offset (R39). -/
def hostRegAt (off : Nat) : HostReg :=
  if off = 0x00 then .cmd
  else if off = 0x04 then .status
  else if off = 0x08 then .ctrl
  else if off = 0x0C then .errcmd
  else if off = 0x10 then .donecnt
  else if off = 0x14 then .rsel
  else if off = 0x18 then .rdlo
  else if off = 0x1C then .rdhi
  else if off = 0x20 then .rvinfo
  else .reserved

/-- The platform's address of a byte offset of the block (R68). -/
def hostAddress (off : Nat) : Nat := Config.HOST_BASE + off

/-- `RSEL` as it reads: the fields as last written, reserved bits 0 (R44). -/
def Rsel.word (r : Rsel) : Word := r.boff ++ 0#11 ++ BitVec.ofBool r.space ++ r.reg

/-- The fields a write of `RSEL` sets (R44). -/
def rselOf (w : Word) : Rsel := ⟨w.extractLsb' 0 4, w.getLsbD 4, w.extractLsb' 16 16⟩

/-- The vector register `RSEL` selects with `SPACE` = 1 (R44). -/
def State.selectedV (s : State) : Option Vec := s.getV (regOf s.rsel.reg)

/-- The scalar register `RSEL` selects with `SPACE` = 0 (R44). -/
def State.selectedX (s : State) : Scalar := s.getX (regOf s.rsel.reg)

/-- Byte `k` of the selected vector register, 0 past its storage and for `Empty` (R45). -/
def State.selectedByte (s : State) (k : Nat) : Byte := (s.readByte (regOf s.rsel.reg) k).getD 0

/-- `RDLO` while `BUSY` = 0 (R45): the low scalar word, or four storage bytes, the lowest index in bits 31:24. -/
def State.rdlo (s : State) : Word :=
  if s.rsel.space then
    let k := s.rsel.boff.toNat
    s.selectedByte k ++ s.selectedByte (k + 1) ++ s.selectedByte (k + 2) ++ s.selectedByte (k + 3)
  else s.selectedX.extractLsb' 0 32

/-- `RDHI` while `BUSY` = 0 (R46). -/
def State.rdhi (s : State) : Word := if s.rsel.space then 0 else s.selectedX.extractLsb' 32 32

/-- `RVINFO` while `BUSY` = 0 (R47): `PRESENT` bit 31, `SIZE` bits 16:0. -/
def State.rvinfo (s : State) : Word :=
  if s.rsel.space then
    match s.selectedV with
    | none   => 0
    | some v => 1#1 ++ 0#14 ++ BitVec.ofNat 17 v.size
  else 0

/-- Whether a read of the register returns an unspecified value now (R175). -/
def State.readIsFree (s : State) (r : HostReg) : Bool := s.busy && (r == .rdlo || r == .rdhi || r == .rvinfo)

/-- What a read of a register returns where it is specified (R39 to R48): a write-only register and a reserved offset
read 0. -/
def State.regValue (s : State) : HostReg → Word
  | .cmd      => 0
  | .status   => s.status
  | .ctrl     => 0
  | .errcmd   => s.errCmd
  | .donecnt  => s.doneCnt
  | .rsel     => s.rsel.word
  | .rdlo     => s.rdlo
  | .rdhi     => s.rdhi
  | .rvinfo   => s.rvinfo
  | .reserved => 0

/-- A host read: the value goes to the host, and no state of the engine changes (R65, R175). An unspecified value is
drawn freely (log entry 4). -/
def State.hostRead (s : State) (r : HostReg) : State :=
  if s.readIsFree r then { s with reads := Config.freeRead s.draws :: s.reads, draws := s.draws + 1 }
  else { s with reads := s.regValue r :: s.reads }

/-- A host write of `CMD` that is not held: appended, or dropped while `ERR` = 1 (R172, R174). The word is not checked
here. -/
def State.writeCmd (s : State) (w : Word) : State := if s.err then s else s.enqueue w

/-- A host write of `CTRL` (R41, R176, R177): `SRESET` wins over `ERRCLR`; bits 31:2 are ignored. -/
def State.writeCtrl (s : State) (w : Word) : State :=
  if w.getLsbD 1 then s.engineReset
  else if w.getLsbD 0 then s.clearError
  else s

/-- A host write of a register; one to a read-only register or a reserved offset is ignored (R39, R48). -/
def State.hostWrite (s : State) (r : HostReg) (w : Word) : State :=
  match r with
  | .cmd      => s.writeCmd w
  | .ctrl     => s.writeCtrl w
  | .rsel     => { s with rsel := rselOf w }
  | .status   => s
  | .errcmd   => s
  | .donecnt  => s
  | .rdlo     => s
  | .rdhi     => s
  | .rvinfo   => s
  | .reserved => s

/-- Whether an access is one the contract supports: 32 bits wide at a multiple of 4 (R63). -/
def accessOk (width off : Nat) : Bool := width == 32 && off % 4 == 0

/-- Whether the host's next move is a `CMD` write that is held: the queue is full and `ERR` = 0 (R173). The host then
has no step. -/
def State.held (s : State) : HostEvent → Bool
  | .write width off _ =>
    accessOk width off && hostRegAt off == .cmd && !s.err && decide (Config.CQ_DEPTH ≤ s.queue.length)
  | .read ..           => false
  | .powerOn           => false
  | .wait              => false

/-- One move of the outside world that is not held. -/
def hostStep (s : State) : HostEvent → Host.Outcome State Fault Refusal
  | .powerOn => .next s.engineReset
  | .wait    => .next s
  | .read width off =>
    if !accessOk width off then .refused .unsupportedAccess
    else if Config.BLOCK_LEN ≤ off then .refused .outsideBlock
    else .next (s.hostRead (hostRegAt off))
  | .write width off data =>
    if !accessOk width off then .refused .unsupportedAccess
    else if Config.BLOCK_LEN ≤ off then .refused .outsideBlock
    else .next (s.hostWrite (hostRegAt off) data)

end Sys2Proof.Machine
end

