-- ==== Sys2Proof/Machine/Engine.lean ====
section
/-! DEFINITION. The engine's step (R170) and which of the two agents moves (R30, R173). -/

namespace Sys2Proof.Machine

/-- The engine's step (R170): the word at the head of the queue is decoded and executed; an illegal word raises
`IllegalCommand` (R86). With an empty queue or with `ERR` = 1 the engine has no step. -/
def engineStep (s : State) : Host.Outcome State Fault Refusal :=
  if s.err then .fault .stoppedInError
  else match s.queue with
    | []     => .fault .idle
    | w :: _ => match decode w with
      | .error _ => .next (s.raise .illegalCommand)
      | .ok i    => exec i s

/-- One step of the two agents. The outside world's next move is performed, unless it is a `CMD` write that is held
(then the engine moves, R173) or `wait` (then the engine moves if it has a step). When the outside world has nothing
more to do, the engine runs. -/
def agentStep (s : State) : Host.Outcome State Fault Refusal :=
  match s.inputs with
  | []           => engineStep s
  | .wait :: rest =>
    let s' := { s with inputs := rest }
    if s'.ready then engineStep s' else .next s'
  | ev :: rest   => if s.held ev then engineStep s else hostStep { s with inputs := rest } ev

/-- `s` with `w` as the word the engine executes next: at the head of the queue in place of what was there, with no
error recorded (the engine executes nothing while `ERR` = 1, R170) and with no move of the outside world before it. -/
def State.loadWord (s : State) (w : Word) : State :=
  let s' := if s.err then s.clearError else s
  { s' with queue := w :: s'.queue.tail, inputs := [] }

end Sys2Proof.Machine
end

