-- ==== Sys2Proof/Machine/Step.lean ====
section
/-! DEFINITION. The machine's step, and where it fetches its next command. -/

namespace Sys2Proof.Machine

/-- One step of the machine (R30, R170, R173). -/
def step (s : State) : Host.Outcome State Fault Refusal := agentStep s

/-- `s` with the table's word `w` of `nbits` bits as the command the next step executes. A program comes to run when
the host writes its words to `CMD` (R242; log entry 6); this stands for that write. -/
def State.withFetchWord (s : State) (nbits w : Nat) : State := s.loadWord (BitVec.ofNat 32 (w % 2 ^ nbits))

end Sys2Proof.Machine
end

