-- ==== Sys2Proof/Machine/Assembler.lean ====
section
/-! DEFINITION. The assembler (R90) and the pseudo-instruction `LI` (R91). It is no part of the engine: it says which
command words a line of assembler text stands for. A line is a list of characters. -/

namespace Sys2Proof.Machine

/-- The mnemonic of a command (R85). -/
def opName : Op → String
  | .nop     => "NOP"
  | .xli     => "XLI"
  | .xlis    => "XLIS"
  | .vzero   => "VZERO"
  | .vbits   => "VBITS"
  | .vuint   => "VUINT"
  | .vcopy   => "VCOPY"
  | .vfree   => "VFREE"
  | .vsize   => "VSIZE"
  | .vgetb   => "VGETB"
  | .vsetb   => "VSETB"
  | .vsety   => "VSETY"
  | .vsetu   => "VSETU"
  | .vslice  => "VSLICE"
  | .veq     => "VEQ"
  | .vnot    => "VNOT"
  | .vor     => "VOR"
  | .vand    => "VAND"
  | .vxor    => "VXOR"
  | .vchoose => "VCHOOSE"
  | .vmaj    => "VMAJ"
  | .vshl    => "VSHL"
  | .vshr    => "VSHR"
  | .vrol    => "VROL"
  | .vror    => "VROR"
  | .vadd    => "VADD"
  | .vclz    => "VCLZ"
  | .vtobin  => "VTOBIN"
  | .vtohex  => "VTOHEX"
  | .vtodec  => "VTODEC"
  | .vpad    => "VPAD"
  | .vhash   => "VHASH"

/-- `sext_{16n}(u mod 2^(16n)) = u`: the low `n` chunks of `u` give it back by sign extension (R91). -/
def liFits (u n : Nat) : Bool := (BitVec.ofNat (16 * n) u).signExtend 64 == BitVec.ofNat 64 u

/-- The least `n` in 1 to 4 that fits (R91); 4 always does. -/
def liCount (u : Nat) : Nat :=
  if liFits u 1 then 1 else if liFits u 2 then 2 else if liFits u 3 then 3 else 4

/-- `c_k = (u >> 16k) mod 2^16` (R91). -/
def liChunk (u k : Nat) : BitVec 16 := BitVec.ofNat 16 (u / 2 ^ (16 * k))

/-- `LI xd, imm` (R91): `XLI` of the top chunk, then `XLIS` of each lower one. -/
def liExpand (d : XReg) (imm : Int) : List Instr :=
  let u := (imm % 2 ^ 64).toNat
  let n := liCount u
  .xli d (liChunk u (n - 1)) :: (List.range (n - 1)).map fun j => .xlis d (liChunk u (n - 2 - j))

/-- An operand as it is written (R90). -/
inductive AsmArg where
  | v (n : Fin 16)
  | x (n : Fin 16)
  | imm (z : Int)
  deriving DecidableEq, Repr, Inhabited

/-- The value of a digit in a base up to 16, hexadecimal digits in either case (DESIGN CHOICE, log entry 12). -/
def digitValue (base : Nat) (ch : Char) : Option Nat :=
  let n := ch.toNat
  let v := if 48 ≤ n ∧ n ≤ 57 then n - 48
    else if 97 ≤ n ∧ n ≤ 102 then n - 87
    else if 65 ≤ n ∧ n ≤ 70 then n - 55
    else base
  if v < base then some v else none

/-- The number the digits write, read from the left after `acc`. -/
def digitsFrom (base acc : Nat) : List Char → Option Nat
  | []      => some acc
  | ch :: r => match digitValue base ch with
    | none   => none
    | some v => digitsFrom base (acc * base + v) r

/-- At least one digit (R90). -/
def digits (base : Nat) (cs : List Char) : Option Nat := if cs.isEmpty then none else digitsFrom base 0 cs

/-- A register number, 0 to 15 in decimal (R90), leading zeros allowed (DESIGN CHOICE, log entry 12). -/
def regNumber (cs : List Char) : Option (Fin 16) :=
  match digits 10 cs with
  | none   => none
  | some n => if h : n < 16 then some ⟨n, h⟩ else none

/-- An operand (R90): `vN`, `xN`, a decimal integer with optional `-`, or `0x` and hexadecimal digits. -/
def parseArg (cs : List Char) : Option AsmArg :=
  match cs with
  | 'v' :: r        => (regNumber r).map .v
  | 'x' :: r        => (regNumber r).map .x
  | '0' :: 'x' :: r => (digits 16 r).map fun n => .imm n
  | '-' :: r        => (digits 10 r).map fun n => .imm (-(n : Int))
  | _               => (digits 10 cs).map fun n => .imm n

/-- The characters without the spaces at either end, before and after a line's text and around an operand (DESIGN
CHOICE, log entry 12). -/
def trimSpaces (cs : List Char) : List Char :=
  ((cs.dropWhile (· == ' ')).reverse.dropWhile (· == ' ')).reverse

/-- The operands of a line, separated by commas; none if only spaces stand there (R90). -/
def parseArgs (cs : List Char) : Option (List AsmArg) :=
  if (trimSpaces cs).isEmpty then some [] else (cs.splitOn ',').mapM fun a => parseArg (trimSpaces a)

/-- A field from the operands, by its column: the next operand names a register of that file; an unused field is 0. -/
def takeField (k : Column) (args : List AsmArg) : Option (BitVec 4 × List AsmArg) :=
  match k, args with
  | .zero, r   => some (0, r)
  | .V, .v n :: r => some (fieldOf n, r)
  | .X, .x n :: r => some (fieldOf n, r)
  | .V, _      => none
  | .X, _      => none

/-- A format-R command from its operands, in the order of the R85 columns, none left over (R90). -/
def assembleR (o : Op) (args : List AsmArg) : Option Instr := do
  let (d, r) ← takeField o.row.d args
  let (a, r) ← takeField o.row.a r
  let (b, r) ← takeField o.row.b r
  let (c, r) ← takeField o.row.c r
  if r.isEmpty then some (o.build ⟨o.row.code, d, a, b, c, 0⟩) else none

/-- `XLI` takes an immediate in `[-32768, 32767]` and `XLIS` one in `[0, 65535]` (R90). -/
def assembleI (o : Op) (args : List AsmArg) : Option Instr :=
  match o, args with
  | .xli, [.x d, .imm z]  => if -32768 ≤ z ∧ z ≤ 32767 then some (.xli d (BitVec.ofInt 16 z)) else none
  | .xlis, [.x d, .imm z] => if 0 ≤ z ∧ z ≤ 65535 then some (.xlis d (BitVec.ofInt 16 z)) else none
  | _, _ => none

/-- The commands of a mnemonic, case-insensitive, with its operands; `LI` stands for several (R90, R91). -/
def assemble (name : List Char) (args : List AsmArg) : Option (List Instr) :=
  let name := name.map Char.toUpper
  if name = ['L', 'I'] then
    match args with
    | [.x d, .imm z] => if -2 ^ 63 ≤ z ∧ z < 2 ^ 64 then some (liExpand d z) else none
    | _ => none
  else match Op.all.find? fun o => (opName o).toList == name with
    | none   => none
    | some o => match o.row.fmt with
      | .R => (assembleR o args).map fun i => [i]
      | .I => (assembleI o args).map fun i => [i]

/-- A line of assembler text (R90): a `;` starts a comment. R90 does not say whether spaces may stand before the
mnemonic, or more than one after it, nor what a line without a mnemonic stands for: the model drops such spaces, and an
empty line stands for no command (DESIGN CHOICE, log entry 12). -/
def assembleLine (line : List Char) : Option (List Instr) :=
  let code := trimSpaces (line.takeWhile (· != ';'))
  if code.isEmpty then some []
  else
    match parseArgs (code.dropWhile (· != ' ')) with
    | none      => none
    | some args => assemble (code.takeWhile (· != ' ')) args

end Sys2Proof.Machine
end

