-- ==== Sys2Proof/Safety.lean ====
section
/-! DEFINITION. What is true of every state a run reaches, and when a run has ended, in the terms the claims use. -/

namespace Sys2Proof.Machine

/-- The invariant of the machine. -/
structure State.Inv (s : State) : Prop where
  /-- Every vector in a register has exactly `nbytes(size)` storage bytes and a size of at most `VLEN_MAX` (R31, R32). -/
  storage : Memory.wf s.v = true
  /-- The command queue holds at most `CQ_DEPTH` words (R37). -/
  depth   : s.queue.length ≤ Config.CQ_DEPTH
  /-- `BUSY` = 1 and `ERR` = 1 never hold together (R40). -/
  flushed : s.err = true → s.queue = []
  /-- `ERRCODE` is an error's while `ERR` = 1 (R40, R179). -/
  code    : s.err = true → 1 ≤ s.errCode.toNat ∧ s.errCode.toNat ≤ 7
  /-- `ERRCODE` and `ERRCMD` are 0 while `ERR` = 0 (R40, R42). -/
  cleared : s.err = false → s.errCode = 0 ∧ s.errCmd = 0
  /-- Between commands the SHA-256 unit is `IDLE` (R221, R241). -/
  unit    : s.sha.phase = .idle

/-- The run has ended (R194): the outside world does nothing more and the engine has no step. -/
def State.ended (s : State) : Prop := s.inputs = [] ∧ s.ready = false

end Sys2Proof.Machine
end

