-- ==== Sys2Proof/Certificates/Slice0/Obligations.lean ====
section
/-! DEFINITION. The statements about the model, for the provers, and the words they are said in. A statement about what
a command does says the whole state it ends in: `wroteV`, `wroteX` and `raised` are written out from R171 and R180,
not from the model's own operations, so each of them is a frame as well. -/

namespace Sys2Proof.Claims

open Sys2Proof.Machine

/-- The format-R word (R81): `op` 31:24, `d` 23:20, `a` 19:16, `b` 15:12, `c` 11:8, `z` 7:0 = 0. -/
def cmdWord (op : BitVec 8) (d a b c : Fin 16) : Word :=
  op ++ BitVec.ofFin (w := 4) d ++ BitVec.ofFin (w := 4) a ++ BitVec.ofFin (w := 4) b ++ BitVec.ofFin (w := 4) c ++ 0#8

/-- The format-I word (R82): `op` 31:24, `d` 23:20, `a` 19:16 = 0, `imm16` 15:0. -/
def immWord (op : BitVec 8) (d : Fin 16) (imm : BitVec 16) : Word := op ++ BitVec.ofFin (w := 4) d ++ 0#4 ++ imm

/-- The state after a command completed that wrote nothing (R171). -/
def completed (s : State) : State := { s with queue := s.queue.tail, doneCnt := s.doneCnt + 1 }

/-- The state after a command completed with the vector `r` in `V[d]` (R171): every other register, the error state,
`RSEL`, the SHA-256 unit and the outside world's list are as before. -/
def wroteV (s : State) (d : VReg) (r : Vec) : State :=
  { s with v := s.v.set d (some r), queue := s.queue.tail, doneCnt := s.doneCnt + 1 }

/-- The state after a command completed with `n` modulo 2^64 in `X[d]` (R171, R13). -/
def wroteX (s : State) (d : XReg) (n : Nat) : State :=
  { s with x := s.x.set d (BitVec.ofNat 64 n), queue := s.queue.tail, doneCnt := s.doneCnt + 1 }

/-- The state after a command raised the error numbered `code` (R180, R179). -/
def raised (s : State) (code : Nat) : State :=
  { s with err := true, errCode := BitVec.ofNat 8 code, errCmd := s.queue.headD 0, queue := [] }

/-- The command completes, with a vector in `V[d]` that has the property. -/
def Makes (i : Instr) (s : State) (d : VReg) (P : Vec → Prop) : Prop :=
  ∃ r, exec i s = .next (wroteV s d r) ∧ P r

/-- `r` is the vector of size `n` with the given storage bytes (R8). -/
def HasBytes (r : Vec) (n : Nat) (g : Nat → Byte) : Prop :=
  r.size = n ∧ r.bytes.length = (n + 7) / 8 ∧ ∀ k < (n + 7) / 8, r.byte k = g k

/-- `r` is the vector of size `n` with the given logical bits, and scratch bits 0 (R7, R9). -/
def HasBits (r : Vec) (n : Nat) (f : Nat → Bool) : Prop :=
  r.size = n ∧ r.bytes.length = (n + 7) / 8 ∧ (∀ i < n, r.bit i = f i) ∧
    ∀ i, n ≤ i → i < 8 * ((n + 7) / 8) → r.bit i = false

/-- The registers a command reads as vectors, in R184's order: `d` where it is modified in place, then the fields R85
marks `V`. -/
def vectorOperands : Instr → List VReg
  | .nop             => []
  | .xli _ _         => []
  | .xlis _ _        => []
  | .vzero _ _       => []
  | .vbits _ a       => [a]
  | .vuint _ _ _     => []
  | .vcopy _ a       => [a]
  | .vfree _         => []
  | .vsize _ a       => [a]
  | .vgetb _ a _     => [a]
  | .vsetb d _ _     => [d]
  | .vsety d _ _     => [d]
  | .vsetu d _ _ _   => [d]
  | .vslice _ a _ _  => [a]
  | .veq _ a b       => [a, b]
  | .vnot _ a        => [a]
  | .vor _ a b       => [a, b]
  | .vand _ a b      => [a, b]
  | .vxor _ a b      => [a, b]
  | .vchoose _ a b c => [a, b, c]
  | .vmaj _ a b c    => [a, b, c]
  | .vshl _ a _      => [a]
  | .vshr _ a _      => [a]
  | .vrol _ a _      => [a]
  | .vror _ a _      => [a]
  | .vadd _ a b      => [a, b]
  | .vclz _ a        => [a]
  | .vtobin _ a      => [a]
  | .vtohex _ a      => [a]
  | .vtodec _ a      => [a]
  | .vpad _ a        => [a]
  | .vhash _ a       => [a]

/-- The vector register a command writes (R85). -/
def vDest : Instr → Option VReg
  | .nop             => none
  | .xli _ _         => none
  | .xlis _ _        => none
  | .vzero d _       => some d
  | .vbits d _       => some d
  | .vuint d _ _     => some d
  | .vcopy d _       => some d
  | .vfree d         => some d
  | .vsize _ _       => none
  | .vgetb _ _ _     => none
  | .vsetb d _ _     => some d
  | .vsety d _ _     => some d
  | .vsetu d _ _ _   => some d
  | .vslice d _ _ _  => some d
  | .veq _ _ _       => none
  | .vnot d _        => some d
  | .vor d _ _       => some d
  | .vand d _ _      => some d
  | .vxor d _ _      => some d
  | .vchoose d _ _ _ => some d
  | .vmaj d _ _ _    => some d
  | .vshl d _ _      => some d
  | .vshr d _ _      => some d
  | .vrol d _ _      => some d
  | .vror d _ _      => some d
  | .vadd d _ _      => some d
  | .vclz _ _        => none
  | .vtobin d _      => some d
  | .vtohex d _      => some d
  | .vtodec d _      => some d
  | .vpad d _        => some d
  | .vhash d _       => some d

/-- The scalar register a command writes (R85). -/
def xDest : Instr → Option XReg
  | .xli d _     => some d
  | .xlis d _    => some d
  | .vsize d _   => some d
  | .vgetb d _ _ => some d
  | .veq d _ _   => some d
  | .vclz d _    => some d
  | _            => none

/-- Whether the command stores to byte `k` of `V[r]` (R64): the three commands that modify a register in place store
to the bytes their scalar operands select, every other vector command to all of its destination. -/
def storesTo (i : Instr) (s : State) (r : VReg) (k : Nat) : Prop :=
  match i with
  | .vsetb d a _   => r = d ∧ k = (s.sx a).toNat / 8
  | .vsety d a _   => r = d ∧ k = (s.sx a).toNat
  | .vsetu d _ b c => r = d ∧ (s.sx b).toNat ≤ k ∧ k < (s.sx b).toNat + (s.sx c).toNat
  | i              => vDest i = some r

/-- Two vectors that differ at most in scratch bits (R9). -/
def LogicEq (p q : Vec) : Prop := p.size = q.size ∧ ∀ i < p.size, p.bit i = q.bit i

/-- Two states that differ at most in the scratch bits of their vector registers. -/
def SameButScratch (s t : State) : Prop :=
  t = { s with v := t.v } ∧
    ∀ r : VReg, (s.getV r = none ∧ t.getV r = none) ∨
      ∃ p q, s.getV r = some p ∧ t.getV r = some q ∧ LogicEq p q

/-- A mask and a match value for each row of spec/opcode_table.json: a word is the row's command when its masked bits
are the match value. -/
def tableRows : List (Word × Word) :=
  [(0xFFFFFFFF, 0x01000000), (0xFF0F0000, 0x02000000), (0xFF0F0000, 0x03000000), (0xFF00FFFF, 0x10000000),
   (0xFF00FFFF, 0x11000000), (0xFF000FFF, 0x12000000), (0xFF00FFFF, 0x13000000), (0xFF0FFFFF, 0x14000000),
   (0xFF00FFFF, 0x15000000), (0xFF000FFF, 0x20000000), (0xFF000FFF, 0x21000000), (0xFF000FFF, 0x22000000),
   (0xFF0000FF, 0x23000000), (0xFF0000FF, 0x24000000), (0xFF000FFF, 0x30000000), (0xFF00FFFF, 0x31000000),
   (0xFF000FFF, 0x32000000), (0xFF000FFF, 0x33000000), (0xFF000FFF, 0x34000000), (0xFF0000FF, 0x35000000),
   (0xFF0000FF, 0x36000000), (0xFF000FFF, 0x40000000), (0xFF000FFF, 0x41000000), (0xFF000FFF, 0x42000000),
   (0xFF000FFF, 0x43000000), (0xFF000FFF, 0x50000000), (0xFF00FFFF, 0x51000000), (0xFF00FFFF, 0x60000000),
   (0xFF00FFFF, 0x61000000), (0xFF00FFFF, 0x62000000), (0xFF00FFFF, 0x70000000), (0xFF00FFFF, 0x71000000)]

/-- The characters '0' to '9' and 'a' to 'f' (R161). -/
def hexChars : List Byte :=
  [0x30, 0x31, 0x32, 0x33, 0x34, 0x35, 0x36, 0x37, 0x38, 0x39, 0x61, 0x62, 0x63, 0x64, 0x65, 0x66]

/-- The carry into index `size - 1 - k` of R150's carry chain: the last index first, each step's carry the next's. -/
def carryIn (p q : Vec) : Nat → Nat
  | 0     => 0
  | k + 1 => ((p.bit (p.size - 1 - k)).toNat + (q.bit (p.size - 1 - k)).toNat + carryIn p q k) / 2

/-- The carry into full byte `size div 8 - 1 - j` of R152: out of the partial last byte, then out of each full byte
from the last to the first. -/
def byteCarryIn (p q : Vec) : Nat → Nat
  | 0     => carryIn p q (p.size % 8)
  | j + 1 => ((p.byte (p.size / 8 - 1 - j)).toNat + (q.byte (p.size / 8 - 1 - j)).toNat + byteCarryIn p q j) / 256

/-- The size-32 vector of a Word (R10). -/
def vecOfWord (x : Word) : Vec := vecOf 32 x.toNat

/-- The eight working variables of R213. -/
structure Vars where
  a : Word
  b : Word
  c : Word
  d : Word
  e : Word
  f : Word
  g : Word
  h : Word

/-- The 64 round constants as R201 writes them, eight a row, apart from the model's own table. -/
def roundConstants : List Word :=
  [0x428a2f98, 0x71374491, 0xb5c0fbcf, 0xe9b5dba5, 0x3956c25b, 0x59f111f1, 0x923f82a4, 0xab1c5ed5] ++
  [0xd807aa98, 0x12835b01, 0x243185be, 0x550c7dc3, 0x72be5d74, 0x80deb1fe, 0x9bdc06a7, 0xc19bf174] ++
  [0xe49b69c1, 0xefbe4786, 0x0fc19dc6, 0x240ca1cc, 0x2de92c6f, 0x4a7484aa, 0x5cb0a9dc, 0x76f988da] ++
  [0x983e5152, 0xa831c66d, 0xb00327c8, 0xbf597fc7, 0xc6e00bf3, 0xd5a79147, 0x06ca6351, 0x14292967] ++
  [0x27b70a85, 0x2e1b2138, 0x4d2c6dfc, 0x53380d13, 0x650a7354, 0x766a0abb, 0x81c2c92e, 0x92722c85] ++
  [0xa2bfe8a1, 0xa81a664b, 0xc24b8b70, 0xc76c51a3, 0xd192e819, 0xd6990624, 0xf40e3585, 0x106aa070] ++
  [0x19a4c116, 0x1e376c08, 0x2748774c, 0x34b0bcb5, 0x391c0cb3, 0x4ed8aa4a, 0x5b9cca4f, 0x682e6ff3] ++
  [0x748f82ee, 0x78a5636f, 0x84c87814, 0x8cc70208, 0x90befffa, 0xa4506ceb, 0xbef9a3f7, 0xc67178f2]

/-- The padded message of R210: the message bits, a 1 bit, 0 bits, and the length as a 64-bit big-endian number. -/
def padded (m : Vec) : Vec :=
  let size := 512 * ((m.size + 64) / 512 + 1)
  mkvec size fun i =>
    if i < m.size then m.bit i
    else if i < size - 64 then decide (i = m.size)
    else m.size.testBit (size - 1 - i)

/-- Word `s` of block `j` of a padded message: the big-endian number of the block's bytes `4s` to `4s + 3` (R211). -/
def messageWord (m : Vec) (j s : Nat) : Word :=
  let k := 64 * j + 4 * s
  m.byte k ++ m.byte (k + 1) ++ m.byte (k + 2) ++ m.byte (k + 3)

/-- The message schedule of R211 and R212: its first `16 + n` Words. -/
def schedule (m : Vec) (j : Nat) : Nat → List Word
  | 0     => (List.range 16).map fun s => messageWord m j s
  | n + 1 =>
    let w := schedule m j n
    let t := 16 + n
    w ++ [lowerSigma1 (w.getD (t - 2) 0) + w.getD (t - 7) 0 + lowerSigma0 (w.getD (t - 15) 0) + w.getD (t - 16) 0]

/-- The working variables after `t` rounds of R213. -/
def rounds (w : List Word) (v : Vars) : Nat → Vars
  | 0     => v
  | t + 1 =>
    let u := rounds w v t
    let t1 := u.h + upperSigma1 u.e + chooseWord u.e u.f u.g + roundConstants.getD t 0 + w.getD t 0
    let t2 := upperSigma0 u.a + majorityWord u.a u.b u.c
    ⟨t1 + t2, u.a, u.b, u.c, u.d + t1, u.e, u.f, u.g⟩

/-- The running hash state after the first `j` blocks of the padded message (R211 to R214). -/
def hashState (m : Vec) : Nat → Vars
  | 0     => ⟨0x6a09e667, 0xbb67ae85, 0x3c6ef372, 0xa54ff53a, 0x510e527f, 0x9b05688c, 0x1f83d9ab, 0x5be0cd19⟩
  | j + 1 =>
    let h := hashState m j
    let u := rounds (schedule m j 48) h 64
    ⟨h.a + u.a, h.b + u.b, h.c + u.c, h.d + u.d, h.e + u.e, h.f + u.f, h.g + u.g, h.h + u.h⟩

/-- The digest Words of a message, by the algorithm of R210 to R215 with no state machine and with the constants of
R201 and R202 written out. Its functions on Words are the model's, which WordOperationsAreTheEngines pins. -/
def sha256 (m : Vec) : List Word :=
  let h := hashState (padded m) ((m.size + 64) / 512 + 1)
  [h.a, h.b, h.c, h.d, h.e, h.f, h.g, h.h]

/-- A host read of the register at byte offset `off` as the next move: the value goes to the host and nothing else
changes. The lists of moves and of values read are the model's (log entries 1 and 2). -/
def HostReads (s : State) (off : Nat) (val : Word) : Prop :=
  step { s with inputs := .read 32 off :: s.inputs } = .next { s with reads := val :: s.reads }

/-- A host write of the register at byte offset `off` as the next move, and the state it ends in. -/
def HostWrites (s : State) (off : Nat) (w : Word) (t : State) : Prop :=
  step { s with inputs := .write 32 off w :: s.inputs } = .next t

end Sys2Proof.Claims

open Sys2Proof Sys2Proof.Machine Sys2Proof.Claims

/-! ## Encoding -/

/-- R81, R82, R85, R86: decoding the word of an instruction gives the instruction back, every operand at every value
its field admits. -/
def Obligations.DecodeOfEncodeGivesBack : Prop := ∀ i : Instr, decode (encode i) = .ok i

/-- R81, R82, R86: a word that decodes is the word of the instruction it decodes to, so no word but that one means
it. -/
def Obligations.AcceptedWordIsItsEncoding : Prop := ∀ (w : Word) (i : Instr), decode w = .ok i → encode i = w

/-- R85, R86, R87: the decoder accepts exactly the words that match a row of the opcode table, whose masks hold the
opcode and every must-be-zero field. -/
def Obligations.AcceptedWordsAreTheTables : Prop :=
  ∀ w : Word, (∃ i, decode w = .ok i) ↔ ∃ row ∈ tableRows, w &&& row.1 = row.2

/-- R93: the worked encodings, and the counter-examples, each of which raises `IllegalCommand`. -/
def Obligations.WorkedEncodings : Prop :=
  decode 0x01000000 = .ok .nop ∧ decode 0x02100061 = .ok (.xli 1 0x61) ∧ decode 0x03106263 = .ok (.xlis 1 0x6263) ∧
  decode 0x0230FFFF = .ok (.xli 3 0xFFFF) ∧ decode 0x12112000 = .ok (.vuint 1 1 2) ∧
  decode 0x50312000 = .ok (.vadd 3 1 2) ∧ decode 0x35456700 = .ok (.vchoose 4 5 6 7) ∧
  decode 0x23213400 = .ok (.vsetu 2 1 3 4) ∧ decode 0x71210000 = .ok (.vhash 2 1) ∧
  decode 0x14900000 = .ok (.vfree 9) ∧
  decode 0x00000000 = .error .undefinedOpcode ∧ decode 0x14910000 = .error .mustBeZero ∧
  decode 0x50312001 = .error .mustBeZero ∧
  ∀ w ∈ [(0x00000000 : Word), 0x14910000, 0x50312001],
    step { State.reset with queue := [w] } = .next (raised { State.reset with queue := [w] } 7)

/-! ## The step -/

/-- R170: with nothing from the outside world and no error recorded, a step decodes the word at the head of the queue
and executes it; nothing is added around `exec`. -/
def Obligations.StepRunsTheDecodedCommand : Prop :=
  ∀ (s : State) (w : Word) (rest : List Word) (i : Instr),
    s.inputs = [] → s.err = false → s.queue = w :: rest → decode w = .ok i → step s = exec i s

/-- R86, R87, R180: a word that does not decode raises `IllegalCommand`, whatever the registers hold: no register is
written, the word is recorded and the queue is emptied. -/
def Obligations.IllegalWordRaisesIllegalCommand : Prop :=
  ∀ (s : State) (w : Word) (rest : List Word),
    s.inputs = [] → s.err = false → s.queue = w :: rest → (∀ row ∈ tableRows, w &&& row.1 ≠ row.2) →
    step s = .next (raised s 7) ∧ (raised s 7).errCmd = w

/-- R170, R194: a step has no next state by a fault only when the outside world does nothing more and the engine has no
step, because its queue is empty or because an error is recorded; and by a refusal only at a host access the contract
does not support (R63) or that is outside the block. That "no step" is a fault, and the refusal outside the block, are
the model's choices (log entries 8 and 11). -/
def Obligations.StepStopsOnlyWhereNothingMoves : Prop :=
  ∀ s : State,
    (∀ f, step s = .fault f ↔
      s.inputs = [] ∧ ((s.err = true ∧ f = .stoppedInError) ∨ (s.err = false ∧ s.queue = [] ∧ f = .idle))) ∧
    (∀ r, step s = .refused r → ∃ width off rest,
      (s.inputs = .read width off :: rest ∨ ∃ data, s.inputs = .write width off data :: rest) ∧
      ((r = .unsupportedAccess ∧ (width ≠ 32 ∨ off % 4 ≠ 0)) ∨ (r = .outsideBlock ∧ 0x40 ≤ off)))

/-- R31, R32, R37, R40, R42, R49: every step keeps the invariant of the machine, from every state that has it. -/
def Obligations.StepKeepsTheInvariant : Prop := ∀ s t : State, s.Inv → step s = .next t → t.Inv

/-- The state after reset has the invariant. -/
def Obligations.ResetHasTheInvariant : Prop := State.reset.Inv

/-- R51, R240, R241: power-on reset and a write of `CTRL` with `SRESET` leave every piece of state at its R51 value,
whatever the state before, and abandon every queued word. `State.reset` has those values too. Of the SHA-256 unit only
`PHASE` is stated: the rest is unspecified. -/
def Obligations.ResetLeavesTheStatedValues : Prop :=
  ∀ (s : State) (w : Word), w.getLsbD 1 = true →
    ∀ t, t = State.reset ∨ HostWrites s 0x08 w t ∨ step { s with inputs := .powerOn :: s.inputs } = .next t →
      (∀ r : VReg, t.getV r = none) ∧ (∀ r : XReg, t.getX r = 0) ∧ t.queue = [] ∧ t.err = false ∧ t.errCode = 0 ∧
      t.errCmd = 0 ∧ t.doneCnt = 0 ∧ t.rsel = ⟨0, false, 0⟩ ∧ t.sha.phase = .idle

/-- R170, R171, R180, R181: every command ends in one of two ways. It completes: the word leaves the queue, `DONECNT`
counts it modulo 2^32, and the error state is untouched; or it raises one of the errors 1 to 6, and then nothing but
the error state and the queue has changed. In both, `RSEL` and what the host has read are untouched. -/
def Obligations.EveryCommandCompletesOrRaises : Prop :=
  ∀ (i : Instr) (s : State), ∃ t, exec i s = .next t ∧
    ((t.queue = s.queue.tail ∧ t.doneCnt.toNat = (s.doneCnt.toNat + 1) % 2 ^ 32 ∧ t.err = s.err ∧
        t.errCode = s.errCode ∧ t.errCmd = s.errCmd ∧ t.rsel = s.rsel ∧ t.reads = s.reads ∧ t.inputs = s.inputs) ∨
      ∃ code, 1 ≤ code ∧ code ≤ 6 ∧ t = raised s code)

/-- R184: a command raises `NoVector` exactly when a register it reads as a vector is `Empty`, before any check of its
own. -/
def Obligations.NoVectorExactlyOnEmptyOperand : Prop :=
  ∀ (i : Instr) (s : State),
    exec i s = .next (raised s 6) ↔ ∃ r ∈ vectorOperands i, s.getV r = none

/-- R64, R171: the frame of every command. When it takes a next state, every register but its destination is as
before, every byte of vector storage outside the bytes it stores to reads as before, `RSEL`, the host's list and what
it has read are as before, and the SHA-256 unit is as before unless the command is `VHASH`. -/
def Obligations.OnlyTheDestinationChanges : Prop :=
  ∀ (i : Instr) (s t : State), exec i s = .next t →
    (∀ r : VReg, vDest i ≠ some r → t.getV r = s.getV r) ∧
    (∀ r : XReg, xDest i ≠ some r → t.getX r = s.getX r) ∧
    (∀ (r : VReg) (k : Nat), ¬ storesTo i s r k → t.readByte r k = s.readByte r k) ∧
    t.rsel = s.rsel ∧ t.inputs = s.inputs ∧ t.reads = s.reads ∧
    ((∀ d a, i ≠ .vhash d a) → t.sha = s.sha ∧ t.draws = s.draws)

/-- R173, R247, R249: the engine drains its queue. From every state with the invariant and nothing from the outside
world, at most as many steps as the queue has words empty it; then either every word completed or an error is
recorded. -/
def Obligations.EngineDrainsItsQueue : Prop :=
  ∀ s : State, s.Inv → s.inputs = [] →
    ∃ k t, k ≤ s.queue.length ∧ Host.Core.run core k s = .next t ∧ t.queue = [] ∧
      (t.err = true ∨ t.doneCnt = s.doneCnt + BitVec.ofNat 32 s.queue.length)

/-! ## Scratch bits -/

/-- R9, R66, of commands: no command but the dumps `VTOHEX` and `VTODEC` lets scratch bits reach anything but scratch
bits. Two runs of any other command from states that differ only in scratch bits end in states that differ only in
scratch bits: the same scalars, the same logical bits, the same errors. R66's third view, the host read of vector bytes
through `RDLO`, is no command: HostReadsButVectorRdloIgnoreScratchBits. -/
def Obligations.ScratchBitsReachOnlyTheDumps : Prop :=
  ∀ (i : Instr) (s s' t : State),
    (∀ d a, i ≠ .vtohex d a) → (∀ d a, i ≠ .vtodec d a) → SameButScratch s s' → exec i s = .next t →
    ∃ t', exec i s' = .next t' ∧ SameButScratch t t'

/-- R67: a command that completes with a new vector leaves every scratch bit of it 0, except `VNOT`, which leaves the
complement of its operand's, and `VCOPY`, which leaves its operand's; `VSETB` leaves its register's as they were. -/
def Obligations.ScratchBitsOfResults : Prop :=
  ∀ (i : Instr) (s t : State) (d : VReg), exec i s = .next t → t.doneCnt = s.doneCnt + 1 → vDest i = some d →
    match i with
    | .vfree _     => t.getV d = none
    | .vsety _ _ _ => True
    | .vsetu _ _ _ _ => True
    | .vnot _ a    => ∃ p r, s.getV a = some p ∧ t.getV d = some r ∧ r.size = p.size ∧
        ∀ j, p.size ≤ j → j < 8 * ((p.size + 7) / 8) → r.bit j = !p.bit j
    | .vcopy _ a   => ∃ p r, s.getV a = some p ∧ t.getV d = some r ∧ r.size = p.size ∧
        ∀ j, p.size ≤ j → j < 8 * ((p.size + 7) / 8) → r.bit j = p.bit j
    | .vsetb _ _ _ => ∃ p r, s.getV d = some p ∧ t.getV d = some r ∧ r.size = p.size ∧
        ∀ j, p.size ≤ j → j < 8 * ((p.size + 7) / 8) → r.bit j = p.bit j
    | _            => ∃ r, t.getV d = some r ∧ ∀ j, r.size ≤ j → j < 8 * ((r.size + 7) / 8) → r.bit j = false

/-- R10, R62: the number of a vector is the weighted sum of its logical bits, below `2^size`; of whole bytes it is their
big-endian number; and `vec(n, x)` is the size-`n` vector with the number `x mod 2^n` and scratch bits 0. -/
def Obligations.NumberIsTheSumOfTheBits : Prop :=
  (∀ v : Vec, v.val = ∑ i ∈ Finset.range v.size, (v.bit i).toNat * 2 ^ (v.size - 1 - i) ∧ v.val < 2 ^ v.size) ∧
  (∀ (v : Vec) (k : Nat), v.size = 8 * k → v.val = ∑ j ∈ Finset.range k, (v.byte j).toNat * 256 ^ (k - 1 - j)) ∧
  ∀ n x : Nat, (vecOf n x).size = n ∧ (vecOf n x).val = x % 2 ^ n ∧
    ∀ i, n ≤ i → i < 8 * ((n + 7) / 8) → (vecOf n x).bit i = false

/-! ## Construction and scalar commands -/

/-- R108: `NOP` completes and changes nothing but the queue and `DONECNT`. -/
def Obligations.NopOnlyCompletes : Prop :=
  decode (cmdWord 0x01 0 0 0 0) = .ok .nop ∧ ∀ s : State, exec .nop s = .next (completed s)

/-- R106, R107: `XLI` loads the immediate read as two's complement, and `XLIS` shifts the register left by 16 and
inserts the immediate, modulo 2^64. -/
def Obligations.ScalarLoads : Prop :=
  ∀ (d : XReg) (imm : BitVec 16) (s : State),
    decode (immWord 0x02 d imm) = .ok (.xli d imm) ∧ decode (immWord 0x03 d imm) = .ok (.xlis d imm) ∧
    exec (.xli d imm) s = .next (wroteX s d (imm.toInt % 2 ^ 64).toNat) ∧
    exec (.xlis d imm) s = .next (wroteX s d (((s.getX d).toNat * 2 ^ 16 + imm.toNat) % 2 ^ 64))

/-- R91: `LI` loads any 64-bit pattern. Its words, at the head of the queue, run one a step and leave the pattern in
the register, whatever it held. -/
def Obligations.LiLoadsThePattern : Prop :=
  ∀ (d : XReg) (imm : Int) (s : State) (rest : List Word),
    -2 ^ 63 ≤ imm → imm < 2 ^ 64 → s.inputs = [] → s.err = false →
    s.queue = (liExpand d imm).map encode ++ rest →
    1 ≤ (liExpand d imm).length ∧ (liExpand d imm).length ≤ 4 ∧
    Host.Core.run core (liExpand d imm).length s =
      .next { s with
        x := s.x.set d (BitVec.ofInt 64 imm)
        queue := rest
        doneCnt := s.doneCnt + BitVec.ofNat 32 (liExpand d imm).length }

/-- R100: `VZERO`. -/
def Obligations.VzeroMakesZeroBits : Prop :=
  ∀ (d : VReg) (a : XReg) (s : State) (n : Int), (s.getX a).toInt = n →
    decode (cmdWord 0x10 d a 0 0) = .ok (.vzero d a) ∧
    (0 ≤ n → n ≤ Config.VLEN_MAX → Makes (.vzero d a) s d fun r => HasBits r n.toNat fun _ => false) ∧
    (n < 0 ∨ (Config.VLEN_MAX : Int) < n → exec (.vzero d a) s = .next (raised s 1))

/-- R101: `VBITS`. -/
def Obligations.VbitsParsesTheBitString : Prop :=
  ∀ (d a : VReg) (s : State),
    decode (cmdWord 0x11 d a 0 0) = .ok (.vbits d a) ∧
    (s.getV a = none → exec (.vbits d a) s = .next (raised s 6)) ∧
    ∀ v, s.getV a = some v →
      (v.size % 8 ≠ 0 → exec (.vbits d a) s = .next (raised s 1)) ∧
      (v.size % 8 = 0 → (∃ k < v.size / 8, v.byte k ≠ 0x30 ∧ v.byte k ≠ 0x31) →
        exec (.vbits d a) s = .next (raised s 5)) ∧
      (v.size % 8 = 0 → (∀ k < v.size / 8, v.byte k = 0x30 ∨ v.byte k = 0x31) →
        Makes (.vbits d a) s d fun r => HasBits r (v.size / 8) fun i => decide (v.byte i = 0x31))

/-- R102: `VUINT`: the bytes of the result are the number's, big-endian, so its number is `value mod 2^(8m)`. -/
def Obligations.VuintEncodesBigEndian : Prop :=
  ∀ (d : VReg) (a b : XReg) (s : State) (value : Nat) (m : Int),
    (s.getX a).toNat = value → (s.getX b).toInt = m →
    decode (cmdWord 0x12 d a b 0) = .ok (.vuint d a b) ∧
    (0 ≤ m → 8 * m ≤ Config.VLEN_MAX → Makes (.vuint d a b) s d fun r =>
      HasBytes r (8 * m.toNat) (fun k => BitVec.ofNat 8 (value / 2 ^ (8 * (m.toNat - 1 - k)) % 256)) ∧
      r.val = value % 2 ^ (8 * m.toNat)) ∧
    (m < 0 ∨ (Config.VLEN_MAX : Int) < 8 * m → exec (.vuint d a b) s = .next (raised s 1))

/-- R103: `VCOPY`: every storage byte, so a well-formed vector is copied whole. -/
def Obligations.VcopyClonesTheStorage : Prop :=
  ∀ (d a : VReg) (s : State),
    decode (cmdWord 0x13 d a 0 0) = .ok (.vcopy d a) ∧
    (s.getV a = none → exec (.vcopy d a) s = .next (raised s 6)) ∧
    ∀ v, s.getV a = some v →
      (Makes (.vcopy d a) s d fun r => HasBytes r v.size v.byte) ∧
      (v.wf = true → exec (.vcopy d a) s = .next (wroteV s d v))

/-- R104: `VFREE` empties the register, an `Empty` one too, and then every command that reads it as a vector raises
`NoVector`. -/
def Obligations.VfreeEmptiesTheRegister : Prop :=
  ∀ (d : VReg) (s : State),
    decode (cmdWord 0x14 d 0 0 0) = .ok (.vfree d) ∧
    ∃ t, exec (.vfree d) s = .next t ∧
      t = { s with v := s.v.set d none, queue := s.queue.tail, doneCnt := s.doneCnt + 1 } ∧
      (s.getV d = none → t = completed s) ∧
      ∀ i, d ∈ vectorOperands i → exec i t = .next (raised t 6)

/-- R105: `VSIZE`. -/
def Obligations.VsizeReadsTheSize : Prop :=
  ∀ (d : XReg) (a : VReg) (s : State),
    decode (cmdWord 0x15 d a 0 0) = .ok (.vsize d a) ∧
    (s.getV a = none → exec (.vsize d a) s = .next (raised s 6)) ∧
    ∀ v, s.getV a = some v → exec (.vsize d a) s = .next (wroteX s d v.size)

/-! ## Access -/

/-- R120: `VGETB`. -/
def Obligations.VgetbReadsOneBit : Prop :=
  ∀ (d : XReg) (a : VReg) (b : XReg) (s : State) (i : Int), (s.getX b).toInt = i →
    decode (cmdWord 0x20 d a b 0) = .ok (.vgetb d a b) ∧
    (s.getV a = none → exec (.vgetb d a b) s = .next (raised s 6)) ∧
    ∀ v, s.getV a = some v →
      (0 ≤ i → i < v.size → exec (.vgetb d a b) s = .next (wroteX s d (if v.bit i.toNat then 1 else 0))) ∧
      (i < 0 ∨ (v.size : Int) ≤ i → exec (.vgetb d a b) s = .next (raised s 2))

/-- R121: `VSETB`: the index is checked first, and every other storage bit, scratch bits among them, is as before. -/
def Obligations.VsetbWritesOneBit : Prop :=
  ∀ (d : VReg) (a b : XReg) (s : State) (i x : Int), (s.getX a).toInt = i → (s.getX b).toInt = x →
    decode (cmdWord 0x21 d a b 0) = .ok (.vsetb d a b) ∧
    (s.getV d = none → exec (.vsetb d a b) s = .next (raised s 6)) ∧
    ∀ v, s.getV d = some v →
      (i < 0 ∨ (v.size : Int) ≤ i → exec (.vsetb d a b) s = .next (raised s 2)) ∧
      (0 ≤ i → i < v.size → x ≠ 0 → x ≠ 1 → exec (.vsetb d a b) s = .next (raised s 3)) ∧
      (0 ≤ i → i < v.size → x = 0 ∨ x = 1 → Makes (.vsetb d a b) s d fun r =>
        r.size = v.size ∧ r.bytes.length = (v.size + 7) / 8 ∧ r.bit i.toNat = decide (x = 1) ∧
        ∀ j < 8 * ((v.size + 7) / 8), j ≠ i.toNat → r.bit j = v.bit j)

/-- R122: `VSETY`: all 8 bits of the byte, scratch bits among them. -/
def Obligations.VsetyWritesOneByte : Prop :=
  ∀ (d : VReg) (a b : XReg) (s : State) (k x : Int), (s.getX a).toInt = k → (s.getX b).toInt = x →
    decode (cmdWord 0x22 d a b 0) = .ok (.vsety d a b) ∧
    (s.getV d = none → exec (.vsety d a b) s = .next (raised s 6)) ∧
    ∀ v, s.getV d = some v →
      (k < 0 ∨ (((v.size + 7) / 8 : Nat) : Int) ≤ k → exec (.vsety d a b) s = .next (raised s 2)) ∧
      (0 ≤ k → k < ((v.size + 7) / 8 : Nat) → x < 0 ∨ 255 < x → exec (.vsety d a b) s = .next (raised s 3)) ∧
      (0 ≤ k → k < ((v.size + 7) / 8 : Nat) → 0 ≤ x → x ≤ 255 → Makes (.vsety d a b) s d fun r =>
        HasBytes r v.size fun j => if j = k.toNat then BitVec.ofNat 8 x.toNat else v.byte j)

/-- R123: `VSETU`: the negative count is checked first, high-order bytes of the number are dropped, and every other
byte is as before. -/
def Obligations.VsetuWritesBytesBigEndian : Prop :=
  ∀ (d : VReg) (a b c : XReg) (s : State) (value : Nat) (st n : Int),
    (s.getX a).toNat = value → (s.getX b).toInt = st → (s.getX c).toInt = n →
    decode (cmdWord 0x23 d a b c) = .ok (.vsetu d a b c) ∧
    (s.getV d = none → exec (.vsetu d a b c) s = .next (raised s 6)) ∧
    ∀ v, s.getV d = some v →
      (n < 0 → exec (.vsetu d a b c) s = .next (raised s 1)) ∧
      (0 ≤ n → st < 0 ∨ (((v.size + 7) / 8 : Nat) : Int) < st + n →
        exec (.vsetu d a b c) s = .next (raised s 2)) ∧
      (0 ≤ n → 0 ≤ st → st + n ≤ ((v.size + 7) / 8 : Nat) → Makes (.vsetu d a b c) s d fun r =>
        HasBytes r v.size fun j =>
          if st.toNat ≤ j ∧ j < st.toNat + n.toNat then
            BitVec.ofNat 8 (value / 2 ^ (8 * (n.toNat - 1 - (j - st.toNat))) % 256)
          else v.byte j)

/-- R124: `VSLICE`. -/
def Obligations.VsliceCopiesTheRange : Prop :=
  ∀ (d a : VReg) (b c : XReg) (s : State) (st e : Int), (s.getX b).toInt = st → (s.getX c).toInt = e →
    decode (cmdWord 0x24 d a b c) = .ok (.vslice d a b c) ∧
    (s.getV a = none → exec (.vslice d a b c) s = .next (raised s 6)) ∧
    ∀ v, s.getV a = some v →
      (st < 0 ∨ (v.size : Int) < e ∨ e < st → exec (.vslice d a b c) s = .next (raised s 2)) ∧
      (0 ≤ st → st ≤ e → e ≤ v.size → Makes (.vslice d a b c) s d fun r =>
        HasBits r (e - st).toNat fun i => v.bit (st.toNat + i))

/-! ## Equality and boolean operations -/

/-- R130: `VEQ`: different sizes are unequal, and only logical bits are compared. -/
def Obligations.VeqComparesLogicalBits : Prop :=
  ∀ (d : XReg) (a b : VReg) (s : State),
    decode (cmdWord 0x30 d a b 0) = .ok (.veq d a b) ∧
    (s.getV a = none ∨ s.getV b = none → exec (.veq d a b) s = .next (raised s 6)) ∧
    ∀ p q, s.getV a = some p → s.getV b = some q →
      (LogicEq p q → exec (.veq d a b) s = .next (wroteX s d 1)) ∧
      (¬ LogicEq p q → exec (.veq d a b) s = .next (wroteX s d 0))

/-- R131: `VNOT`: every storage byte is complemented, so every logical bit and every scratch bit is. -/
def Obligations.VnotComplementsEveryByte : Prop :=
  ∀ (d a : VReg) (s : State),
    decode (cmdWord 0x31 d a 0 0) = .ok (.vnot d a) ∧
    (s.getV a = none → exec (.vnot d a) s = .next (raised s 6)) ∧
    ∀ p, s.getV a = some p → Makes (.vnot d a) s d fun r =>
      HasBytes r p.size (fun k => BitVec.ofNat 8 (255 - (p.byte k).toNat)) ∧
      ∀ j < 8 * ((p.size + 7) / 8), r.bit j = !p.bit j

/-- R132, R133, R134: `VOR`, `VAND` and `VXOR`, on operands of one size; different sizes raise `SizeMismatch`. -/
def Obligations.VorVandVxorBitByBit : Prop :=
  ∀ (d a b : VReg) (s : State),
    decode (cmdWord 0x32 d a b 0) = .ok (.vor d a b) ∧ decode (cmdWord 0x33 d a b 0) = .ok (.vand d a b) ∧
    decode (cmdWord 0x34 d a b 0) = .ok (.vxor d a b) ∧
    (s.getV a = none ∨ s.getV b = none →
      exec (.vor d a b) s = .next (raised s 6) ∧ exec (.vand d a b) s = .next (raised s 6) ∧
      exec (.vxor d a b) s = .next (raised s 6)) ∧
    ∀ p q, s.getV a = some p → s.getV b = some q →
      (p.size ≠ q.size →
        exec (.vor d a b) s = .next (raised s 4) ∧ exec (.vand d a b) s = .next (raised s 4) ∧
        exec (.vxor d a b) s = .next (raised s 4)) ∧
      (p.size = q.size →
        (Makes (.vor d a b) s d fun r => HasBits r p.size fun i => p.bit i || q.bit i) ∧
        (Makes (.vand d a b) s d fun r => HasBits r p.size fun i => p.bit i && q.bit i) ∧
        (Makes (.vxor d a b) s d fun r => HasBits r p.size fun i => p.bit i != q.bit i))

/-- R135, R136: `VCHOOSE` (the selector is `va`) and `VMAJ`, on operands of one size. -/
def Obligations.VchooseVmajBitByBit : Prop :=
  ∀ (d a b c : VReg) (s : State),
    decode (cmdWord 0x35 d a b c) = .ok (.vchoose d a b c) ∧ decode (cmdWord 0x36 d a b c) = .ok (.vmaj d a b c) ∧
    (s.getV a = none ∨ s.getV b = none ∨ s.getV c = none →
      exec (.vchoose d a b c) s = .next (raised s 6) ∧ exec (.vmaj d a b c) s = .next (raised s 6)) ∧
    ∀ p q u, s.getV a = some p → s.getV b = some q → s.getV c = some u →
      (¬ (p.size = q.size ∧ q.size = u.size) →
        exec (.vchoose d a b c) s = .next (raised s 4) ∧ exec (.vmaj d a b c) s = .next (raised s 4)) ∧
      (p.size = q.size → q.size = u.size →
        (Makes (.vchoose d a b c) s d fun r => HasBits r p.size fun i => if p.bit i then q.bit i else u.bit i) ∧
        (Makes (.vmaj d a b c) s d fun r => HasBits r p.size fun i =>
          decide (2 ≤ (p.bit i).toNat + (q.bit i).toNat + (u.bit i).toNat)))

/-! ## Shifts and rotates -/

/-- R140, R141: `VSHL` and `VSHR` for every signed count, negative ones and -2^63 among them: result bit `i` is the bit
`count` further right (left for `VSHR`), 0 where there is none. On the number, a shift by at least 0 is the product
with `2^c` modulo `2^size`, or the quotient by `2^c`. -/
def Obligations.VshlVshrMoveTheBits : Prop :=
  ∀ (d a : VReg) (b : XReg) (s : State) (c : Int), (s.getX b).toInt = c →
    decode (cmdWord 0x40 d a b 0) = .ok (.vshl d a b) ∧ decode (cmdWord 0x41 d a b 0) = .ok (.vshr d a b) ∧
    (s.getV a = none → exec (.vshl d a b) s = .next (raised s 6) ∧ exec (.vshr d a b) s = .next (raised s 6)) ∧
    ∀ v, s.getV a = some v →
      (Makes (.vshl d a b) s d fun r =>
        HasBits r v.size (fun i => decide (0 ≤ i + c ∧ i + c < v.size) && v.bit (i + c).toNat) ∧
        (0 ≤ c → r.val = v.val * 2 ^ c.toNat % 2 ^ v.size)) ∧
      (Makes (.vshr d a b) s d fun r =>
        HasBits r v.size (fun i => decide (0 ≤ i - c ∧ i - c < v.size) && v.bit (i - c).toNat) ∧
        (0 ≤ c → r.val = v.val / 2 ^ c.toNat))

/-- R142, R143: `VROL` and `VROR` for every signed count: the count is taken modulo the size with the non-negative
remainder, a size-0 vector gives a size-0 vector, and the result is the source's OR of a shift and the shift the other
way of the wrapped-around bits. -/
def Obligations.VrolVrorTurnTheBits : Prop :=
  ∀ (d a : VReg) (b : XReg) (s : State) (c : Int), (s.getX b).toInt = c →
    decode (cmdWord 0x42 d a b 0) = .ok (.vrol d a b) ∧ decode (cmdWord 0x43 d a b 0) = .ok (.vror d a b) ∧
    (s.getV a = none → exec (.vrol d a b) s = .next (raised s 6) ∧ exec (.vror d a b) s = .next (raised s 6)) ∧
    ∀ v, s.getV a = some v →
      (Makes (.vrol d a b) s d fun r =>
        HasBits r v.size (fun i => v.bit ((i + c) % v.size).toNat) ∧
        orVec (lshift v (c % v.size)) (rshift v (v.size - c % v.size)) = .ok r) ∧
      (Makes (.vror d a b) s d fun r =>
        HasBits r v.size (fun i => v.bit ((i - c) % v.size).toNat) ∧
        orVec (rshift v (c % v.size)) (lshift v (v.size - c % v.size)) = .ok r)

/-- R144: the symmetry laws of shifts and rotates, for every vector and every integer count. -/
def Obligations.ShiftAndRotateSymmetry : Prop :=
  ∀ (v : Vec) (c : Int),
    lshift v c = rshift v (-c) ∧ rshift v c = lshift v (-c) ∧
    (v.size ≤ c → lshift v c = mkvec v.size fun _ => false) ∧
    lrotate v c = rrotate v (-c) ∧
    (0 < v.size → lrotate v c = rrotate v (v.size - c))

/-! ## Addition and leading zeros -/

/-- R150: `VADD`: the sum of the numbers modulo `2^size`, which is bit by bit the carry chain's; scratch bits 0, and no
other trace of the carry. -/
def Obligations.VaddAddsModuloTheSize : Prop :=
  ∀ (d a b : VReg) (s : State),
    decode (cmdWord 0x50 d a b 0) = .ok (.vadd d a b) ∧
    (s.getV a = none ∨ s.getV b = none → exec (.vadd d a b) s = .next (raised s 6)) ∧
    ∀ p q, s.getV a = some p → s.getV b = some q →
      (p.size ≠ q.size → exec (.vadd d a b) s = .next (raised s 4)) ∧
      (p.size = q.size → Makes (.vadd d a b) s d fun r =>
        HasBits r p.size (fun i =>
          decide (((p.bit i).toNat + (q.bit i).toNat + carryIn p q (p.size - 1 - i)) % 2 = 1)) ∧
        r.val = (p.val + q.val) % 2 ^ p.size)

/-- R152, R153: in the partial last byte the sum is the bit-wise carry chain's, and on the full bytes, exactly
`size div 8` of them, it is the byte-wise carry chain's from the last to the first, the carry out of the partial byte
entering it. -/
def Obligations.VaddIsTheCarryChain : Prop :=
  ∀ (p q : Vec), p.size = q.size → ∃ r, addMod p q = .ok r ∧
    r = vecOf p.size (p.val + q.val) ∧
    (∀ k < p.size % 8, (r.bit (p.size - 1 - k)).toNat =
      ((p.bit (p.size - 1 - k)).toNat + (q.bit (p.size - 1 - k)).toNat + carryIn p q k) % 2) ∧
    (∀ j < p.size / 8, (r.byte (p.size / 8 - 1 - j)).toNat =
      ((p.byte (p.size / 8 - 1 - j)).toNat + (q.byte (p.size / 8 - 1 - j)).toNat + byteCarryIn p q j) % 256)

/-- R151: `VCLZ`: the number of 0 bits before the first 1, or the size. -/
def Obligations.VclzCountsLeadingZeros : Prop :=
  ∀ (d : XReg) (a : VReg) (s : State),
    decode (cmdWord 0x51 d a 0 0) = .ok (.vclz d a) ∧
    (s.getV a = none → exec (.vclz d a) s = .next (raised s 6)) ∧
    ∀ v, s.getV a = some v → ∃ n ≤ v.size,
      exec (.vclz d a) s = .next (wroteX s d n) ∧ (∀ i < n, v.bit i = false) ∧ (n < v.size → v.bit n = true)

/-! ## Text conversions -/

/-- R160: `VTOBIN`, and that it is the inverse of `VBITS`: "for any string `s` over {'0','1'},
`to_bin_string(init_from_bit_string(s)) == s`". -/
def Obligations.VtobinWritesTheBits : Prop :=
  ∀ (d a : VReg) (s : State),
    decode (cmdWord 0x60 d a 0 0) = .ok (.vtobin d a) ∧
    (s.getV a = none → exec (.vtobin d a) s = .next (raised s 6)) ∧
    ∀ v, s.getV a = some v →
      (Config.VLEN_MAX < 8 * v.size → exec (.vtobin d a) s = .next (raised s 1)) ∧
      (8 * v.size ≤ Config.VLEN_MAX → Makes (.vtobin d a) s d fun r =>
        HasBytes r (8 * v.size) (fun i => if v.bit i then 0x31 else 0x30) ∧
        ∀ str : Vec, str.wf = true → initFromBitString str = .ok v → r = str)

/-- R161: `VTOHEX`: two lowercase digits for every allocated byte, the high nibble first. -/
def Obligations.VtohexDumpsTheBytes : Prop :=
  ∀ (d a : VReg) (s : State),
    decode (cmdWord 0x61 d a 0 0) = .ok (.vtohex d a) ∧
    (s.getV a = none → exec (.vtohex d a) s = .next (raised s 6)) ∧
    ∀ v, s.getV a = some v →
      (Config.VLEN_MAX < 16 * ((v.size + 7) / 8) → exec (.vtohex d a) s = .next (raised s 1)) ∧
      (16 * ((v.size + 7) / 8) ≤ Config.VLEN_MAX → Makes (.vtohex d a) s d fun r =>
        r.size = 16 * ((v.size + 7) / 8) ∧ r.bytes.length = 2 * ((v.size + 7) / 8) ∧
        ∀ k < (v.size + 7) / 8,
          r.byte (2 * k) = hexChars.getD ((v.byte k).toNat / 16) 0 ∧
          r.byte (2 * k + 1) = hexChars.getD ((v.byte k).toNat % 16) 0)

/-- R162: `VTODEC`: three zero-padded digits for every allocated byte. -/
def Obligations.VtodecDumpsTheBytes : Prop :=
  ∀ (d a : VReg) (s : State),
    decode (cmdWord 0x62 d a 0 0) = .ok (.vtodec d a) ∧
    (s.getV a = none → exec (.vtodec d a) s = .next (raised s 6)) ∧
    ∀ v, s.getV a = some v →
      (Config.VLEN_MAX < 24 * ((v.size + 7) / 8) → exec (.vtodec d a) s = .next (raised s 1)) ∧
      (24 * ((v.size + 7) / 8) ≤ Config.VLEN_MAX → Makes (.vtodec d a) s d fun r =>
        r.size = 24 * ((v.size + 7) / 8) ∧ r.bytes.length = 3 * ((v.size + 7) / 8) ∧
        ∀ k < (v.size + 7) / 8,
          (r.byte (3 * k)).toNat = 0x30 + (v.byte k).toNat / 100 ∧
          (r.byte (3 * k + 1)).toNat = 0x30 + (v.byte k).toNat / 10 % 10 ∧
          (r.byte (3 * k + 2)).toNat = 0x30 + (v.byte k).toNat % 10)

/-- R101, R160: parsing the text of a vector gives back its logical bits, scratch bits 0. -/
def Obligations.TextParsesBack : Prop :=
  ∀ v : Vec, 8 * v.size ≤ Config.VLEN_MAX →
    ∃ str r, toBinString v = .ok str ∧ initFromBitString str = .ok r ∧ HasBits r v.size v.bit

/-! ## The SHA-256 unit -/

/-- R210, R223: `VPAD`: the message bits, a 1 bit, 0 bits, and the length as a 64-bit big-endian number, to the least
multiple of 512 bits that holds them. -/
def Obligations.VpadPadsTheMessage : Prop :=
  ∀ (d a : VReg) (s : State),
    decode (cmdWord 0x70 d a 0 0) = .ok (.vpad d a) ∧
    (s.getV a = none → exec (.vpad d a) s = .next (raised s 6)) ∧
    ∀ m, s.getV a = some m → ∀ size, size = 512 * ((m.size + 64) / 512 + 1) →
      (m.size % 8 ≠ 0 ∨ Config.VLEN_MAX < size → exec (.vpad d a) s = .next (raised s 1)) ∧
      (m.size % 8 = 0 → size ≤ Config.VLEN_MAX → Makes (.vpad d a) s d fun r =>
        HasBits r size fun i =>
          if i < m.size then m.bit i
          else if i < size - 64 then decide (i = m.size)
          else m.size.testBit (size - 1 - i))

/-- R222, R210 to R221: `VHASH`: the state machine computes the digest of the algorithm, written to the destination as
the 256-bit concatenation of the eight Words, and is `IDLE` again. Of the unit's other fields nothing is said: that they
are a free value, and that `draws` counts it, is the model's choice (log entry 3). -/
def Obligations.VhashComputesTheDigest : Prop :=
  ∀ (d a : VReg) (s : State),
    decode (cmdWord 0x71 d a 0 0) = .ok (.vhash d a) ∧
    (s.getV a = none → exec (.vhash d a) s = .next (raised s 6)) ∧
    ∀ m, s.getV a = some m →
      (m.size % 8 ≠ 0 → exec (.vhash d a) s = .next (raised s 1)) ∧
      (m.size % 8 = 0 → ∃ r t, exec (.vhash d a) s = .next t ∧
        t = { wroteV s d r with sha := t.sha, draws := s.draws + 1 } ∧ t.sha.phase = .idle ∧
        HasBits r 256 fun i => ((sha256 m).getD (i / 32) 0).getMsbD (i % 32))

/-- R216: the unit's steps depend only on the number of blocks. From the state the start step leaves, it is `IDLE` for
the first time after exactly `NBLK * (1 + 49 + 64 + 1 + 1) + 1` steps. -/
def Obligations.ShaStepCount : Prop :=
  ∀ (u : ShaUnit) (m : Vec) (d : Fin 16), ∀ n, n = (m.size + 64) / 512 + 1 →
    (shaStart u m d).nblk = n ∧
    (∀ k < n * (1 + 49 + 64 + 1 + 1) + 1, (shaStep^[k] (shaStart u m d)).phase ≠ .idle) ∧
    (shaStep^[n * (1 + 49 + 64 + 1 + 1) + 1] (shaStart u m d)).phase = .idle

/-- R224: the hash is a pure function of the message bytes: two `VHASH` commands on equal byte sequences, in any two
states, give equal digests. -/
def Obligations.HashDependsOnTheBytesOnly : Prop :=
  ∀ (d a d' a' : VReg) (s s' : State) (m m' : Vec),
    s.getV a = some m → s'.getV a' = some m' → m.size % 8 = 0 → m'.size = m.size →
    (∀ k < m.size / 8, m.byte k = m'.byte k) →
    ∃ r t t', exec (.vhash d a) s = .next t ∧ exec (.vhash d' a') s' = .next t' ∧
      t.getV d = some r ∧ t'.getV d' = some r

/-- R200, R203 to R209: the unit's operations on Words are the engine's own operations on size-32 vectors, and none of
them raises an error. -/
def Obligations.WordOperationsAreTheEngines : Prop :=
  ∀ x y z : Word,
    (∀ n : Nat, rrotate (vecOfWord x) n = vecOfWord (rotrWord x n) ∧ rshift (vecOfWord x) n = vecOfWord (shrWord x n)) ∧
    xorVec (vecOfWord x) (vecOfWord y) = .ok (vecOfWord (x ^^^ y)) ∧
    addMod (vecOfWord x) (vecOfWord y) = .ok (vecOfWord (x + y)) ∧
    chooseVec (vecOfWord x) (vecOfWord y) (vecOfWord z) = .ok (vecOfWord (chooseWord x y z)) ∧
    majorityVec (vecOfWord x) (vecOfWord y) (vecOfWord z) = .ok (vecOfWord (majorityWord x y z)) ∧
    (do
      let p ← xorVec (rrotate (vecOfWord x) 7) (rrotate (vecOfWord x) 18)
      xorVec p (rshift (vecOfWord x) 3)) = .ok (vecOfWord (lowerSigma0 x)) ∧
    (do
      let p ← xorVec (rrotate (vecOfWord x) 17) (rrotate (vecOfWord x) 19)
      xorVec p (rshift (vecOfWord x) 10)) = .ok (vecOfWord (lowerSigma1 x)) ∧
    (do
      let p ← xorVec (rrotate (vecOfWord x) 2) (rrotate (vecOfWord x) 13)
      xorVec p (rrotate (vecOfWord x) 22)) = .ok (vecOfWord (upperSigma0 x)) ∧
    (do
      let p ← xorVec (rrotate (vecOfWord x) 6) (rrotate (vecOfWord x) 11)
      xorVec p (rrotate (vecOfWord x) 25)) = .ok (vecOfWord (upperSigma1 x))

/-! ## The host's transactions -/

/-- R172, R173, R174: a host write of `CMD`. With no error recorded and room in the queue the word is appended, and
`BUSY` is 1; with a full queue the write is held and the engine takes its step, which frees a slot and leaves the write
to be made; while `ERR` = 1 the word is dropped. -/
def Obligations.CmdWriteAppendsHoldsOrDrops : Prop :=
  ∀ (s : State) (w : Word),
    (s.err = true → HostWrites s 0x00 w s) ∧
    (s.err = false → s.queue.length < Config.CQ_DEPTH →
      HostWrites s 0x00 w { s with queue := s.queue ++ [w] } ∧
      State.busy { s with queue := s.queue ++ [w] } = true) ∧
    (s.err = false → Config.CQ_DEPTH ≤ s.queue.length →
      ∃ t, HostWrites s 0x00 w t ∧ engineStep { s with inputs := .write 32 0x00 w :: s.inputs } = .next t ∧
        t.inputs = .write 32 0x00 w :: s.inputs ∧ t.queue.length < s.queue.length)

/-- R40: a host read of `STATUS`: `BUSY` bit 0, `ERR` bit 1, `ERRCODE` bits 15:8, every other bit 0. -/
def Obligations.StatusReadShowsBusyErrAndCode : Prop :=
  ∀ s : State, ∃ val, HostReads s 0x04 val ∧
    (∀ k < 32, val.getLsbD k =
      if k = 0 then !s.queue.isEmpty
      else if k = 1 then s.err
      else if 8 ≤ k ∧ k < 16 then s.errCode.getLsbD (k - 8)
      else false) ∧
    (s.Inv → ¬ (val.getLsbD 0 = true ∧ val.getLsbD 1 = true) ∧ (val.extractLsb' 8 8).toNat ≤ 7)

/-- R39, R42, R43, R48: host reads of `ERRCMD` and `DONECNT`; `CMD`, `CTRL` and the reserved offsets read 0; writes to
the read-only registers and the reserved offsets are ignored. No read and no such write changes any state. -/
def Obligations.PlainReadsAndIgnoredWrites : Prop :=
  ∀ (s : State) (w : Word),
    HostReads s 0x0C s.errCmd ∧ HostReads s 0x10 s.doneCnt ∧ HostReads s 0x00 0 ∧ HostReads s 0x08 0 ∧
    (∀ off, 0x24 ≤ off → off ≤ 0x3C → off % 4 = 0 → HostReads s off 0 ∧ HostWrites s off w s) ∧
    (∀ off ∈ [0x04, 0x0C, 0x10, 0x18, 0x1C, 0x20], HostWrites s off w s)

/-- R44: a host write of `RSEL` sets its fields and nothing else, and a read returns them as last written, reserved bits
0. -/
def Obligations.RselReadsAsWritten : Prop :=
  ∀ (s : State) (w : Word), ∃ t, HostWrites s 0x14 w t ∧ t = { s with rsel := t.rsel } ∧
    t.rsel.reg = w.extractLsb' 0 4 ∧ t.rsel.space = w.getLsbD 4 ∧ t.rsel.boff = w.extractLsb' 16 16 ∧
    HostReads t 0x14 (w &&& 0xFFFF001F)

/-- R45, R46, R47, R62: host reads of `RDLO`, `RDHI` and `RVINFO` while `BUSY` = 0. With `SPACE` = 0 the selected
scalar's two halves; with `SPACE` = 1 four storage bytes, the lowest index in bits 31:24, 0 past the storage and for
`Empty`, and the register's presence and size. -/
def Obligations.ReadDataShowsTheSelectedRegister : Prop :=
  ∀ s : State, s.queue = [] →
    (s.rsel.space = false →
      HostReads s 0x18 ((s.getX (regOf s.rsel.reg)).setWidth 32) ∧
      HostReads s 0x1C ((s.getX (regOf s.rsel.reg) >>> 32).setWidth 32) ∧ HostReads s 0x20 0) ∧
    (s.rsel.space = true →
      (∃ val, HostReads s 0x18 val ∧ ∀ n < 4, val.extractLsb' (24 - 8 * n) 8 =
        match s.getV (regOf s.rsel.reg) with
        | none   => 0
        | some v => if s.rsel.boff.toNat + n < (v.size + 7) / 8 then v.byte (s.rsel.boff.toNat + n) else 0) ∧
      HostReads s 0x1C 0 ∧
      (s.getV (regOf s.rsel.reg) = none → HostReads s 0x20 0) ∧
      ∀ v, s.getV (regOf s.rsel.reg) = some v → v.size ≤ Config.VLEN_MAX →
        HostReads s 0x20 (BitVec.ofNat 32 (2 ^ 31 + v.size)))

/-- R175, R65: while `BUSY` = 1 a host read of `RDLO`, `RDHI` or `RVINFO` returns a value nothing is known of (a
free value, log entry 4), and still changes no state of the engine. -/
def Obligations.BusyReadIsUnspecified : Prop :=
  ∀ (s : State) (off : Nat), s.queue ≠ [] → off = 0x18 ∨ off = 0x1C ∨ off = 0x20 →
    step { s with inputs := .read 32 off :: s.inputs } =
      .next { s with reads := Config.freeRead s.draws :: s.reads, draws := s.draws + 1 }

/-- R41, R176, R177, R186: a host write of `CTRL` with bits 1:0 = 01 clears the error state and changes nothing else,
after which `CMD` writes are accepted again; with bits 1:0 = 00 it changes nothing; bits 31:2 are ignored. -/
def Obligations.CtrlWriteClearsTheError : Prop :=
  ∀ (s : State) (w : Word), w.getLsbD 1 = false →
    (w.getLsbD 0 = true → HostWrites s 0x08 w { s with err := false, errCode := 0, errCmd := 0 }) ∧
    (w.getLsbD 0 = true → s.Inv → s.err = false → HostWrites s 0x08 w s) ∧
    (w.getLsbD 0 = false → HostWrites s 0x08 w s)

/-- R63: a host access that is not 32 bits wide, or not at a multiple of 4, has no meaning and is refused. -/
def Obligations.UnsupportedAccessIsRefused : Prop :=
  ∀ (s : State) (width off : Nat) (data : Word), width ≠ 32 ∨ off % 4 ≠ 0 →
    step { s with inputs := .read width off :: s.inputs } = .refused .unsupportedAccess ∧
    step { s with inputs := .write width off data :: s.inputs } = .refused .unsupportedAccess

/-- R66, R45, of the host's reads: every host read but one of `RDLO` with `SPACE` = 1 while `BUSY` = 0 returns the same
value from two states that differ only in scratch bits, and leaves states that differ only in scratch bits. (That one
shows the storage bytes as they are: ReadDataShowsTheSelectedRegister. While `BUSY` = 1 it is a free value, log
entry 4.) -/
def Obligations.HostReadsButVectorRdloIgnoreScratchBits : Prop :=
  ∀ (s s' t : State) (width off : Nat),
    SameButScratch s s' → ¬ (off = 0x18 ∧ s.rsel.space = true ∧ s.queue = []) →
    step { s with inputs := .read width off :: s.inputs } = .next t →
    ∃ t', step { s' with inputs := .read width off :: s'.inputs } = .next t' ∧ SameButScratch t t' ∧ t'.reads = t.reads
end

