-- ==== Sys2Proof/Laws/Decode.lean ====
section
/-! SUPPORT. The laws of the fields and of the opcode map, from which the decoder's laws follow. -/

namespace Sys2Proof

/-- The fields read from a word are the fields it was made of: no bit of R81 is dropped or shared. -/
@[simp] theorem ofWord_toWord (f : Fields) : Fields.ofWord f.toWord = f := by
  obtain ⟨op, d, a, b, c, z⟩ := f
  simp only [Fields.ofWord, Fields.toWord, Fields.mk.injEq]
  refine ⟨?_, ?_, ?_, ?_, ?_, ?_⟩ <;> apply BitVec.eq_of_getLsbD_eq <;> intro i hi <;>
    simp only [BitVec.getLsbD_extractLsb', BitVec.getLsbD_append] <;> interval_cases i <;> simp

/-- A word is made of its fields. -/
@[simp] theorem toWord_ofWord (w : Word) : (Fields.ofWord w).toWord = w := by
  apply BitVec.eq_of_getLsbD_eq
  intro i hi
  simp only [Fields.ofWord, Fields.toWord, BitVec.getLsbD_extractLsb', BitVec.getLsbD_append]
  interval_cases i <;> simp

@[simp] theorem regOf_fieldOf (r : Fin 16) : regOf (fieldOf r) = r := rfl

@[simp] theorem fieldOf_regOf (x : BitVec 4) : fieldOf (regOf x) = x := rfl

/-- The three parts of a format-I immediate are put together again. -/
@[simp] theorem imm_parts (imm : BitVec 16) :
    (imm.extractLsb' 12 4 ++ imm.extractLsb' 8 4 ++ imm.extractLsb' 0 8 : BitVec 16) = imm := by
  apply BitVec.eq_of_getLsbD_eq
  intro i hi
  simp only [BitVec.getLsbD_extractLsb', BitVec.getLsbD_append]
  interval_cases i <;> simp

/-- Each opcode of R85 names its own command: no two rows share one. -/
@[simp] theorem ofCode_code (o : Op) : Op.ofCode o.row.code = some o := by
  cases o <;> decide

/-- The opcode of the command an opcode names is that opcode. -/
theorem code_of_ofCode {code : BitVec 8} {o : Op} (h : Op.ofCode code = some o) : o.row.code = code := by
  have := List.find?_some h
  simpa using this

/-- The command built from fields is an instance of the command it was built for. -/
@[simp] theorem op_build (o : Op) (f : Fields) : (o.build f).op = o := by
  cases o <;> rfl

/-- What the decoder makes of a word, by its fields. -/
theorem decode_toWord (f : Fields) :
    decode f.toWord =
      match Op.ofCode f.op with
      | none => .error .undefinedOpcode
      | some o => if o.row.legal f then .ok (o.build f) else .error .mustBeZero := by
  rw [decode, ofWord_toWord]
  all_goals rfl

/-- Everything an accepted word can be: its opcode names a row, its must-be-zero fields are 0, and the instruction is
that row's command on its fields. -/
theorem decode_ok {w : Word} {i : Instr} (h : decode w = .ok i) :
    ∃ o, Op.ofCode (Fields.ofWord w).op = some o ∧ o.row.legal (Fields.ofWord w) = true ∧
      i = o.build (Fields.ofWord w) := by
  simp only [decode] at h
  split at h
  · cases h
  · next o ho =>
    split at h
    · next hl =>
      cases h
      exact ⟨o, ho, hl, rfl⟩
    · cases h

end Sys2Proof
end

