-- ==== Sys2Proof/Laws/State.lean ====
section
/-! SUPPORT. For each update of the state, what every field holds after it: true by `rfl`, so that no later proof unfolds
a record update. -/

namespace Sys2Proof.Machine

@[simp] theorem State.setV_v (s : State) (r : VReg) (o : Option Vec) : (s.setV r o).v = s.v.set r o := rfl
@[simp] theorem State.setV_x (s : State) (r : VReg) (o : Option Vec) : (s.setV r o).x = s.x := rfl
@[simp] theorem State.setV_queue (s : State) (r : VReg) (o : Option Vec) : (s.setV r o).queue = s.queue := rfl
@[simp] theorem State.setV_err (s : State) (r : VReg) (o : Option Vec) : (s.setV r o).err = s.err := rfl
@[simp] theorem State.setV_errCode (s : State) (r : VReg) (o : Option Vec) : (s.setV r o).errCode = s.errCode := rfl
@[simp] theorem State.setV_errCmd (s : State) (r : VReg) (o : Option Vec) : (s.setV r o).errCmd = s.errCmd := rfl
@[simp] theorem State.setV_doneCnt (s : State) (r : VReg) (o : Option Vec) : (s.setV r o).doneCnt = s.doneCnt := rfl
@[simp] theorem State.setV_rsel (s : State) (r : VReg) (o : Option Vec) : (s.setV r o).rsel = s.rsel := rfl
@[simp] theorem State.setV_sha (s : State) (r : VReg) (o : Option Vec) : (s.setV r o).sha = s.sha := rfl
@[simp] theorem State.setV_inputs (s : State) (r : VReg) (o : Option Vec) : (s.setV r o).inputs = s.inputs := rfl
@[simp] theorem State.setV_reads (s : State) (r : VReg) (o : Option Vec) : (s.setV r o).reads = s.reads := rfl
@[simp] theorem State.setV_draws (s : State) (r : VReg) (o : Option Vec) : (s.setV r o).draws = s.draws := rfl

@[simp] theorem State.setX_v (s : State) (r : XReg) (y : Scalar) : (s.setX r y).v = s.v := rfl
@[simp] theorem State.setX_x (s : State) (r : XReg) (y : Scalar) : (s.setX r y).x = s.x.set r y := rfl
@[simp] theorem State.setX_queue (s : State) (r : XReg) (y : Scalar) : (s.setX r y).queue = s.queue := rfl
@[simp] theorem State.setX_err (s : State) (r : XReg) (y : Scalar) : (s.setX r y).err = s.err := rfl
@[simp] theorem State.setX_errCode (s : State) (r : XReg) (y : Scalar) : (s.setX r y).errCode = s.errCode := rfl
@[simp] theorem State.setX_errCmd (s : State) (r : XReg) (y : Scalar) : (s.setX r y).errCmd = s.errCmd := rfl
@[simp] theorem State.setX_doneCnt (s : State) (r : XReg) (y : Scalar) : (s.setX r y).doneCnt = s.doneCnt := rfl
@[simp] theorem State.setX_rsel (s : State) (r : XReg) (y : Scalar) : (s.setX r y).rsel = s.rsel := rfl
@[simp] theorem State.setX_sha (s : State) (r : XReg) (y : Scalar) : (s.setX r y).sha = s.sha := rfl
@[simp] theorem State.setX_inputs (s : State) (r : XReg) (y : Scalar) : (s.setX r y).inputs = s.inputs := rfl
@[simp] theorem State.setX_reads (s : State) (r : XReg) (y : Scalar) : (s.setX r y).reads = s.reads := rfl
@[simp] theorem State.setX_draws (s : State) (r : XReg) (y : Scalar) : (s.setX r y).draws = s.draws := rfl

@[simp] theorem State.complete_v (s : State) : (s.complete).v = s.v := rfl
@[simp] theorem State.complete_x (s : State) : (s.complete).x = s.x := rfl
@[simp] theorem State.complete_queue (s : State) : (s.complete).queue = s.queue.tail := rfl
@[simp] theorem State.complete_err (s : State) : (s.complete).err = s.err := rfl
@[simp] theorem State.complete_errCode (s : State) : (s.complete).errCode = s.errCode := rfl
@[simp] theorem State.complete_errCmd (s : State) : (s.complete).errCmd = s.errCmd := rfl
@[simp] theorem State.complete_doneCnt (s : State) : (s.complete).doneCnt = s.doneCnt + 1 := rfl
@[simp] theorem State.complete_rsel (s : State) : (s.complete).rsel = s.rsel := rfl
@[simp] theorem State.complete_sha (s : State) : (s.complete).sha = s.sha := rfl
@[simp] theorem State.complete_inputs (s : State) : (s.complete).inputs = s.inputs := rfl
@[simp] theorem State.complete_reads (s : State) : (s.complete).reads = s.reads := rfl
@[simp] theorem State.complete_draws (s : State) : (s.complete).draws = s.draws := rfl

@[simp] theorem State.raise_v (s : State) (e : Err) : (s.raise e).v = s.v := rfl
@[simp] theorem State.raise_x (s : State) (e : Err) : (s.raise e).x = s.x := rfl
@[simp] theorem State.raise_queue (s : State) (e : Err) : (s.raise e).queue = [] := rfl
@[simp] theorem State.raise_err (s : State) (e : Err) : (s.raise e).err = true := rfl
@[simp] theorem State.raise_errCode (s : State) (e : Err) : (s.raise e).errCode = errNumber e := rfl
@[simp] theorem State.raise_errCmd (s : State) (e : Err) : (s.raise e).errCmd = s.current := rfl
@[simp] theorem State.raise_doneCnt (s : State) (e : Err) : (s.raise e).doneCnt = s.doneCnt := rfl
@[simp] theorem State.raise_rsel (s : State) (e : Err) : (s.raise e).rsel = s.rsel := rfl
@[simp] theorem State.raise_sha (s : State) (e : Err) : (s.raise e).sha = s.sha := rfl
@[simp] theorem State.raise_inputs (s : State) (e : Err) : (s.raise e).inputs = s.inputs := rfl
@[simp] theorem State.raise_reads (s : State) (e : Err) : (s.raise e).reads = s.reads := rfl
@[simp] theorem State.raise_draws (s : State) (e : Err) : (s.raise e).draws = s.draws := rfl

@[simp] theorem State.clearError_v (s : State) : (s.clearError).v = s.v := rfl
@[simp] theorem State.clearError_x (s : State) : (s.clearError).x = s.x := rfl
@[simp] theorem State.clearError_queue (s : State) : (s.clearError).queue = s.queue := rfl
@[simp] theorem State.clearError_err (s : State) : (s.clearError).err = false := rfl
@[simp] theorem State.clearError_errCode (s : State) : (s.clearError).errCode = 0 := rfl
@[simp] theorem State.clearError_errCmd (s : State) : (s.clearError).errCmd = 0 := rfl
@[simp] theorem State.clearError_doneCnt (s : State) : (s.clearError).doneCnt = s.doneCnt := rfl
@[simp] theorem State.clearError_rsel (s : State) : (s.clearError).rsel = s.rsel := rfl
@[simp] theorem State.clearError_sha (s : State) : (s.clearError).sha = s.sha := rfl
@[simp] theorem State.clearError_inputs (s : State) : (s.clearError).inputs = s.inputs := rfl
@[simp] theorem State.clearError_reads (s : State) : (s.clearError).reads = s.reads := rfl
@[simp] theorem State.clearError_draws (s : State) : (s.clearError).draws = s.draws := rfl

@[simp] theorem State.enqueue_v (s : State) (w : Word) : (s.enqueue w).v = s.v := rfl
@[simp] theorem State.enqueue_x (s : State) (w : Word) : (s.enqueue w).x = s.x := rfl
@[simp] theorem State.enqueue_queue (s : State) (w : Word) : (s.enqueue w).queue = s.queue ++ [w] := rfl
@[simp] theorem State.enqueue_err (s : State) (w : Word) : (s.enqueue w).err = s.err := rfl
@[simp] theorem State.enqueue_errCode (s : State) (w : Word) : (s.enqueue w).errCode = s.errCode := rfl
@[simp] theorem State.enqueue_errCmd (s : State) (w : Word) : (s.enqueue w).errCmd = s.errCmd := rfl
@[simp] theorem State.enqueue_doneCnt (s : State) (w : Word) : (s.enqueue w).doneCnt = s.doneCnt := rfl
@[simp] theorem State.enqueue_rsel (s : State) (w : Word) : (s.enqueue w).rsel = s.rsel := rfl
@[simp] theorem State.enqueue_sha (s : State) (w : Word) : (s.enqueue w).sha = s.sha := rfl
@[simp] theorem State.enqueue_inputs (s : State) (w : Word) : (s.enqueue w).inputs = s.inputs := rfl
@[simp] theorem State.enqueue_reads (s : State) (w : Word) : (s.enqueue w).reads = s.reads := rfl
@[simp] theorem State.enqueue_draws (s : State) (w : Word) : (s.enqueue w).draws = s.draws := rfl

@[simp] theorem State.forgetSha_v (s : State) : (s.forgetSha).v = s.v := rfl
@[simp] theorem State.forgetSha_x (s : State) : (s.forgetSha).x = s.x := rfl
@[simp] theorem State.forgetSha_queue (s : State) : (s.forgetSha).queue = s.queue := rfl
@[simp] theorem State.forgetSha_err (s : State) : (s.forgetSha).err = s.err := rfl
@[simp] theorem State.forgetSha_errCode (s : State) : (s.forgetSha).errCode = s.errCode := rfl
@[simp] theorem State.forgetSha_errCmd (s : State) : (s.forgetSha).errCmd = s.errCmd := rfl
@[simp] theorem State.forgetSha_doneCnt (s : State) : (s.forgetSha).doneCnt = s.doneCnt := rfl
@[simp] theorem State.forgetSha_rsel (s : State) : (s.forgetSha).rsel = s.rsel := rfl
@[simp] theorem State.forgetSha_sha (s : State) : (s.forgetSha).sha = { Config.freeSha s.draws with phase := .idle } := rfl
@[simp] theorem State.forgetSha_inputs (s : State) : (s.forgetSha).inputs = s.inputs := rfl
@[simp] theorem State.forgetSha_reads (s : State) : (s.forgetSha).reads = s.reads := rfl
@[simp] theorem State.forgetSha_draws (s : State) : (s.forgetSha).draws = s.draws + 1 := rfl

@[simp] theorem State.engineReset_v (s : State) : (s.engineReset).v = Vector.replicate 16 none := rfl
@[simp] theorem State.engineReset_x (s : State) : (s.engineReset).x = Vector.replicate 16 0 := rfl
@[simp] theorem State.engineReset_queue (s : State) : (s.engineReset).queue = [] := rfl
@[simp] theorem State.engineReset_err (s : State) : (s.engineReset).err = false := rfl
@[simp] theorem State.engineReset_errCode (s : State) : (s.engineReset).errCode = 0 := rfl
@[simp] theorem State.engineReset_errCmd (s : State) : (s.engineReset).errCmd = 0 := rfl
@[simp] theorem State.engineReset_doneCnt (s : State) : (s.engineReset).doneCnt = 0 := rfl
@[simp] theorem State.engineReset_rsel (s : State) : (s.engineReset).rsel = ⟨0, false, 0⟩ := rfl
@[simp] theorem State.engineReset_sha (s : State) : (s.engineReset).sha = { Config.freeSha s.draws with phase := .idle } := rfl
@[simp] theorem State.engineReset_inputs (s : State) : (s.engineReset).inputs = s.inputs := rfl
@[simp] theorem State.engineReset_reads (s : State) : (s.engineReset).reads = s.reads := rfl
@[simp] theorem State.engineReset_draws (s : State) : (s.engineReset).draws = s.draws + 1 := rfl

@[simp] theorem State.getV_setV_self (s : State) (r : VReg) (o : Option Vec) : (s.setV r o).getV r = o := by
  simp [State.getV, State.setV]

theorem State.getV_setV_ne (s : State) (r r' : VReg) (o : Option Vec) (h : r' ≠ r) :
    (s.setV r o).getV r' = s.getV r' := by
  have : r.val ≠ r'.val := fun e => h (Fin.ext e.symm)
  simp [State.getV, State.setV, this]

@[simp] theorem State.getX_setX_self (s : State) (r : XReg) (y : Scalar) : (s.setX r y).getX r = y := by
  simp [State.getX, State.setX]

theorem State.getX_setX_ne (s : State) (r r' : XReg) (y : Scalar) (h : r' ≠ r) :
    (s.setX r y).getX r' = s.getX r' := by
  have : r.val ≠ r'.val := fun e => h (Fin.ext e.symm)
  simp [State.getX, State.setX, this]

@[simp] theorem State.getV_complete (s : State) (r : VReg) : s.complete.getV r = s.getV r := rfl

@[simp] theorem State.getV_setX (s : State) (r : VReg) (k : XReg) (y : Scalar) : (s.setX k y).getV r = s.getV r := rfl

@[simp] theorem State.getV_raise (s : State) (r : VReg) (e : Err) : (s.raise e).getV r = s.getV r := rfl

@[simp] theorem State.getV_forgetSha (s : State) (r : VReg) : s.forgetSha.getV r = s.getV r := rfl

@[simp] theorem State.getX_complete (s : State) (r : XReg) : s.complete.getX r = s.getX r := rfl

@[simp] theorem State.getX_setV (s : State) (r : XReg) (k : VReg) (o : Option Vec) : (s.setV k o).getX r = s.getX r :=
  rfl

@[simp] theorem State.getX_raise (s : State) (r : XReg) (e : Err) : (s.raise e).getX r = s.getX r := rfl

end Sys2Proof.Machine
end

