-- ==== Sys2Proof/Laws/Vec.lean ====
section
/-! SUPPORT. The laws of the vector primitives: what a made vector holds, bit by bit and byte by byte, that it has the
canonical form, and what its number is. Later proofs cite these and unfold no primitive. -/

namespace Sys2Proof.Machine

/-! ## Storage bytes -/

theorem nbytes_mul8 (n : Nat) : nbytes (8 * n) = n := by unfold nbytes; omega

theorem byteIndex_lt {n i : Nat} (h : i < n) : i / 8 < nbytes n := by unfold nbytes; omega

theorem byteIndex_lt_of_lt_storage {n i : Nat} (h : i < 8 * nbytes n) : i / 8 < nbytes n := by omega

theorem size_le_storage (n : Nat) : n ≤ 8 * nbytes n := by unfold nbytes; omega

@[simp] theorem ofBytes_size (n : Nat) (g : Nat → Byte) : (ofBytes n g).size = n := rfl

@[simp] theorem ofBytes_length (n : Nat) (g : Nat → Byte) : (ofBytes n g).bytes.length = nbytes n := by
  simp [ofBytes]

theorem ofBytes_byte {n k : Nat} (g : Nat → Byte) (h : k < nbytes n) : (ofBytes n g).byte k = g k := by
  simp [ofBytes, Vec.byte, List.getD, h]

theorem ofBytes_wf {n : Nat} (g : Nat → Byte) (h : n ≤ Config.VLEN_MAX) : (ofBytes n g).wf = true := by
  simp [Vec.wf, h]

theorem Vec.wf_iff (v : Vec) : v.wf = true ↔ v.bytes.length = nbytes v.size ∧ v.size ≤ Config.VLEN_MAX := by
  simp [Vec.wf]

/-- A vector with the canonical storage is given by its size and its bytes. -/
theorem eq_ofBytes {v : Vec} (g : Nat → Byte) (hl : v.bytes.length = nbytes v.size)
    (hb : ∀ k < nbytes v.size, v.byte k = g k) : v = ofBytes v.size g := by
  obtain ⟨n, bs⟩ := v
  simp only [ofBytes, Vec.mk.injEq, true_and]
  apply List.ext_getElem
  · simpa using hl
  · intro k h1 h2
    have hk : k < nbytes n := by simpa [hl] using h1
    have := hb k hk
    simpa [Vec.byte, List.getD, h1] using this

theorem ofBytes_congr {n : Nat} {g g' : Nat → Byte} (h : ∀ k < nbytes n, g k = g' k) : ofBytes n g = ofBytes n g' := by
  have := eq_ofBytes (v := ofBytes n g) g' (by simp) (fun k hk => by
    rw [ofBytes_byte g (by simpa using hk)]; exact h k (by simpa using hk))
  simpa using this

/-! ## Logical bits -/

theorem packByte_getLsbD (g : Nat → Bool) {j : Nat} (h : j < 8) : (packByte g).getLsbD (7 - j) = g j := by
  unfold packByte
  generalize e0 : g 0 = b0
  generalize e1 : g 1 = b1
  generalize e2 : g 2 = b2
  generalize e3 : g 3 = b3
  generalize e4 : g 4 = b4
  generalize e5 : g 5 = b5
  generalize e6 : g 6 = b6
  generalize e7 : g 7 = b7
  have : j = 0 ∨ j = 1 ∨ j = 2 ∨ j = 3 ∨ j = 4 ∨ j = 5 ∨ j = 6 ∨ j = 7 := by omega
  rcases this with rfl | rfl | rfl | rfl | rfl | rfl | rfl | rfl <;>
    simp only [e0, e1, e2, e3, e4, e5, e6, e7] <;>
    clear e0 e1 e2 e3 e4 e5 e6 e7 <;> revert b0 b1 b2 b3 b4 b5 b6 b7 <;> decide

theorem ofBytes_bit {n i : Nat} (g : Nat → Byte) (h : i < 8 * nbytes n) :
    (ofBytes n g).bit i = (g (i / 8)).getLsbD (7 - i % 8) := by
  rw [Vec.bit, ofBytes_byte g (byteIndex_lt_of_lt_storage h)]

@[simp] theorem mkvec_size (n : Nat) (f : Nat → Bool) : (mkvec n f).size = n := rfl

@[simp] theorem mkvec_length (n : Nat) (f : Nat → Bool) : (mkvec n f).bytes.length = nbytes n := by simp [mkvec]

theorem mkvec_wf {n : Nat} (f : Nat → Bool) (h : n ≤ Config.VLEN_MAX) : (mkvec n f).wf = true := ofBytes_wf _ h

/-- Every storage bit of `mkvec`: the logical bits are `f`, the scratch bits 0. -/
theorem mkvec_storage_bit {n i : Nat} (f : Nat → Bool) (h : i < 8 * nbytes n) :
    (mkvec n f).bit i = (decide (i < n) && f i) := by
  have e : 8 * (i / 8) + i % 8 = i := Nat.div_add_mod i 8
  rw [mkvec, ofBytes_bit _ h, packByte_getLsbD _ (Nat.mod_lt i (by decide))]
  simp only [e]

theorem mkvec_bit {n i : Nat} (f : Nat → Bool) (h : i < n) : (mkvec n f).bit i = f i := by
  rw [mkvec_storage_bit f (Nat.lt_of_lt_of_le h (size_le_storage n))]
  simp [h]

theorem mkvec_scratch {n i : Nat} (f : Nat → Bool) (h : n ≤ i) (h' : i < 8 * nbytes n) :
    (mkvec n f).bit i = false := by
  rw [mkvec_storage_bit f h']
  simp [Nat.not_lt.mpr h]

theorem mkvec_clean (n : Nat) (f : Nat → Bool) : (mkvec n f).clean = true := by
  simp only [Vec.clean, List.all_eq_true, List.mem_range, mkvec_size, Bool.or_eq_true, Bool.not_eq_true']
  intro i h
  rcases Nat.lt_or_ge i n with h' | h'
  · exact .inl (decide_eq_true h')
  · exact .inr (mkvec_scratch f h' h)

theorem mkvec_congr {n : Nat} {f f' : Nat → Bool} (h : ∀ i < n, f i = f' i) : mkvec n f = mkvec n f' := by
  apply ofBytes_congr
  intro k _
  congr 1
  funext j
  by_cases hj : 8 * k + j < n
  · simp [hj, h _ hj]
  · simp [hj]

/-- Two bytes are equal when their eight bits are. -/
theorem byte_ext {x y : Byte} (h : ∀ j < 8, x.getLsbD (7 - j) = y.getLsbD (7 - j)) : x = y := by
  apply BitVec.eq_of_getLsbD_eq
  intro i hi
  have := h (7 - i) (by omega)
  rwa [show 7 - (7 - i) = i by omega] at this

/-- A vector with the canonical storage and clean scratch bits is given by its logical bits. -/
theorem eq_mkvec {v : Vec} (f : Nat → Bool) (hl : v.bytes.length = nbytes v.size)
    (hb : ∀ i < v.size, v.bit i = f i) (hs : ∀ i, v.size ≤ i → i < 8 * nbytes v.size → v.bit i = false) :
    v = mkvec v.size f := by
  apply eq_ofBytes _ hl
  intro k hk
  apply byte_ext
  intro j hj
  rw [packByte_getLsbD _ hj]
  have e1 : (8 * k + j) / 8 = k := by omega
  have e2 : (8 * k + j) % 8 = j := by omega
  have hbit : v.bit (8 * k + j) = (v.byte k).getLsbD (7 - j) := by rw [Vec.bit, e1, e2]
  rw [← hbit]
  by_cases h : 8 * k + j < v.size
  · simp [h, hb _ h]
  · rw [hs (8 * k + j) (by omega) (by omega)]
    simp [h]

/-! ## Writes in place -/

@[simp] theorem memWrite_size (v : Vec) (k : Nat) (bs : List Byte) : (v.memWrite k bs).size = v.size := rfl

@[simp] theorem memWrite_length (v : Vec) (k : Nat) (bs : List Byte) :
    (v.memWrite k bs).bytes.length = nbytes v.size := by simp [Vec.memWrite]

theorem memWrite_byte {v : Vec} {j : Nat} (k : Nat) (bs : List Byte) (h : j < nbytes v.size) :
    (v.memWrite k bs).byte j = if k ≤ j ∧ j < k + bs.length then bs.getD (j - k) 0 else v.byte j :=
  ofBytes_byte _ h

theorem memWrite_wf {v : Vec} (k : Nat) (bs : List Byte) (h : v.wf = true) : (v.memWrite k bs).wf = true :=
  ofBytes_wf _ ((Vec.wf_iff v).mp h).2

theorem putBit_getLsbD (b : Byte) (x : Bool) {p j : Nat} (hp : p < 8) (hj : j < 8) :
    (putBit b p x).getLsbD j = if j = p then x else b.getLsbD j := by
  have hp' : p = 0 ∨ p = 1 ∨ p = 2 ∨ p = 3 ∨ p = 4 ∨ p = 5 ∨ p = 6 ∨ p = 7 := by omega
  have hj' : j = 0 ∨ j = 1 ∨ j = 2 ∨ j = 3 ∨ j = 4 ∨ j = 5 ∨ j = 6 ∨ j = 7 := by omega
  rcases hp' with rfl | rfl | rfl | rfl | rfl | rfl | rfl | rfl <;>
    rcases hj' with rfl | rfl | rfl | rfl | rfl | rfl | rfl | rfl <;> cases x <;> simp [putBit]

@[simp] theorem putBit_size (v : Vec) (i : Nat) (x : Bool) : (v.putBit i x).size = v.size := rfl

@[simp] theorem putBit_length (v : Vec) (i : Nat) (x : Bool) : (v.putBit i x).bytes.length = nbytes v.size := by
  simp [Vec.putBit]

/-- Every storage bit after `putBit`: bit `i` is `x`, every other, scratch bits among them, as before. -/
theorem putBit_bit {v : Vec} {i j : Nat} (x : Bool) (hj : j < 8 * nbytes v.size) :
    (v.putBit i x).bit j = if j = i then x else v.bit j := by
  rw [Vec.bit, Vec.putBit, memWrite_byte _ _ (byteIndex_lt_of_lt_storage hj)]
  by_cases h : j / 8 = i / 8
  · rw [if_pos (by simp [h])]
    simp only [h, Nat.sub_self, List.getD_cons_zero]
    rw [putBit_getLsbD _ _ (by omega) (by omega)]
    by_cases hji : j = i
    · simp [hji]
    · rw [if_neg (by omega), if_neg hji, Vec.bit, h]
  · rw [if_neg (by simp; omega), if_neg (by rintro rfl; exact h rfl), Vec.bit]

/-! ## Numbers -/

theorem valUpto_lt (v : Vec) (n : Nat) : v.valUpto n < 2 ^ n := by
  induction n with
  | zero => simp [Vec.valUpto]
  | succ n ih =>
    have := Bool.toNat_le (v.bit n)
    simp only [Vec.valUpto, Nat.pow_succ]
    omega

/-- Eight bits more are one storage byte more. -/
theorem valUpto_byte (v : Vec) (k : Nat) : v.valUpto (8 * (k + 1)) = 256 * v.valUpto (8 * k) + (v.byte k).toNat := by
  have h : ∀ j < 8, v.bit (8 * k + j) = (v.byte k).getLsbD (7 - j) := by
    intro j hj
    rw [Vec.bit, show (8 * k + j) / 8 = k by omega, show (8 * k + j) % 8 = j by omega]
  have e : ∀ b : Byte, b.toNat = 128 * (b.getLsbD 7).toNat + 64 * (b.getLsbD 6).toNat + 32 * (b.getLsbD 5).toNat
      + 16 * (b.getLsbD 4).toNat + 8 * (b.getLsbD 3).toNat + 4 * (b.getLsbD 2).toNat + 2 * (b.getLsbD 1).toNat
      + (b.getLsbD 0).toNat := by decide
  have h0 := h 0 (by omega)
  rw [Nat.add_zero] at h0
  rw [show 8 * (k + 1) = 8 * k + 7 + 1 by ring]
  simp only [Vec.valUpto]
  rw [h0, h 1 (by omega), h 2 (by omega), h 3 (by omega), h 4 (by omega), h 5 (by omega), h 6 (by omega),
    h 7 (by omega), e (v.byte k)]
  simp only [Nat.sub_zero]
  ring

theorem val_lt (v : Vec) : v.val < 2 ^ v.size := valUpto_lt v v.size

/-- The bits of the number are the vector's bits, the last the least significant. -/
theorem testBit_valUpto (v : Vec) {n i : Nat} (h : i < n) : (v.valUpto n).testBit i = v.bit (n - 1 - i) := by
  induction n generalizing i with
  | zero => omega
  | succ n ih =>
    cases i with
    | zero => cases hb : v.bit n <;> simp [Vec.valUpto, hb, Nat.testBit_zero]
    | succ i =>
      rw [Nat.testBit_succ, Vec.valUpto]
      have : (2 * v.valUpto n + (v.bit n).toNat) / 2 = v.valUpto n := by
        have := Bool.toNat_le (v.bit n); omega
      rw [this, ih (by omega)]
      congr 1
      omega

theorem testBit_val (v : Vec) {i : Nat} (h : i < v.size) : v.val.testBit i = v.bit (v.size - 1 - i) :=
  testBit_valUpto v h

theorem bit_eq_testBit_val (v : Vec) {i : Nat} (h : i < v.size) : v.bit i = v.val.testBit (v.size - 1 - i) := by
  rw [testBit_val v (by omega)]
  congr 1
  omega

/-- A vector's number is the one whose bits are its bits. -/
theorem val_eq_of_bits {v : Vec} {x : Nat} (h : ∀ i < v.size, v.bit i = x.testBit (v.size - 1 - i)) :
    v.val = x % 2 ^ v.size := by
  apply Nat.eq_of_testBit_eq
  intro i
  rw [Nat.testBit_mod_two_pow]
  by_cases hi : i < v.size
  · rw [testBit_val v hi, h _ (by omega)]
    simp [hi, show v.size - 1 - (v.size - 1 - i) = i by omega]
  · rw [Nat.testBit_lt_two_pow (Nat.lt_of_lt_of_le (val_lt v) (Nat.pow_le_pow_right (by decide) (by omega)))]
    simp [hi]

@[simp] theorem vecOf_size (n x : Nat) : (vecOf n x).size = n := rfl

theorem vecOf_bit {n x i : Nat} (h : i < n) : (vecOf n x).bit i = x.testBit (n - 1 - i) := mkvec_bit _ h

theorem vecOf_val (n x : Nat) : (vecOf n x).val = x % 2 ^ n :=
  val_eq_of_bits (v := vecOf n x) fun _ h => vecOf_bit h

/-- A size-`n` vector with clean scratch bits is `vec` of its number. -/
theorem mkvec_eq_vecOf {n x : Nat} {f : Nat → Bool} (h : ∀ i < n, f i = x.testBit (n - 1 - i)) :
    mkvec n f = vecOf n x := mkvec_congr h

end Sys2Proof.Machine
end

