-- ==== Sys2Proof/Laws/Ops.lean ====
section
/-! SUPPORT. One spec lemma for each shared operation of a meaning: reading a vector operand, the two ways a command
ends, and that the canonical form of the vector storage is kept. -/

namespace Sys2Proof.Machine

/-! ## Operands -/

theorem vec_of_some {s : State} {r : VReg} {v : Vec} (h : s.getV r = some v) : s.vec r = .ok v := by
  simp [State.vec, h]

theorem vec_of_none {s : State} {r : VReg} (h : s.getV r = none) : s.vec r = .error .noVector := by
  simp [State.vec, h]

theorem vec_ok_iff {s : State} {r : VReg} {v : Vec} : s.vec r = .ok v ↔ s.getV r = some v := by
  unfold State.vec
  cases s.getV r <;> simp

theorem vec_error {s : State} {r : VReg} {e : Err} (h : s.vec r = .error e) : s.getV r = none ∧ e = .noVector := by
  unfold State.vec at h
  cases hv : s.getV r <;> simp_all

/-! ## The end of a command -/

@[simp] theorem finishV_ok (s : State) (d : VReg) (v : Vec) :
    finishV s d (.ok v) = .next (s.setV d (some v)).complete := rfl

@[simp] theorem finishV_error (s : State) (d : VReg) (e : Err) : finishV s d (.error e) = .next (s.raise e) := rfl

@[simp] theorem finishX_ok (s : State) (d : XReg) (n : Nat) :
    finishX s d (.ok n) = .next (s.setX d (BitVec.ofNat 64 n)).complete := rfl

@[simp] theorem finishX_error (s : State) (d : XReg) (e : Err) : finishX s d (.error e) = .next (s.raise e) := rfl

/-- A command that writes a vector register always takes a next state: it completes with its result, or raises. -/
theorem finishV_next (s : State) (d : VReg) (r : Except Err Vec) :
    (∃ v, r = .ok v ∧ finishV s d r = .next (s.setV d (some v)).complete) ∨
    (∃ e, r = .error e ∧ finishV s d r = .next (s.raise e)) := by
  cases r with
  | ok v => exact .inl ⟨v, rfl, rfl⟩
  | error e => exact .inr ⟨e, rfl, rfl⟩

/-- A command that writes a scalar register always takes a next state: it completes with its result, or raises. -/
theorem finishX_next (s : State) (d : XReg) (r : Except Err Nat) :
    (∃ n, r = .ok n ∧ finishX s d r = .next (s.setX d (BitVec.ofNat 64 n)).complete) ∨
    (∃ e, r = .error e ∧ finishX s d r = .next (s.raise e)) := by
  cases r with
  | ok n => exact .inl ⟨n, rfl, rfl⟩
  | error e => exact .inr ⟨e, rfl, rfl⟩

/-! ## The canonical form of the vector storage -/

theorem Memory.wf_iff (m : Vector (Option Vec) 16) :
    Memory.wf m = true ↔ ∀ (r : VReg) (v : Vec), m[r] = some v → v.wf = true := by
  simp only [Memory.wf, List.all_eq_true]
  constructor
  · intro h r v hv
    have hm : m[r] ∈ m.toList := by simp [Vector.mem_toList_iff]
    have := h _ hm
    rw [hv] at this
    exact this
  · intro h o ho
    rw [Vector.mem_toList_iff] at ho
    obtain ⟨i, hi, rfl⟩ := Vector.getElem_of_mem ho
    have := h ⟨i, hi⟩
    cases hv : m[i] with
    | none => rfl
    | some v => exact this v hv

theorem Memory.wf_set {m : Vector (Option Vec) 16} {o : Option Vec} (r : VReg) (hm : Memory.wf m = true)
    (ho : ∀ v, o = some v → v.wf = true) : Memory.wf (m.set r o) = true := by
  rw [Memory.wf_iff] at hm ⊢
  intro k v hv
  by_cases h : k = r
  · subst h
    exact ho v (by simpa using hv)
  · have : r.val ≠ k.val := fun e => h (Fin.ext e.symm)
    exact hm k v (by simpa [Vector.getElem_set, this] using hv)

theorem Memory.wf_reset : Memory.wf State.reset.v = true := by decide

/-- Every operation that makes or changes a vector makes one with the canonical storage: its size fits in a register,
given that its operands' sizes do. -/
theorem initZeros_wf {n : Int} {v : Vec} (h : initZeros n = .ok v) : v.wf = true := by
  unfold initZeros at h
  split at h
  · next hs =>
    cases h
    simp only [sizeOk, Bool.and_eq_true, decide_eq_true_eq] at hs
    exact mkvec_wf _ (by omega)
  · cases h

theorem initFromBitString_wf {s v : Vec} (hs : s.wf = true) (h : initFromBitString s = .ok v) : v.wf = true := by
  have := ((Vec.wf_iff s).mp hs).2
  unfold initFromBitString at h
  split at h
  · cases h
  · split at h
    · cases h
      exact mkvec_wf _ (by omega)
    · cases h

theorem initFromUnsigned_wf {x : Nat} {m : Int} {v : Vec} (h : initFromUnsigned x m = .ok v) : v.wf = true := by
  unfold initFromUnsigned at h
  split at h
  · next hs =>
    cases h
    simp only [sizeOk, Bool.and_eq_true, decide_eq_true_eq] at hs
    exact ofBytes_wf _ (by omega)
  · cases h

theorem copyVec_wf {v : Vec} (h : v.wf = true) : (copyVec v).wf = true := ofBytes_wf _ ((Vec.wf_iff v).mp h).2

theorem notVec_wf {v : Vec} (h : v.wf = true) : (notVec v).wf = true := ofBytes_wf _ ((Vec.wf_iff v).mp h).2

theorem setBit_wf {v r : Vec} {i x : Int} (hv : v.wf = true) (h : setBit v i x = .ok r) : r.wf = true := by
  unfold setBit at h
  split at h
  · cases h
  · split at h
    · cases h
    · cases h
      exact memWrite_wf _ _ hv

theorem setByte_wf {v r : Vec} {k x : Int} (hv : v.wf = true) (h : setByte v k x = .ok r) : r.wf = true := by
  unfold setByte at h
  split at h
  · cases h
  · split at h
    · cases h
    · cases h
      exact memWrite_wf _ _ hv

theorem setBytesFromUnsigned_wf {v r : Vec} {x : Nat} {s n : Int} (hv : v.wf = true)
    (h : setBytesFromUnsigned v x s n = .ok r) : r.wf = true := by
  unfold setBytesFromUnsigned at h
  split at h
  · cases h
  · split at h
    · cases h
    · cases h
      exact memWrite_wf _ _ hv

theorem slice_wf {v r : Vec} {s e : Int} (hv : v.wf = true) (h : slice v s e = .ok r) : r.wf = true := by
  have := ((Vec.wf_iff v).mp hv).2
  unfold slice at h
  split at h
  · cases h
  · cases h
    exact mkvec_wf _ (by omega)

theorem bitwise2_wf {f : Bool → Bool → Bool} {p q r : Vec} (hp : p.wf = true) (h : bitwise2 f p q = .ok r) :
    r.wf = true := by
  unfold bitwise2 at h
  split at h
  · cases h
  · cases h
    exact mkvec_wf _ ((Vec.wf_iff p).mp hp).2

theorem bitwise3_wf {f : Bool → Bool → Bool → Bool} {p q u r : Vec} (hp : p.wf = true)
    (h : bitwise3 f p q u = .ok r) : r.wf = true := by
  unfold bitwise3 at h
  split at h
  · cases h
  · cases h
    exact mkvec_wf _ ((Vec.wf_iff p).mp hp).2

theorem lshift_wf {v : Vec} (c : Int) (h : v.wf = true) : (lshift v c).wf = true := by
  unfold lshift
  split <;> exact mkvec_wf _ ((Vec.wf_iff v).mp h).2

theorem rshift_wf {v : Vec} (c : Int) (h : v.wf = true) : (rshift v c).wf = true := by
  unfold rshift
  split <;> exact mkvec_wf _ ((Vec.wf_iff v).mp h).2

theorem lrotate_wf {v : Vec} (c : Int) (h : v.wf = true) : (lrotate v c).wf = true := by
  unfold lrotate
  split <;> exact mkvec_wf _ ((Vec.wf_iff v).mp h).2

theorem rrotate_wf {v : Vec} (c : Int) (h : v.wf = true) : (rrotate v c).wf = true := by
  unfold rrotate
  split <;> exact mkvec_wf _ ((Vec.wf_iff v).mp h).2

theorem addMod_wf {p q r : Vec} (hp : p.wf = true) (h : addMod p q = .ok r) : r.wf = true := by
  unfold addMod at h
  split at h
  · cases h
  · cases h
    exact mkvec_wf _ ((Vec.wf_iff p).mp hp).2

theorem textVec_wf {n : Nat} {g : Nat → Byte} {r : Vec} (h : textVec n g = .ok r) : r.wf = true := by
  unfold textVec at h
  split at h
  · cases h
  · cases h
    exact ofBytes_wf _ (by omega)

theorem digest_wf (u : ShaUnit) : u.digest.wf = true := mkvec_wf _ (by decide)

end Sys2Proof.Machine
end

