-- ==== Sys2Proof/Laws/Engine.lean ====
section
/-! SUPPORT. One lemma for each way `step` goes: the engine's own step, and the moves of the outside world. -/

namespace Sys2Proof.Machine

/-- With nothing from the outside world, a step is the engine's step (R170). -/
theorem step_engine {s : State} (h : s.inputs = []) : step s = engineStep s := by
  simp [step, agentStep, h]

theorem engineStep_error {s : State} (h : s.err = true) : engineStep s = .fault .stoppedInError := by
  simp [engineStep, h]

theorem engineStep_idle {s : State} (he : s.err = false) (hq : s.queue = []) : engineStep s = .fault .idle := by
  simp [engineStep, he, hq]

/-- The engine executes the command its decoder reads from the head of the queue. -/
theorem engineStep_decoded {s : State} {w : Word} {rest : List Word} {i : Instr} (he : s.err = false)
    (hq : s.queue = w :: rest) (hd : decode w = .ok i) : engineStep s = exec i s := by
  simp [engineStep, he, hq, hd]

theorem engineStep_illegal {s : State} {w : Word} {rest : List Word} {e : DecodeError} (he : s.err = false)
    (hq : s.queue = w :: rest) (hd : decode w = .error e) : engineStep s = .next (s.raise .illegalCommand) := by
  simp [engineStep, he, hq, hd]

/-- Every next state of the engine: it executed the command at the head, or that word was illegal. -/
theorem engineStep_next {s t : State} (h : engineStep s = .next t) :
    s.err = false ∧ ∃ w rest, s.queue = w :: rest ∧
      ((∃ i, decode w = .ok i ∧ exec i s = .next t) ∨
       (∃ e, decode w = .error e ∧ t = s.raise .illegalCommand)) := by
  unfold engineStep at h
  split at h
  · cases h
  · next he =>
    refine ⟨by simpa using he, ?_⟩
    split at h
    · cases h
    · next w rest hq =>
      refine ⟨w, rest, hq, ?_⟩
      split at h
      · next e hd =>
        cases h
        exact .inr ⟨e, hd, rfl⟩
      · next i hd => exact .inl ⟨i, hd, h⟩

/-- Everything a step can be: the engine moves, with the outside world's `wait` taken from the list or with a list
that is empty or held; or a `wait` passes with no engine step; or the outside world's next move is performed. -/
theorem step_cases (s : State) :
    (s.inputs = [] ∧ step s = engineStep s) ∨
    (∃ rest, s.inputs = .wait :: rest ∧ State.ready { s with inputs := rest } = true ∧
      step s = engineStep { s with inputs := rest }) ∨
    (∃ rest, s.inputs = .wait :: rest ∧ State.ready { s with inputs := rest } = false ∧
      step s = .next { s with inputs := rest }) ∨
    (∃ ev rest, s.inputs = ev :: rest ∧ s.held ev = true ∧ step s = engineStep s) ∨
    (∃ ev rest, s.inputs = ev :: rest ∧ s.held ev = false ∧ step s = hostStep { s with inputs := rest } ev) := by
  cases hi : s.inputs with
  | nil => exact .inl ⟨rfl, step_engine hi⟩
  | cons ev rest =>
    cases ev with
    | wait =>
      cases hr : State.ready { s with inputs := rest } with
      | true => exact .inr (.inl ⟨rest, rfl, hr, by simp [step, agentStep, hi, hr]⟩)
      | false => exact .inr (.inr (.inl ⟨rest, rfl, hr, by simp [step, agentStep, hi, hr]⟩))
    | read width off => exact .inr (.inr (.inr (.inr ⟨_, rest, rfl, rfl, by simp [step, agentStep, hi, State.held]⟩)))
    | powerOn => exact .inr (.inr (.inr (.inr ⟨_, rest, rfl, rfl, by simp [step, agentStep, hi, State.held]⟩)))
    | write width off data =>
      cases hh : s.held (.write width off data) with
      | true => exact .inr (.inr (.inr (.inl ⟨_, rest, rfl, hh, by simp [step, agentStep, hi, hh]⟩)))
      | false => exact .inr (.inr (.inr (.inr ⟨_, rest, rfl, hh, by simp [step, agentStep, hi, hh]⟩)))

/-- The host's access to a register, when it is a supported one inside the block. -/
theorem hostStep_read (s : State) {off : Nat} (h4 : off % 4 = 0) (hb : off < Config.BLOCK_LEN) :
    hostStep s (.read 32 off) = .next (s.hostRead (hostRegAt off)) := by
  simp [hostStep, accessOk, h4, Nat.not_le.mpr hb]

theorem hostStep_write (s : State) {off : Nat} (w : Word) (h4 : off % 4 = 0) (hb : off < Config.BLOCK_LEN) :
    hostStep s (.write 32 off w) = .next (s.hostWrite (hostRegAt off) w) := by
  simp [hostStep, accessOk, h4, Nat.not_le.mpr hb]

theorem hostStep_unsupported (s : State) {width off : Nat} (data : Word) (h : accessOk width off = false) :
    hostStep s (.read width off) = .refused .unsupportedAccess ∧
    hostStep s (.write width off data) = .refused .unsupportedAccess := by
  simp [hostStep, h]

theorem hostStep_outside (s : State) {width off : Nat} (data : Word) (h : accessOk width off = true)
    (hb : Config.BLOCK_LEN ≤ off) :
    hostStep s (.read width off) = .refused .outsideBlock ∧
    hostStep s (.write width off data) = .refused .outsideBlock := by
  simp [hostStep, h, hb]

/-- Every next state of a move of the outside world. -/
theorem hostStep_next {s t : State} {ev : HostEvent} (h : hostStep s ev = .next t) :
    (ev = .powerOn ∧ t = s.engineReset) ∨ (ev = .wait ∧ t = s) ∨
    (∃ width off, ev = .read width off ∧ t = s.hostRead (hostRegAt off)) ∨
    (∃ width off data, ev = .write width off data ∧ t = s.hostWrite (hostRegAt off) data) := by
  cases ev with
  | powerOn => cases h; exact .inl ⟨rfl, rfl⟩
  | wait => cases h; exact .inr (.inl ⟨rfl, rfl⟩)
  | read width off =>
    simp only [hostStep] at h
    split at h
    · cases h
    · split at h
      · cases h
      · cases h; exact .inr (.inr (.inl ⟨width, off, rfl, rfl⟩))
  | write width off data =>
    simp only [hostStep] at h
    split at h
    · cases h
    · split at h
      · cases h
      · cases h; exact .inr (.inr (.inr ⟨width, off, data, rfl, rfl⟩))

/-- Loading a word as the next command makes the next step the engine's, on that word. -/
theorem loadWord_step (s : State) (w : Word) : step (s.loadWord w) = engineStep (s.loadWord w) :=
  step_engine rfl

end Sys2Proof.Machine
end

