-- ==== Sys2Proof/Laws/PerInstr.lean ====
section
/-! SUPPORT. The per-instruction family EncodeLegal: the fields an instruction is encoded with have the opcode of its
row of R85 and pass its must-be-zero checks (R81, R82, R86). -/

namespace Sys2Proof.Laws.EncodeLegal

/-- The fields of `i` carry its row's opcode and are legal for that row. -/
def Statement (i : Instr) : Prop := i.fields.op = i.op.row.code ∧ i.op.row.legal i.fields = true

theorem nop : Statement .nop := ⟨rfl, rfl⟩

theorem xli (d : Fin 16) (imm : BitVec 16) : Statement (.xli d imm) := ⟨rfl, rfl⟩

theorem xlis (d : Fin 16) (imm : BitVec 16) : Statement (.xlis d imm) := ⟨rfl, rfl⟩

theorem vzero (d a : Fin 16) : Statement (.vzero d a) := ⟨rfl, rfl⟩

theorem vbits (d a : Fin 16) : Statement (.vbits d a) := ⟨rfl, rfl⟩

theorem vuint (d a b : Fin 16) : Statement (.vuint d a b) := ⟨rfl, rfl⟩

theorem vcopy (d a : Fin 16) : Statement (.vcopy d a) := ⟨rfl, rfl⟩

theorem vfree (d : Fin 16) : Statement (.vfree d) := ⟨rfl, rfl⟩

theorem vsize (d a : Fin 16) : Statement (.vsize d a) := ⟨rfl, rfl⟩

theorem vgetb (d a b : Fin 16) : Statement (.vgetb d a b) := ⟨rfl, rfl⟩

theorem vsetb (d a b : Fin 16) : Statement (.vsetb d a b) := ⟨rfl, rfl⟩

theorem vsety (d a b : Fin 16) : Statement (.vsety d a b) := ⟨rfl, rfl⟩

theorem vsetu (d a b c : Fin 16) : Statement (.vsetu d a b c) := ⟨rfl, rfl⟩

theorem vslice (d a b c : Fin 16) : Statement (.vslice d a b c) := ⟨rfl, rfl⟩

theorem veq (d a b : Fin 16) : Statement (.veq d a b) := ⟨rfl, rfl⟩

theorem vnot (d a : Fin 16) : Statement (.vnot d a) := ⟨rfl, rfl⟩

theorem vor (d a b : Fin 16) : Statement (.vor d a b) := ⟨rfl, rfl⟩

theorem vand (d a b : Fin 16) : Statement (.vand d a b) := ⟨rfl, rfl⟩

theorem vxor (d a b : Fin 16) : Statement (.vxor d a b) := ⟨rfl, rfl⟩

theorem vchoose (d a b c : Fin 16) : Statement (.vchoose d a b c) := ⟨rfl, rfl⟩

theorem vmaj (d a b c : Fin 16) : Statement (.vmaj d a b c) := ⟨rfl, rfl⟩

theorem vshl (d a b : Fin 16) : Statement (.vshl d a b) := ⟨rfl, rfl⟩

theorem vshr (d a b : Fin 16) : Statement (.vshr d a b) := ⟨rfl, rfl⟩

theorem vrol (d a b : Fin 16) : Statement (.vrol d a b) := ⟨rfl, rfl⟩

theorem vror (d a b : Fin 16) : Statement (.vror d a b) := ⟨rfl, rfl⟩

theorem vadd (d a b : Fin 16) : Statement (.vadd d a b) := ⟨rfl, rfl⟩

theorem vclz (d a : Fin 16) : Statement (.vclz d a) := ⟨rfl, rfl⟩

theorem vtobin (d a : Fin 16) : Statement (.vtobin d a) := ⟨rfl, rfl⟩

theorem vtohex (d a : Fin 16) : Statement (.vtohex d a) := ⟨rfl, rfl⟩

theorem vtodec (d a : Fin 16) : Statement (.vtodec d a) := ⟨rfl, rfl⟩

theorem vpad (d a : Fin 16) : Statement (.vpad d a) := ⟨rfl, rfl⟩

theorem vhash (d a : Fin 16) : Statement (.vhash d a) := ⟨rfl, rfl⟩

end Sys2Proof.Laws.EncodeLegal
end

