-- ==== Sys2Proof/Laws/Sha256.lean ====
section
/-! SUPPORT. The laws of padding (R210) and one lemma for each way the SHA-256 unit steps (R216 to R221), so that no
later proof unfolds `pad` or `shaStep`. -/

namespace Sys2Proof.Machine

/-- The padded size is the least multiple of 512 that holds the message, a 1 bit and the 64-bit length. -/
theorem pad_size (m : Vec) : (pad m).size = 512 * ((m.size + 64) / 512 + 1) := by
  simp [pad]
  omega

/-- The padded message by its bits, with the number of zero bits worked out. -/
theorem pad_eq (m : Vec) : pad m = mkvec (512 * ((m.size + 64) / 512 + 1)) fun i =>
    if i < m.size then m.bit i
    else if i = m.size then true
    else if i < 512 * ((m.size + 64) / 512 + 1) - 64 then false
    else (vecOf 64 m.size).bit (i - (512 * ((m.size + 64) / 512 + 1) - 64)) := by
  have e : m.size + 1 + ((447 - (m.size : Int)) % 512).toNat + 64 = 512 * ((m.size + 64) / 512 + 1) := pad_size m
  have e' : m.size + 1 + ((447 - (m.size : Int)) % 512).toNat = 512 * ((m.size + 64) / 512 + 1) - 64 := by omega
  simp only [pad]
  rw [e, e']

/-- A Word of a block is the big-endian number of its four storage bytes. -/
theorem blockWord_eq_bytes (m : Vec) (j s : Nat) :
    blockWord m j s = m.byte (64 * j + 4 * s) ++ m.byte (64 * j + 4 * s + 1) ++ m.byte (64 * j + 4 * s + 2) ++
      m.byte (64 * j + 4 * s + 3) := by
  have bit : ∀ n < 4, ∀ q < 8, m.bit (512 * j + 32 * s + (8 * n + q)) = (m.byte (64 * j + 4 * s + n)).getLsbD (7 - q) := by
    intro n hn q hq
    rw [Vec.bit, show (512 * j + 32 * s + (8 * n + q)) / 8 = 64 * j + 4 * s + n by omega,
      show (512 * j + 32 * s + (8 * n + q)) % 8 = q by omega]
  apply BitVec.eq_of_getLsbD_eq
  intro i hi
  have left : (blockWord m j s).getLsbD i = m.bit (512 * j + 32 * s + (31 - i)) := by
    rw [blockWord, wordOf, BitVec.getLsbD_ofNat, testBit_val _ hi, mkvec_bit _ (by simp; omega)]
    simp [hi]
  rw [left, show 31 - i = 8 * ((31 - i) / 8) + (31 - i) % 8 by omega, bit _ (by omega) _ (by omega)]
  simp only [BitVec.getLsbD_append]
  interval_cases i <;> simp

theorem shaStart_nblk (u : ShaUnit) (m : Vec) (d : Fin 16) : (shaStart u m d).nblk = (m.size + 64) / 512 + 1 := by
  show (pad m).size / 512 = _
  rw [pad_size]
  omega

theorem shaStep_idle {u : ShaUnit} (h : u.phase = .idle) : shaStep u = u := by simp [shaStep, h]

theorem shaStep_load {u : ShaUnit} (h : u.phase = .load) : shaStep u = shaLoad u := by simp [shaStep, h]

/-- A `SCHED` step that makes the next schedule Word. -/
theorem shaStep_sched {u : ShaUnit} (h : u.phase = .sched) (ht : u.t < 64) :
    shaStep u = { u with
      w := u.w.setIfInBounds u.t
        (lowerSigma1 (u.wAt (u.t - 2)) + u.wAt (u.t - 7) + lowerSigma0 (u.wAt (u.t - 15)) + u.wAt (u.t - 16))
      t := u.t + 1 } := by
  simp [shaStep, h, shaSched, ht]

/-- The last `SCHED` step. -/
theorem shaStep_sched_end {u : ShaUnit} (h : u.phase = .sched) (ht : ¬ u.t < 64) :
    shaStep u = { u with
      a := u.hAt 0, b := u.hAt 1, c := u.hAt 2, d := u.hAt 3
      e := u.hAt 4, f := u.hAt 5, g := u.hAt 6, hh := u.hAt 7
      t := 0
      phase := .round } := by
  simp [shaStep, h, shaSched, ht]

/-- A `ROUND` step that does a round. -/
theorem shaStep_round {u : ShaUnit} (h : u.phase = .round) (ht : u.t < 64) :
    shaStep u = { u with
      hh := u.g, g := u.f, f := u.e, e := u.d + u.t1
      d := u.c, c := u.b, b := u.a, a := u.t1 + u.t2
      t := u.t + 1 } := by
  simp [shaStep, h, shaRound, ht]

/-- The last `ROUND` step. -/
theorem shaStep_round_end {u : ShaUnit} (h : u.phase = .round) (ht : ¬ u.t < 64) :
    shaStep u = { u with phase := .update } := by
  simp [shaStep, h, shaRound, ht]

theorem shaStep_update {u : ShaUnit} (h : u.phase = .update) : shaStep u = shaUpdate u := by simp [shaStep, h]

theorem shaStep_done {u : ShaUnit} (h : u.phase = .done) : shaStep u = { u with phase := .idle } := by
  simp [shaStep, h]

/-- A schedule Word after one is written. -/
theorem wAt_write (u : ShaUnit) {t : Nat} (x : Word) (i : Nat) (ht : t < 64) :
    ShaUnit.wAt { u with w := u.w.setIfInBounds t x } i = if i = t then x else u.wAt i := by
  simp only [ShaUnit.wAt, Vector.getElem?_setIfInBounds]
  by_cases h : t = i
  · subst h
    simp [ht]
  · simp [h, Ne.symm h]

/-- Running the unit for `n` steps is stepping it `n` times: a step leaves `IDLE` as it is. -/
theorem shaRun_eq_iterate (n : Nat) (u : ShaUnit) : shaRun n u = shaStep^[n] u := by
  induction n generalizing u with
  | zero => rfl
  | succ n ih =>
    rw [Function.iterate_succ_apply, shaRun]
    split
    · next h => rw [shaStep_idle h, Function.iterate_fixed (shaStep_idle h)]
    · exact ih _

end Sys2Proof.Machine
end

