-- ==== Sys2Proof/Tests/Slice0.lean ====
section
/-! SUPPORT. The model's own tests: the must-be-zero checks, each command's decoding from a word written out field by
field (R81, R82, R85), single steps on the vectors of spec/95_test_vectors.md, the assembler, the host's accesses, and
for each statement with hypotheses a state that meets them. Every expected value is the spec's. -/

namespace Sys2Proof.Tests

open Sys2Proof Sys2Proof.Machine Sys2Proof.Claims

/-! ## Well-formed fields (R81, R82, R86) -/

/-- The fields of `VADD v3, v1, v2`, a legal word. -/
theorem test_legal_fields : Op.vadd.row.legal ⟨0x50, 3, 1, 2, 0, 0⟩ = true := by decide

theorem test_illegal_d : Op.nop.row.legal ⟨0x01, 1, 0, 0, 0, 0⟩ = false := by decide

theorem test_illegal_a : Op.vfree.row.legal ⟨0x14, 9, 1, 0, 0, 0⟩ = false := by decide

theorem test_illegal_b : Op.vcopy.row.legal ⟨0x13, 1, 2, 3, 0, 0⟩ = false := by decide

theorem test_illegal_c : Op.vadd.row.legal ⟨0x50, 3, 1, 2, 15, 0⟩ = false := by decide

theorem test_illegal_z : Op.vadd.row.legal ⟨0x50, 3, 1, 2, 0, 1⟩ = false := by decide

theorem test_illegal_a_format_I : Op.xli.row.legal ⟨0x02, 1, 1, 0, 0, 5⟩ = false := by decide

/-- Format I has no `b`, `c` and `z` fields: they are the immediate. -/
theorem test_legal_format_I : Op.xli.row.legal ⟨0x02, 1, 0, 15, 15, 255⟩ = true := by decide

theorem test_undefined_opcodes :
    decode 0x00000000 = .error .undefinedOpcode ∧ decode 0x04000000 = .error .undefinedOpcode ∧
    decode 0xFF000000 = .error .undefinedOpcode := by decide

theorem test_must_be_zero_words :
    decode 0x50312001 = .error .mustBeZero ∧ decode 0x14910000 = .error .mustBeZero ∧
    decode 0x02110005 = .error .mustBeZero := by decide

/-! ## Decoding, one word for each command -/

theorem test_decode_nop : decode 0b00000001_0000_0000_0000_0000_00000000 = .ok .nop := by decide

theorem test_decode_xli : decode 0b00000010_0011_0000_1111111111111111 = .ok (.xli 3 0xFFFF) := by decide

theorem test_decode_xlis : decode 0b00000011_0100_0000_0101011001111000 = .ok (.xlis 4 0x5678) := by decide

theorem test_decode_vzero : decode 0b00010000_0101_0110_0000_0000_00000000 = .ok (.vzero 5 6) := by decide

theorem test_decode_vbits : decode 0b00010001_1111_0001_0000_0000_00000000 = .ok (.vbits 15 1) := by decide

theorem test_decode_vuint : decode 0b00010010_0001_0010_0011_0000_00000000 = .ok (.vuint 1 2 3) := by decide

theorem test_decode_vcopy : decode 0b00010011_0111_1000_0000_0000_00000000 = .ok (.vcopy 7 8) := by decide

theorem test_decode_vfree : decode 0b00010100_1001_0000_0000_0000_00000000 = .ok (.vfree 9) := by decide

theorem test_decode_vsize : decode 0b00010101_1010_1011_0000_0000_00000000 = .ok (.vsize 10 11) := by decide

theorem test_decode_vgetb : decode 0b00100000_0001_0010_0011_0000_00000000 = .ok (.vgetb 1 2 3) := by decide

theorem test_decode_vsetb : decode 0b00100001_0100_0101_0110_0000_00000000 = .ok (.vsetb 4 5 6) := by decide

theorem test_decode_vsety : decode 0b00100010_0111_1000_1001_0000_00000000 = .ok (.vsety 7 8 9) := by decide

theorem test_decode_vsetu : decode 0b00100011_0010_0001_0011_0100_00000000 = .ok (.vsetu 2 1 3 4) := by decide

theorem test_decode_vslice : decode 0b00100100_0001_0000_1110_1111_00000000 = .ok (.vslice 1 0 14 15) := by decide

theorem test_decode_veq : decode 0b00110000_0110_0000_0001_0000_00000000 = .ok (.veq 6 0 1) := by decide

theorem test_decode_vnot : decode 0b00110001_0101_1100_0000_0000_00000000 = .ok (.vnot 5 12) := by decide

theorem test_decode_vor : decode 0b00110010_0001_0010_0011_0000_00000000 = .ok (.vor 1 2 3) := by decide

theorem test_decode_vand : decode 0b00110011_0100_0101_0110_0000_00000000 = .ok (.vand 4 5 6) := by decide

theorem test_decode_vxor : decode 0b00110100_0111_1000_1001_0000_00000000 = .ok (.vxor 7 8 9) := by decide

theorem test_decode_vchoose : decode 0b00110101_0100_0101_0110_0111_00000000 = .ok (.vchoose 4 5 6 7) := by decide

theorem test_decode_vmaj : decode 0b00110110_1000_1001_1010_1011_00000000 = .ok (.vmaj 8 9 10 11) := by decide

theorem test_decode_vshl : decode 0b01000000_0001_0010_0011_0000_00000000 = .ok (.vshl 1 2 3) := by decide

theorem test_decode_vshr : decode 0b01000001_0100_0101_0110_0000_00000000 = .ok (.vshr 4 5 6) := by decide

theorem test_decode_vrol : decode 0b01000010_0111_1000_1001_0000_00000000 = .ok (.vrol 7 8 9) := by decide

theorem test_decode_vror : decode 0b01000011_1010_1011_1100_0000_00000000 = .ok (.vror 10 11 12) := by decide

theorem test_decode_vadd : decode 0b01010000_0011_0001_0010_0000_00000000 = .ok (.vadd 3 1 2) := by decide

theorem test_decode_vclz : decode 0b01010001_0100_0010_0000_0000_00000000 = .ok (.vclz 4 2) := by decide

theorem test_decode_vtobin : decode 0b01100000_0001_0010_0000_0000_00000000 = .ok (.vtobin 1 2) := by decide

theorem test_decode_vtohex : decode 0b01100001_0011_0010_0000_0000_00000000 = .ok (.vtohex 3 2) := by decide

theorem test_decode_vtodec : decode 0b01100010_0101_0110_0000_0000_00000000 = .ok (.vtodec 5 6) := by decide

theorem test_decode_vpad : decode 0b01110000_0111_1000_0000_0000_00000000 = .ok (.vpad 7 8) := by decide

theorem test_decode_vhash : decode 0b01110001_0010_0001_0000_0000_00000000 = .ok (.vhash 2 1) := by decide

theorem test_table_word : decodeTableWord 32 0x50312000 = some (.vadd 3 1 2) ∧ decodeTableWord 32 0 = none := by decide

/-! ## Single steps (spec/95_test_vectors.md, sections 1 and 2) -/

/-- The reset state with the given vectors and scalars. -/
def st (vs : List (VReg × Vec)) (xs : List (XReg × Int)) : State :=
  xs.foldl (fun s p => s.setX p.1 (BitVec.ofInt 64 p.2)) (vs.foldl (fun s p => s.setV p.1 (some p.2)) State.reset)

/-- The step on the word completes, and `V[d]` is the vector. -/
def givesV (s : State) (w : Word) (d : VReg) (r : Vec) : Bool :=
  match step (s.loadWord w) with
  | .next t    => t.getV d == some r && t.doneCnt == 1
  | .fault _   => false
  | .refused _ => false

/-- The step on the word completes, and `X[d]` is the integer. -/
def givesX (s : State) (w : Word) (d : XReg) (z : Int) : Bool :=
  match step (s.loadWord w) with
  | .next t    => t.getX d == BitVec.ofInt 64 z && t.doneCnt == 1
  | .fault _   => false
  | .refused _ => false

/-- The step on the word ends in the error state R180 says, every register as before. -/
def givesErr (s : State) (w : Word) (code : Nat) : Bool :=
  match step (s.loadWord w) with
  | .next t    => t == { s with err := true, errCode := BitVec.ofNat 8 code, errCmd := w }
  | .fault _   => false
  | .refused _ => false

theorem test_nop : givesX (st [] [(0, 7)]) 0x01000000 0 7 = true := by decide

theorem test_xli_sign_extends : givesX (st [] []) 0x02408000 4 (-32768) = true := by decide

theorem test_xlis : givesX (st [] [(4, 4660)]) 0x03405678 4 0x12345678 = true := by decide

theorem test_xlis_drops_high_bits : givesX (st [] [(4, -1)]) 0x03400000 4 (-65536) = true := by decide

theorem test_vzero_five_bits : givesV (st [] [(1, 5)]) 0x10010000 0 ⟨5, [0x00]⟩ = true := by decide

theorem test_vzero_negative : givesErr (st [] [(1, -1)]) 0x10010000 1 = true := by decide

theorem test_vbits : givesV (st [(1, ⟨24, [0x31, 0x30, 0x31]⟩)] []) 0x11010000 0 ⟨3, [0xA0]⟩ = true := by decide

theorem test_vbits_character : givesErr (st [(1, ⟨32, [0x31, 0x30, 0x32, 0x30]⟩)] []) 0x11010000 5 = true := by decide

theorem test_vuint : givesV (st [] [(1, 171), (2, 3)]) 0x12012000 0 ⟨24, [0x00, 0x00, 0xAB]⟩ = true := by decide

theorem test_vuint_truncates : givesV (st [] [(1, 4660), (2, 1)]) 0x12012000 0 ⟨8, [0x34]⟩ = true := by decide

theorem test_vcopy_keeps_scratch : givesV (st [(1, ⟨5, [0x29]⟩)] []) 0x13010000 0 ⟨5, [0x29]⟩ = true := by decide

theorem test_vcopy_empty : givesErr (st [] []) 0x13010000 6 = true := by decide

theorem test_vsize : givesX (st [(1, ⟨5, [0xB0]⟩)] []) 0x15010000 0 5 = true := by decide

theorem test_vgetb : givesX (st [(1, ⟨5, [0xB0]⟩)] [(2, 0)]) 0x20012000 0 1 = true := by decide

theorem test_vgetb_at_size : givesErr (st [(1, ⟨5, [0xB0]⟩)] [(2, 5)]) 0x20012000 2 = true := by decide

theorem test_vsetb_keeps_scratch : givesV (st [(0, ⟨5, [0x27]⟩)] [(1, 0), (2, 1)]) 0x21012000 0 ⟨5, [0xA7]⟩ = true := by
  decide

theorem test_vsetb_index_first : givesErr (st [(0, ⟨5, [0xB0]⟩)] [(1, 5), (2, 2)]) 0x21012000 2 = true := by decide

theorem test_vsety : givesV (st [(0, ⟨5, [0x20]⟩)] [(1, 0), (2, 41)]) 0x22012000 0 ⟨5, [0x29]⟩ = true := by decide

theorem test_vsety_value : givesErr (st [(0, ⟨8, [0x00]⟩)] [(1, 0), (2, 256)]) 0x22012000 3 = true := by decide

theorem test_vsetu :
    givesV (st [(2, ⟨32, [0x00, 0x00, 0x00, 0x00]⟩)] [(1, 4660), (3, 1), (4, 2)]) 0x23213400 2 ⟨32, [0x00, 0x12, 0x34, 0x00]⟩ = true := by
  decide

theorem test_vsetu_past_end :
    givesErr (st [(2, ⟨32, [0x00, 0x00, 0x00, 0x00]⟩)] [(1, 255), (3, 3), (4, 2)]) 0x23213400 2 = true := by
  decide

theorem test_vslice : givesV (st [(0, ⟨8, [0xB3]⟩)] [(1, 2), (2, 6)]) 0x24101200 1 ⟨4, [0xC0]⟩ = true := by decide

theorem test_veq_ignores_scratch : givesX (st [(0, ⟨5, [0x21]⟩), (1, ⟨5, [0x20]⟩)] []) 0x30601000 6 1 = true := by
  decide

theorem test_vnot_complements_scratch : givesV (st [(0, ⟨5, [0x21]⟩)] []) 0x31500000 5 ⟨5, [0xDE]⟩ = true := by decide

theorem test_vchoose :
    givesV (st [(1, ⟨9, [0xCC, 0x80]⟩), (2, ⟨9, [0x93, 0x00]⟩), (3, ⟨9, [0x23, 0x80]⟩)] []) 0x35012300 0 ⟨9, [0xA3, 0x00]⟩ = true := by
  decide

theorem test_vmaj :
    givesV (st [(1, ⟨9, [0xCC, 0x80]⟩), (2, ⟨9, [0x93, 0x00]⟩), (3, ⟨9, [0x23, 0x80]⟩)] []) 0x36012300 0 ⟨9, [0x83, 0x80]⟩ = true := by
  decide

theorem test_vshl : givesV (st [(1, ⟨8, [0xB3]⟩)] [(2, 2)]) 0x40012000 0 ⟨8, [0xCC]⟩ = true := by decide

theorem test_vshl_least_count :
    givesV (st [(1, ⟨8, [0xB3]⟩)] [(2, -9223372036854775808)]) 0x40012000 0 ⟨8, [0x00]⟩ = true := by
  decide

theorem test_vshr : givesV (st [(1, ⟨8, [0xB3]⟩)] [(2, 2)]) 0x41012000 0 ⟨8, [0x2C]⟩ = true := by decide

theorem test_vshr_negative : givesV (st [(1, ⟨8, [0xB3]⟩)] [(2, -2)]) 0x41012000 0 ⟨8, [0xCC]⟩ = true := by decide

theorem test_vrol : givesV (st [(1, ⟨8, [0xB3]⟩)] [(2, 11)]) 0x42012000 0 ⟨8, [0x9D]⟩ = true := by decide

theorem test_vrol_least_count :
    givesV (st [(1, ⟨8, [0xB3]⟩)] [(2, -9223372036854775808)]) 0x42012000 0 ⟨8, [0xB3]⟩ = true := by
  decide

theorem test_vror : givesV (st [(1, ⟨8, [0xB3]⟩)] [(2, 6)]) 0x43012000 0 ⟨8, [0xCE]⟩ = true := by decide

theorem test_vror_size_zero : givesV (st [(1, ⟨0, []⟩)] [(2, -5)]) 0x43012000 0 ⟨0, []⟩ = true := by decide

theorem test_vadd_carry_out_of_partial_byte :
    givesV (st [(1, ⟨12, [0x0F, 0x80]⟩), (2, ⟨12, [0x00, 0x80]⟩)] []) 0x50012000 0 ⟨12, [0x10, 0x00]⟩ = true := by
  decide

theorem test_vadd_ignores_scratch :
    givesV (st [(1, ⟨5, [0x27]⟩), (2, ⟨5, [0x0F]⟩)] []) 0x50012000 0 ⟨5, [0x28]⟩ = true := by
  decide

theorem test_vclz_scratch_set : givesX (st [(1, ⟨6, [0x01]⟩)] []) 0x51010000 0 6 = true := by decide

theorem test_vclz : givesX (st [(1, ⟨16, [0x00, 0x10]⟩)] []) 0x51010000 0 11 = true := by decide

theorem test_vtobin : givesV (st [(1, ⟨5, [0x27]⟩)] []) 0x60010000 0 ⟨40, [0x30, 0x30, 0x31, 0x30, 0x30]⟩ = true := by
  decide

theorem test_vtohex : givesV (st [(1, ⟨16, [0xAB, 0x0F]⟩)] []) 0x61010000 0 ⟨32, [0x61, 0x62, 0x30, 0x66]⟩ = true := by
  decide

theorem test_vtodec :
    givesV (st [(1, ⟨16, [0xFF, 0x00]⟩)] []) 0x62010000 0 ⟨48, [0x32, 0x35, 0x35, 0x30, 0x30, 0x30]⟩ = true := by
  decide

theorem test_vpad_seven_bits : givesErr (st [(1, ⟨7, [0x60]⟩)] []) 0x70010000 1 = true := by decide

theorem test_vhash_seven_bits : givesErr (st [(1, ⟨7, [0x60]⟩)] []) 0x71010000 1 = true := by decide

theorem test_no_vector_before_size_mismatch : givesErr (st [(1, ⟨1, [0x80]⟩)] []) 0x50012000 6 = true := by decide

theorem test_illegal_opcode : givesErr (st [] []) 0xFF000000 7 = true := by decide

theorem test_vor :
    givesV (st [(1, ⟨10, [0xCC, 0xC0]⟩), (2, ⟨10, [0xAA, 0x80]⟩)] []) 0x32012000 0 ⟨10, [0xEE, 0xC0]⟩ = true := by
  decide

theorem test_vor_sizes : givesErr (st [(1, ⟨3, [0xA0]⟩), (2, ⟨4, [0xA0]⟩)] []) 0x32012000 4 = true := by decide

theorem test_vand :
    givesV (st [(1, ⟨10, [0xCC, 0xC0]⟩), (2, ⟨10, [0xAA, 0x80]⟩)] []) 0x33012000 0 ⟨10, [0x88, 0x80]⟩ = true := by
  decide

theorem test_vxor :
    givesV (st [(1, ⟨10, [0xCC, 0xC0]⟩), (2, ⟨10, [0xAA, 0x80]⟩)] []) 0x34012000 0 ⟨10, [0x66, 0x40]⟩ = true := by
  decide

theorem test_vfree : (match step ((st [(3, ⟨1, [0x80]⟩)] []).loadWord 0x14300000) with
    | .next t    => t.getV 3 == none && t.doneCnt == 1
    | .fault _   => false
    | .refused _ => false) = true := by decide

/-! ## The SHA-256 unit (spec/95_test_vectors.md, section 3) -/

/-- The message "abc". -/
def abc : Vec := ⟨24, [0x61, 0x62, 0x63]⟩

set_option maxRecDepth 20000 in
theorem test_pad_abc : pad abc = ⟨512, [0x61, 0x62, 0x63, 0x80] ++ List.replicate 59 0 ++ [0x18]⟩ := by decide

/-- The functions of the first schedule Word of "abc" that the table of section 3 rests on: `W[16]`, `W[17]` and
`W[18]`, from `W[0]` = 0x61626380 and `W[15]` = 0x18. -/
theorem test_schedule_abc :
    lowerSigma1 0 + 0 + lowerSigma0 0 + 0x61626380 = 0x61626380 ∧
    lowerSigma1 0x18 + 0 + lowerSigma0 0 + 0 = 0x000f0000 ∧
    lowerSigma1 0x61626380 + 0 + lowerSigma0 0 + 0 = 0x7da86405 := by decide

/-- Round 0 of "abc": `T1` and `T2`. -/
theorem test_round_abc :
    (0x5be0cd19 : Word) + upperSigma1 0x510e527f + chooseWord 0x510e527f 0x9b05688c 0x1f83d9ab + kAt 0 + 0x61626380
      = 0x54da50e8 ∧
    upperSigma0 0x6a09e667 + majorityWord 0x6a09e667 0xbb67ae85 0x3c6ef372 = 0x08909ae5 := by decide

set_option maxRecDepth 20000 in
theorem test_vhash_abc : givesV (st [(1, abc)] []) 0x71010000 0
    ⟨256, [0xba, 0x78, 0x16, 0xbf, 0x8f, 0x01, 0xcf, 0xea] ++ [0x41, 0x41, 0x40, 0xde, 0x5d, 0xae, 0x22, 0x23] ++
      [0xb0, 0x03, 0x61, 0xa3, 0x96, 0x17, 0x7a, 0x9c] ++ [0xb4, 0x10, 0xff, 0x61, 0xf2, 0x00, 0x15, 0xad]⟩ = true := by
  decide

/-! ## The assembler and `LI` (R90, R91, R93) -/

/-- The words of a line of assembler text. -/
def words (line : String) : Option (List Word) := (assembleLine line.toList).map fun l => l.map encode

theorem test_assemble_registers : words "vchoose v4, v5, v6, v7 ; comment" = some [0x35456700] := by decide

theorem test_assemble_immediate : words "XLI x3, -1" = some [0x0230FFFF] ∧ words "XLIS x1, 0x6263" = some [0x03106263] := by
  decide

theorem test_assemble_rejects :
    words "VADD v1, x2, v3" = none ∧ words "VADD v1, v2" = none ∧ words "VADD v1, v2, v16" = none ∧
    words "XLI x1, 32768" = none ∧ words "ADD v1, v2, v3" = none := by decide

theorem test_li_three_words : words "LI x2, 0xBB67AE85" = some [0x02200000, 0x0320BB67, 0x0320AE85] := by decide

theorem test_li_one_word : words "LI x6, -32768" = some [0x02608000] := by decide

/-! ## The host's accesses (spec/95_test_vectors.md, section 4) -/

/-- What the host reads at an offset. -/
def hostSees (s : State) (off : Nat) (w : Word) : Bool :=
  match step { s with inputs := [.read 32 off] } with
  | .next t    => t.reads == [w] && t.inputs == []
  | .fault _   => false
  | .refused _ => false

theorem test_read_bytes :
    hostSees { st [(1, abc)] [] with rsel := rselOf 0x00000011 } 0x18 0x61626300 = true ∧
    hostSees { st [(1, abc)] [] with rsel := rselOf 0x00010011 } 0x18 0x62630000 = true := by decide

theorem test_read_info :
    hostSees { st [(1, abc)] [] with rsel := rselOf 0x00000011 } 0x20 0x80000018 = true ∧
    hostSees { st [(1, abc)] [] with rsel := rselOf 0x00000015 } 0x20 0 = true := by decide

theorem test_read_scalar :
    hostSees { st [] [(1, 0x1122334455667788)] with rsel := rselOf 0x00000001 } 0x18 0x55667788 = true ∧
    hostSees { st [] [(1, 0x1122334455667788)] with rsel := rselOf 0x00000001 } 0x1C 0x11223344 = true := by decide

/-- `STATUS`, `ERRCMD` and `DONECNT` in program P3 after the failed `VADD v4, v0, v2`. -/
def afterError : State := { State.reset with err := true, errCode := 4, errCmd := 0x50402000, doneCnt := 12 }

theorem test_read_status :
    hostSees afterError 0x04 0x00000402 = true ∧ hostSees afterError 0x0C 0x50402000 = true ∧
    hostSees afterError 0x10 12 = true ∧ hostSees afterError 0x24 0 = true := by decide

theorem test_clear_and_reset :
    step { afterError with inputs := [.write 32 0x00 0x31500000] } = .next afterError ∧
    step { afterError with inputs := [.write 32 0x08 1] } = .next { State.reset with doneCnt := 12 } := ⟨rfl, rfl⟩

/-- A full queue holds the seventeenth write: the engine moves first, and the write is still to be made. -/
theorem test_held_write : (match step { State.reset with queue := List.replicate 16 0x01000000, inputs := [.write 32 0 0x01000000] } with
    | .next t    => t.queue.length == 15 && t.inputs == [.write 32 0 0x01000000] && t.doneCnt == 1
    | .fault _   => false
    | .refused _ => false) = true := by decide

/-! ## Witnesses: for each statement with hypotheses, states and operands that meet them, each clause at the ends of its
range -/

theorem witness_AcceptedWordIsItsEncoding : decode 0x7FFFFFFF = .error .undefinedOpcode ∧ decode 0x36FFFF00 = .ok (.vmaj 15 15 15 15) := by
  decide

theorem witness_AcceptedWordsAreTheTables :
    (∃ i, decode 0x02F0FFFF = .ok i) ∧ ∃ row ∈ tableRows, (0x02F0FFFF : Word) &&& row.1 = row.2 :=
  ⟨⟨.xli 15 0xFFFF, by decide⟩, by decide⟩

/-- A state with one word in the queue. -/
def queued (w : Word) : State := { State.reset with queue := [w] }

theorem witness_StepRunsTheDecodedCommand :
    (queued 0x01000000).inputs = [] ∧ (queued 0x01000000).err = false ∧ (queued 0x01000000).queue = 0x01000000 :: [] ∧
    decode 0x01000000 = .ok .nop := by decide

theorem witness_IllegalWordRaisesIllegalCommand :
    (queued 0x00000000).inputs = [] ∧ (queued 0x00000000).err = false ∧ (queued 0x00000000).queue = 0x00000000 :: [] ∧
    (∀ row ∈ tableRows, (0x00000000 : Word) &&& row.1 ≠ row.2) ∧
    ∀ row ∈ tableRows, (0x50312001 : Word) &&& row.1 ≠ row.2 := by
  refine ⟨rfl, rfl, rfl, ?_, ?_⟩ <;> simp [tableRows]

theorem witness_StepStopsOnlyWhereNothingMoves :
    step State.reset = .fault .idle ∧ step afterError = .fault .stoppedInError ∧
    step { State.reset with inputs := [.read 8 0x04] } = .refused .unsupportedAccess ∧
    step { State.reset with inputs := [.write 32 0x3E 0] } = .refused .unsupportedAccess ∧
    step { State.reset with inputs := [.read 32 0x40] } = .refused .outsideBlock :=
  ⟨rfl, by simp [step, agentStep, afterError, State.reset, engineStep], rfl, rfl,
    by simp [step, agentStep, State.held, hostStep, accessOk, Config.BLOCK_LEN]⟩

theorem inv_queued (w : Word) : (queued w).Inv where
  storage := Memory.wf_reset
  depth   := show 1 ≤ Config.CQ_DEPTH by decide
  flushed := fun h => nomatch h
  code    := fun h => nomatch h
  cleared := fun _ => ⟨rfl, rfl⟩
  unit    := rfl

theorem inv_afterError : afterError.Inv where
  storage := Memory.wf_reset
  depth   := by decide
  flushed := fun _ => rfl
  code    := fun _ => by decide
  cleared := fun h => nomatch h
  unit    := rfl

theorem witness_StepKeepsTheInvariant :
    (queued 0x01000000).Inv ∧ step (queued 0x01000000) = .next { State.reset with doneCnt := 1 } := ⟨inv_queued _, rfl⟩

theorem witness_ResetLeavesTheStatedValues :
    (0x00000003 : Word).getLsbD 1 = true ∧ HostWrites afterError 0x08 0x00000003 afterError.engineReset ∧
    step { afterError with inputs := [.powerOn] } = .next afterError.engineReset := ⟨by decide, rfl, rfl⟩

theorem witness_NoVectorExactlyOnEmptyOperand : ∃ r ∈ vectorOperands (.vsetb 5 1 2), State.reset.getV r = none := by
  decide

theorem witness_OnlyTheDestinationChanges :
    exec (.vfree 3) (st [(3, ⟨1, [0x80]⟩)] []) =
      .next ((st [(3, ⟨1, [0x80]⟩)] []).setV 3 none).complete ∧
    (¬ storesTo (.vsetu 2 1 3 4) (st [(2, ⟨32, [0, 0, 0, 0]⟩)] [(1, 4660), (3, 1), (4, 2)]) 2 0) ∧
    ¬ storesTo (.vsetu 2 1 3 4) (st [(2, ⟨32, [0, 0, 0, 0]⟩)] [(1, 4660), (3, 1), (4, 2)]) 2 3 :=
  ⟨rfl, by simp [storesTo]; decide, by simp [storesTo]; decide⟩

theorem witness_EngineDrainsItsQueue : (queued 0x01000000).Inv ∧ (queued 0x01000000).inputs = [] := ⟨inv_queued _, rfl⟩

theorem witness_ScratchBitsReachOnlyTheDumps :
    SameButScratch (st [(0, ⟨5, [0x20]⟩)] []) (st [(0, ⟨5, [0x21]⟩)] []) ∧
    exec (.vsize 1 0) (st [(0, ⟨5, [0x20]⟩)] []) = .next ((st [(0, ⟨5, [0x20]⟩)] []).setX 1 5).complete := by
  refine ⟨⟨rfl, fun r => ?_⟩, rfl⟩
  by_cases h : r = 0
  · subst h
    exact .inr ⟨⟨5, [0x20]⟩, ⟨5, [0x21]⟩, rfl, rfl, rfl, by decide⟩
  · exact .inl (by revert r; decide)

theorem witness_ScratchBitsOfResults :
    exec (.vnot 1 0) (st [(0, ⟨5, [0x21]⟩)] []) = .next ((st [(0, ⟨5, [0x21]⟩)] []).setV 1 (some ⟨5, [0xDE]⟩)).complete ∧
    exec (.vcopy 1 0) (st [(0, ⟨5, [0x21]⟩)] []) = .next ((st [(0, ⟨5, [0x21]⟩)] []).setV 1 (some ⟨5, [0x21]⟩)).complete ∧
    exec (.vxor 1 0 0) (st [(0, ⟨5, [0x21]⟩)] []) = .next ((st [(0, ⟨5, [0x21]⟩)] []).setV 1 (some ⟨5, [0]⟩)).complete ∧
    exec (.vsetb 0 2 3) (st [(0, ⟨5, [0x21]⟩)] [(3, 1)]) =
      .next ((st [(0, ⟨5, [0x21]⟩)] [(3, 1)]).setV 0 (some ⟨5, [0xA1]⟩)).complete := ⟨rfl, rfl, rfl, rfl⟩

theorem witness_NumberIsTheSumOfTheBits : (⟨16, [0x12, 0x34]⟩ : Vec).size = 8 * 2 ∧ (⟨16, [0x12, 0x34]⟩ : Vec).val = 0x1234 := by
  decide

theorem witness_LiLoadsThePattern :
    (-2 : Int) ^ 63 ≥ -2 ^ 63 ∧ (2 ^ 64 - 1 : Int) < 2 ^ 64 ∧
    ({ State.reset with queue := (liExpand 4 (2 ^ 64 - 1)).map encode } : State).queue =
      (liExpand 4 (2 ^ 64 - 1)).map encode ++ [] ∧
    (liExpand 4 (2 ^ 64 - 1)).length = 1 ∧ (liExpand 4 (2 ^ 63)).length = 4 ∧ (liExpand 4 (-2 ^ 63)).length = 4 := by
  decide

theorem witness_VzeroMakesZeroBits :
    ((st [] [(1, 0)]).getX 1).toInt = 0 ∧ ((st [] [(1, 65536)]).getX 1).toInt = (Config.VLEN_MAX : Int) ∧
    ((st [] [(1, -1)]).getX 1).toInt < 0 ∧ (Config.VLEN_MAX : Int) < ((st [] [(1, 65537)]).getX 1).toInt := by decide

/-- Register 0 empty, 1 a 5-bit vector with scratch bits set, 2 another of its size, 3 one of size 12, 4 one of size 0,
5 the text "101", 6 the text "12". -/
def vectors : State :=
  st [(1, ⟨5, [0xB7]⟩), (2, ⟨5, [0x21]⟩), (3, ⟨12, [0x0F, 0x80]⟩), (4, ⟨0, []⟩), (5, ⟨24, [0x31, 0x30, 0x31]⟩), (6, ⟨16, [0x31, 0x32]⟩)]
    [(1, -1), (2, 0), (3, 1), (4, 4), (5, 5), (6, 255), (7, 256), (8, -2 ^ 63), (9, 2), (10, 8192), (11, 8193)]

theorem witness_VbitsParsesTheBitString :
    vectors.getV 0 = none ∧ (∃ v, vectors.getV 1 = some v ∧ v.size % 8 ≠ 0) ∧
    (∃ v, vectors.getV 6 = some v ∧ v.size % 8 = 0 ∧ ∃ k < v.size / 8, v.byte k ≠ 0x30 ∧ v.byte k ≠ 0x31) ∧
    (∃ v, vectors.getV 5 = some v ∧ v.size % 8 = 0 ∧ ∀ k < v.size / 8, v.byte k = 0x30 ∨ v.byte k = 0x31) ∧
    ∃ v, vectors.getV 4 = some v ∧ v.size % 8 = 0 ∧ ∀ k < v.size / 8, v.byte k = 0x30 ∨ v.byte k = 0x31 :=
  ⟨rfl, ⟨_, rfl, by decide⟩, ⟨_, rfl, by decide⟩, ⟨_, rfl, by decide⟩, ⟨_, rfl, by decide⟩⟩

theorem witness_VuintEncodesBigEndian :
    (vectors.getX 1).toNat = 2 ^ 64 - 1 ∧ (vectors.getX 2).toInt = 0 ∧ (vectors.getX 1).toInt < 0 ∧
    8 * (vectors.getX 10).toInt = (Config.VLEN_MAX : Int) ∧ (Config.VLEN_MAX : Int) < 8 * (vectors.getX 11).toInt := by
  decide

theorem witness_VcopyClonesTheStorage :
    vectors.getV 0 = none ∧ ∃ v, vectors.getV 1 = some v ∧ v.wf = true ∧ v.clean = false := ⟨rfl, ⟨_, rfl, by decide⟩⟩

theorem witness_VfreeEmptiesTheRegister :
    vectors.getV 0 = none ∧ vectors.getV 1 ≠ none ∧ (1 : VReg) ∈ vectorOperands (.vmaj 0 2 3 1) := by decide

theorem witness_VsizeReadsTheSize : vectors.getV 0 = none ∧ ∃ v, vectors.getV 3 = some v ∧ v.size = 12 := ⟨rfl, ⟨_, rfl, rfl⟩⟩

theorem witness_VgetbReadsOneBit :
    vectors.getV 0 = none ∧ ∃ v, vectors.getV 1 = some v ∧ (vectors.getX 2).toInt = 0 ∧
      (vectors.getX 4).toInt = (v.size : Int) - 1 ∧ (vectors.getX 5).toInt = (v.size : Int) ∧ (vectors.getX 1).toInt < 0 :=
  ⟨rfl, ⟨_, rfl, by decide⟩⟩

theorem witness_VsetbWritesOneBit :
    vectors.getV 0 = none ∧ ∃ v, vectors.getV 1 = some v ∧ (vectors.getX 2).toInt = 0 ∧ (vectors.getX 3).toInt = 1 ∧
      (vectors.getX 4).toInt = (v.size : Int) - 1 ∧ (vectors.getX 5).toInt = (v.size : Int) ∧ (vectors.getX 9).toInt = 2 ∧
      (vectors.getX 1).toInt = -1 := ⟨rfl, ⟨_, rfl, by decide⟩⟩

theorem witness_VsetyWritesOneByte :
    vectors.getV 0 = none ∧ ∃ v, vectors.getV 3 = some v ∧ (vectors.getX 2).toInt = 0 ∧
      (vectors.getX 3).toInt = (((v.size + 7) / 8 : Nat) : Int) - 1 ∧
      (vectors.getX 9).toInt = (((v.size + 7) / 8 : Nat) : Int) ∧ (vectors.getX 6).toInt = 255 ∧
      (vectors.getX 7).toInt = 256 ∧ (vectors.getX 1).toInt = -1 := ⟨rfl, ⟨_, rfl, by decide⟩⟩

theorem witness_VsetuWritesBytesBigEndian :
    vectors.getV 0 = none ∧ ∃ v, vectors.getV 3 = some v ∧ (vectors.getX 1).toInt = -1 ∧ (vectors.getX 2).toInt = 0 ∧
      (vectors.getX 9).toInt + (vectors.getX 2).toInt = (((v.size + 7) / 8 : Nat) : Int) ∧
      (vectors.getX 3).toInt + (vectors.getX 3).toInt = (((v.size + 7) / 8 : Nat) : Int) ∧
      (((v.size + 7) / 8 : Nat) : Int) < (vectors.getX 9).toInt + (vectors.getX 3).toInt := ⟨rfl, ⟨_, rfl, by decide⟩⟩

theorem witness_VsliceCopiesTheRange :
    vectors.getV 0 = none ∧ ∃ v, vectors.getV 1 = some v ∧ (vectors.getX 2).toInt = 0 ∧
      (vectors.getX 5).toInt = (v.size : Int) ∧ (v.size : Int) < (vectors.getX 6).toInt ∧
      (vectors.getX 3).toInt < (vectors.getX 4).toInt ∧ (vectors.getX 1).toInt < 0 := ⟨rfl, ⟨_, rfl, by decide⟩⟩

theorem witness_VeqComparesLogicalBits :
    vectors.getV 0 = none ∧
    (∃ p q, vectors.getV 1 = some p ∧ vectors.getV 2 = some q ∧ ¬ LogicEq p q) ∧
    (∃ p q, vectors.getV 1 = some p ∧ vectors.getV 3 = some q ∧ ¬ LogicEq p q) ∧
    LogicEq ⟨5, [0xB7]⟩ ⟨5, [0xB0]⟩ :=
  ⟨rfl, ⟨_, _, rfl, rfl, fun h => absurd (h.2 0 (by decide)) (by decide)⟩, ⟨_, _, rfl, rfl, fun h => absurd h.1 (by decide)⟩,
    rfl, by decide⟩

theorem witness_VnotComplementsEveryByte : vectors.getV 0 = none ∧ ∃ p, vectors.getV 1 = some p := ⟨rfl, ⟨_, rfl⟩⟩

theorem witness_VorVandVxorBitByBit :
    vectors.getV 0 = none ∧ (∃ p q, vectors.getV 1 = some p ∧ vectors.getV 3 = some q ∧ p.size ≠ q.size) ∧
    ∃ p q, vectors.getV 1 = some p ∧ vectors.getV 2 = some q ∧ p.size = q.size :=
  ⟨rfl, ⟨_, _, rfl, rfl, by decide⟩, ⟨_, _, rfl, rfl, rfl⟩⟩

theorem witness_VchooseVmajBitByBit :
    vectors.getV 0 = none ∧
    (∃ p q u, vectors.getV 1 = some p ∧ vectors.getV 2 = some q ∧ vectors.getV 3 = some u ∧
      ¬ (p.size = q.size ∧ q.size = u.size)) ∧
    ∃ p q u, vectors.getV 1 = some p ∧ vectors.getV 2 = some q ∧ vectors.getV 1 = some u ∧ p.size = q.size ∧
      q.size = u.size :=
  ⟨rfl, ⟨_, _, _, rfl, rfl, rfl, by decide⟩, ⟨_, _, _, rfl, rfl, rfl, rfl, rfl⟩⟩

theorem witness_VshlVshrMoveTheBits :
    vectors.getV 0 = none ∧ (∃ v, vectors.getV 1 = some v) ∧ (vectors.getX 8).toInt = -2 ^ 63 ∧
    (vectors.getX 2).toInt = 0 ∧ (vectors.getX 5).toInt = 5 := ⟨rfl, ⟨_, rfl⟩, by decide, by decide, by decide⟩

theorem witness_VrolVrorTurnTheBits :
    vectors.getV 0 = none ∧ (∃ v, vectors.getV 4 = some v ∧ v.size = 0) ∧ (∃ v, vectors.getV 1 = some v ∧ v.size = 5) ∧
    (vectors.getX 8).toInt = -2 ^ 63 ∧ (vectors.getX 7).toInt = 256 :=
  ⟨rfl, ⟨_, rfl, rfl⟩, ⟨_, rfl, rfl⟩, by decide, by decide⟩

theorem witness_ShiftAndRotateSymmetry :
    ((⟨5, [0xB7]⟩ : Vec).size : Int) ≤ 5 ∧ 0 < (⟨5, [0xB7]⟩ : Vec).size ∧ (0 : Int) ≤ 4 ∧
    (4 : Int) < (⟨5, [0xB7]⟩ : Vec).size := by decide

theorem witness_VaddAddsModuloTheSize :
    vectors.getV 0 = none ∧ (∃ p q, vectors.getV 1 = some p ∧ vectors.getV 3 = some q ∧ p.size ≠ q.size) ∧
    ∃ p q, vectors.getV 1 = some p ∧ vectors.getV 2 = some q ∧ p.size = q.size :=
  ⟨rfl, ⟨_, _, rfl, rfl, by decide⟩, ⟨_, _, rfl, rfl, rfl⟩⟩

theorem witness_VaddIsTheCarryChain :
    (⟨12, [0x0F, 0x80]⟩ : Vec).size = (⟨12, [0, 0x80]⟩ : Vec).size ∧ 0 < (⟨12, [0x0F, 0x80]⟩ : Vec).size / 8 ∧
    byteCarryIn ⟨12, [0x0F, 0x80]⟩ ⟨12, [0, 0x80]⟩ 0 = 1 := by decide

theorem witness_VclzCountsLeadingZeros :
    vectors.getV 0 = none ∧ (∃ v, vectors.getV 4 = some v) ∧ ∃ v, vectors.getV 3 = some v := ⟨rfl, ⟨_, rfl⟩, ⟨_, rfl⟩⟩

/-- Vectors of zeros at the edge of what the text conversions, the padding and the hash accept. -/
def zeros (n : Nat) : State := st [(1, ⟨n, List.replicate ((n + 7) / 8) 0⟩)] []

theorem witness_VtobinWritesTheBits :
    (zeros 0).getV 0 = none ∧ (∃ v, (zeros 8192).getV 1 = some v ∧ 8 * v.size = Config.VLEN_MAX) ∧
    (∃ v, (zeros 8193).getV 1 = some v ∧ Config.VLEN_MAX < 8 * v.size) ∧
    (⟨24, [0x31, 0x30, 0x31]⟩ : Vec).wf = true ∧ initFromBitString ⟨24, [0x31, 0x30, 0x31]⟩ = .ok ⟨3, [0xA0]⟩ :=
  ⟨rfl, ⟨_, rfl, by decide⟩, ⟨_, rfl, by decide⟩, by decide, by decide⟩

theorem witness_VtohexDumpsTheBytes :
    (zeros 0).getV 0 = none ∧ (∃ v, (zeros 32768).getV 1 = some v ∧ 16 * ((v.size + 7) / 8) = Config.VLEN_MAX) ∧
    ∃ v, (zeros 32769).getV 1 = some v ∧ Config.VLEN_MAX < 16 * ((v.size + 7) / 8) :=
  ⟨rfl, ⟨_, rfl, by decide⟩, ⟨_, rfl, by decide⟩⟩

theorem witness_VtodecDumpsTheBytes :
    (zeros 0).getV 0 = none ∧ (∃ v, (zeros 21840).getV 1 = some v ∧ 24 * ((v.size + 7) / 8) ≤ Config.VLEN_MAX) ∧
    ∃ v, (zeros 21841).getV 1 = some v ∧ Config.VLEN_MAX < 24 * ((v.size + 7) / 8) :=
  ⟨rfl, ⟨_, rfl, by decide⟩, ⟨_, rfl, by decide⟩⟩

theorem witness_TextParsesBack : 8 * (⟨5, [0xB7]⟩ : Vec).size ≤ Config.VLEN_MAX := by decide

theorem witness_VpadPadsTheMessage :
    (zeros 0).getV 0 = none ∧ (∃ m, (zeros 7).getV 1 = some m ∧ m.size % 8 ≠ 0) ∧
    (∃ m, (zeros 65464).getV 1 = some m ∧ m.size % 8 = 0 ∧ 512 * ((m.size + 64) / 512 + 1) = Config.VLEN_MAX) ∧
    ∃ m, (zeros 65472).getV 1 = some m ∧ m.size % 8 = 0 ∧ Config.VLEN_MAX < 512 * ((m.size + 64) / 512 + 1) :=
  ⟨rfl, ⟨_, rfl, by decide⟩, ⟨_, rfl, by decide, by decide⟩, ⟨_, rfl, by decide, by decide⟩⟩

theorem witness_VhashComputesTheDigest :
    (zeros 0).getV 0 = none ∧ (∃ m, (zeros 7).getV 1 = some m ∧ m.size % 8 ≠ 0) ∧
    (∃ m, (zeros 0).getV 1 = some m ∧ m.size % 8 = 0) ∧ ∃ m, (zeros 448).getV 1 = some m ∧ m.size % 8 = 0 :=
  ⟨rfl, ⟨_, rfl, by decide⟩, ⟨_, rfl, by decide⟩, ⟨_, rfl, by decide⟩⟩

theorem witness_HashDependsOnTheBytesOnly :
    (st [(1, abc)] []).getV 1 = some abc ∧ (st [(2, abc)] [(3, 7)]).getV 2 = some abc ∧ abc.size % 8 = 0 ∧
    ∀ k < abc.size / 8, abc.byte k = abc.byte k := ⟨rfl, rfl, rfl, fun _ _ => rfl⟩

theorem witness_CmdWriteAppendsHoldsOrDrops :
    afterError.err = true ∧ ((queued 0).err = false ∧ (queued 0).queue.length < Config.CQ_DEPTH) ∧
    ({ State.reset with queue := List.replicate 15 0 } : State).queue.length + 1 = Config.CQ_DEPTH ∧
    ({ State.reset with queue := List.replicate 16 0 } : State).err = false ∧
    Config.CQ_DEPTH ≤ ({ State.reset with queue := List.replicate 16 0 } : State).queue.length := by decide

theorem witness_StatusReadShowsBusyErrAndCode : (queued 0).Inv ∧ afterError.Inv := ⟨inv_queued _, inv_afterError⟩

theorem witness_PlainReadsAndIgnoredWrites : 0x24 ≤ 0x3C ∧ 0x3C ≤ 0x3C ∧ 0x3C % 4 = 0 ∧ 0x24 % 4 = 0 := by decide

theorem witness_ReadDataShowsTheSelectedRegister :
    State.reset.queue = [] ∧ State.reset.rsel.space = false ∧
    ({ vectors with rsel := rselOf 0x00010013 } : State).queue = [] ∧ (rselOf 0x00010013).space = true ∧
    (∃ v, vectors.getV (regOf (rselOf 0x00010013).reg) = some v ∧ v.size ≤ Config.VLEN_MAX) ∧
    vectors.getV (regOf (rselOf 0x00000010).reg) = none :=
  ⟨rfl, rfl, rfl, by decide, ⟨_, rfl, by decide⟩, rfl⟩

theorem witness_BusyReadIsUnspecified : (queued 0).queue ≠ [] := by decide

theorem witness_CtrlWriteClearsTheError :
    (0xFFFFFFFD : Word).getLsbD 1 = false ∧ (0xFFFFFFFD : Word).getLsbD 0 = true ∧ afterError.err = true ∧
    (queued 0).Inv ∧ (queued 0).err = false ∧ (0xFFFFFFFC : Word).getLsbD 1 = false ∧
    (0xFFFFFFFC : Word).getLsbD 0 = false := ⟨by decide, by decide, rfl, inv_queued _, rfl, by decide, by decide⟩

theorem witness_UnsupportedAccessIsRefused : accessOk 16 0x04 = false ∧ accessOk 64 0x04 = false ∧ accessOk 32 0x06 = false := by
  decide

/-- A clean register and one whose scratch bits are set, read through `RVINFO`; through `RDLO` with `SPACE` = 0; and
through `RDLO` with `SPACE` = 1 while the queue is not empty. -/
theorem witness_HostReadsButVectorRdloIgnoreScratchBits :
    SameButScratch (st [(0, ⟨5, [0x20]⟩)] []) (st [(0, ⟨5, [0x21]⟩)] []) ∧
    ¬ (0x20 = 0x18 ∧ (rselOf 0x10).space = true ∧ (st [(0, ⟨5, [0x20]⟩)] []).queue = []) ∧
    ¬ (0x18 = 0x18 ∧ (rselOf 0x00).space = true ∧ (st [(0, ⟨5, [0x20]⟩)] []).queue = []) ∧
    ¬ (0x18 = 0x18 ∧ (rselOf 0x10).space = true ∧ (queued 0).queue = []) ∧
    step { st [(0, ⟨5, [0x20]⟩)] [] with inputs := [.read 32 0x20] } =
      .next { st [(0, ⟨5, [0x20]⟩)] [] with reads := [0] } :=
  ⟨witness_ScratchBitsReachOnlyTheDumps.1, by decide, by decide, by decide, rfl⟩

/-- The excluded read shows scratch bits as stored (R45). -/
theorem test_read_scratch_bits :
    hostSees { st [(0, ⟨5, [0x20]⟩)] [] with rsel := rselOf 0x10 } 0x18 0x20000000 = true ∧
    hostSees { st [(0, ⟨5, [0x21]⟩)] [] with rsel := rselOf 0x10 } 0x18 0x21000000 = true := by decide

theorem test_assemble_spaces :
    words "  VADD   v3 ,v1,  v2  " = some [0x50312000] ∧ words "  ; only a comment" = some [] := by decide

end Sys2Proof.Tests
end

section
/-! SUPPORT. The number of a vector as a weighted sum (R10, R62). -/

namespace Sys2Proof.Claims

open Sys2Proof.Machine

/-- Horner's rule with base `b` computes the sum of the digits with their weights, the first digit the most
significant. -/
theorem horner_eq_sum {b : Nat} {g f : Nat → Nat} (zero : g 0 = 0) (succ : ∀ n, g (n + 1) = b * g n + f n) (n : Nat) :
    g n = ∑ i ∈ Finset.range n, f i * b ^ (n - 1 - i) := by
  induction n with
  | zero => simpa using zero
  | succ n ih =>
    have shift : ∀ i ∈ Finset.range n, b * (f i * b ^ (n - 1 - i)) = f i * b ^ (n + 1 - 1 - i) := by
      intro i hi
      have hi : i < n := Finset.mem_range.mp hi
      rw [show n + 1 - 1 - i = n - 1 - i + 1 by omega, pow_succ]
      ring
    rw [succ, ih, Finset.mul_sum, Finset.sum_congr rfl shift, Finset.sum_range_succ]
    simp

/-- The number of the first `n` bits is the sum of these bits with their weights. -/
theorem valUpto_eq_sum (v : Vec) (n : Nat) :
    v.valUpto n = ∑ i ∈ Finset.range n, (v.bit i).toNat * 2 ^ (n - 1 - i) :=
  horner_eq_sum (g := v.valUpto) rfl (fun _ => rfl) n

/-- The number of the first `k` storage bytes is big-endian (R62). -/
theorem valUpto_eq_sum_bytes (v : Vec) (k : Nat) :
    v.valUpto (8 * k) = ∑ j ∈ Finset.range k, (v.byte j).toNat * 256 ^ (k - 1 - j) :=
  horner_eq_sum (g := fun k => v.valUpto (8 * k)) rfl (valUpto_byte v) k

/-- Settles O17: `val` is computed by Horner's rule, bit by bit and so byte by byte, and the bits of `vecOf n x` are
those of `x`. -/
theorem numberIsTheSumOfTheBits : Obligations.NumberIsTheSumOfTheBits := by
  unfold Obligations.NumberIsTheSumOfTheBits
  refine ⟨fun v => ⟨valUpto_eq_sum v v.size, val_lt v⟩, fun v k hk => ?_, fun n x => ⟨rfl, vecOf_val n x, ?_⟩⟩
  · rw [Vec.val, hk, valUpto_eq_sum_bytes]
  · exact fun _ hi hi' => mkvec_scratch _ hi hi'

end Sys2Proof.Claims
end

section
/-! SUPPORT. What the vector operations read of their operands (R9, R66). Between vectors that differ only in scratch
bits, an operation that reads logical bits answers the same result (`_eq`), and one that moves storage bytes answers
results that again differ only in scratch bits (`_alike`). -/

namespace Sys2Proof.Claims

open Sys2Proof.Machine

/-- Both results are the same error, or both are values that `R` relates. -/
inductive Alike {α : Type} (R : α → α → Prop) : Except Err α → Except Err α → Prop
  | ok {x y : α} (h : R x y) : Alike R (.ok x) (.ok y)
  | error (e : Err) : Alike R (.error e) (.error e)

theorem Alike.of_eq {α : Type} {R : α → α → Prop} (hR : ∀ x, R x x) {r r' : Except Err α} (h : r = r') :
    Alike R r r' := by
  subst h
  cases r with
  | ok x => exact .ok (hR x)
  | error e => exact .error e

namespace LogicEq

theorem refl (p : Vec) : LogicEq p p := ⟨rfl, fun _ _ => rfl⟩

theorem size_eq {p q : Vec} (h : LogicEq p q) : p.size = q.size := h.1

theorem bit_eq {p q : Vec} (h : LogicEq p q) {i : Nat} (hi : i < p.size) : p.bit i = q.bit i := h.2 i hi

end LogicEq

/-- Vectors made of bytes differ only in scratch bits when the bytes agree on the logical bits. -/
theorem ofBytes_logicEq {n : Nat} {g g' : Nat → Byte}
    (h : ∀ i < n, (g (i / 8)).getLsbD (7 - i % 8) = (g' (i / 8)).getLsbD (7 - i % 8)) :
    LogicEq (ofBytes n g) (ofBytes n g') := by
  refine ⟨rfl, fun i hi => ?_⟩
  have stored : i < 8 * nbytes n := Nat.lt_of_lt_of_le hi (size_le_storage n)
  rw [ofBytes_bit g stored, ofBytes_bit g' stored, h i hi]

theorem all_range_congr {n : Nat} {f g : Nat → Bool} (h : ∀ k < n, f k = g k) :
    (List.range n).all f = (List.range n).all g := by
  rw [Bool.eq_iff_iff]
  simp only [List.all_eq_true, List.mem_range]
  exact forall₂_congr fun k hk => by rw [h k hk]

theorem textVec_congr {n : Nat} {g g' : Nat → Byte} (h : ∀ k < n, g k = g' k) : textVec n g = textVec n g' := by
  have same : ofBytes (8 * n) g = ofBytes (8 * n) g' := ofBytes_congr fun k hk => h k (by rwa [nbytes_mul8] at hk)
  rw [textVec, textVec, same]

namespace LogicEq

variable {p q : Vec} (h : LogicEq p q)
include h

/-- A storage byte without scratch bits. -/
theorem byte_eq {k : Nat} (hk : 8 * k + 8 ≤ p.size) : p.byte k = q.byte k := by
  apply byte_ext
  intro j hj
  have := h.bit_eq (i := 8 * k + j) (by omega)
  rwa [Vec.bit, Vec.bit, show (8 * k + j) / 8 = k by omega, show (8 * k + j) % 8 = j by omega] at this

theorem valUpto_eq {n : Nat} (hn : n ≤ p.size) : p.valUpto n = q.valUpto n := by
  induction n with
  | zero => rfl
  | succ n ih => rw [Vec.valUpto, Vec.valUpto, ih (by omega), h.bit_eq (by omega)]

theorem val_eq : p.val = q.val := by rw [Vec.val, Vec.val, h.valUpto_eq le_rfl, h.size_eq]

/-! ## Construction and access -/

theorem initFromBitString_eq : initFromBitString p = initFromBitString q := by
  have byte : ∀ k < p.size / 8, p.byte k = q.byte k := fun k hk => h.byte_eq (by omega)
  have valid : ((List.range (p.size / 8)).all fun k => p.byte k == 0x30 || p.byte k == 0x31) =
      (List.range (p.size / 8)).all fun k => q.byte k == 0x30 || q.byte k == 0x31 :=
    all_range_congr fun k hk => by rw [byte k hk]
  have made : mkvec (p.size / 8) (fun i => p.byte i == 0x31) = mkvec (p.size / 8) fun i => q.byte i == 0x31 :=
    mkvec_congr fun i hi => by rw [byte i hi]
  rw [initFromBitString, initFromBitString, valid, made, h.size_eq]

theorem copyVec_alike : LogicEq (copyVec p) (copyVec q) := by
  rw [copyVec, copyVec, ← h.size_eq]
  exact ofBytes_logicEq fun i hi => h.bit_eq hi

theorem notVec_alike : LogicEq (notVec p) (notVec q) := by
  rw [notVec, notVec, ← h.size_eq]
  refine ofBytes_logicEq fun i hi => ?_
  have bit : (p.byte (i / 8)).getLsbD (7 - i % 8) = (q.byte (i / 8)).getLsbD (7 - i % 8) := h.bit_eq hi
  rw [BitVec.getLsbD_not, BitVec.getLsbD_not, bit]

theorem getBit_eq (i : Int) : getBit p i = getBit q i := by
  unfold getBit
  rw [← h.size_eq]
  split
  · next hi =>
    simp only [indexOk, Bool.and_eq_true, decide_eq_true_eq] at hi
    rw [h.bit_eq (by omega)]
  · rfl

theorem putBit_alike (i : Nat) (x : Bool) : LogicEq (p.putBit i x) (q.putBit i x) := by
  refine ⟨h.size_eq, fun j hj => ?_⟩
  have stored : j < 8 * nbytes p.size := Nat.lt_of_lt_of_le hj (size_le_storage _)
  rw [putBit_bit x stored, putBit_bit x (h.size_eq ▸ stored), h.bit_eq hj]

theorem memWrite_alike (k : Nat) (bs : List Byte) : LogicEq (p.memWrite k bs) (q.memWrite k bs) := by
  rw [Vec.memWrite, Vec.memWrite, ← h.size_eq]
  refine ofBytes_logicEq fun i hi => ?_
  split
  · rfl
  · exact h.bit_eq hi

theorem setBit_alike (i x : Int) : Alike LogicEq (setBit p i x) (setBit q i x) := by
  unfold setBit
  rw [← h.size_eq]
  split_ifs
  · exact .error _
  · exact .error _
  · exact .ok (h.putBit_alike _ _)

theorem setByte_alike (k x : Int) : Alike LogicEq (setByte p k x) (setByte q k x) := by
  unfold setByte
  rw [← h.size_eq]
  split_ifs
  · exact .error _
  · exact .error _
  · exact .ok (h.memWrite_alike _ _)

theorem setBytesFromUnsigned_alike (value : Nat) (s n : Int) :
    Alike LogicEq (setBytesFromUnsigned p value s n) (setBytesFromUnsigned q value s n) := by
  unfold setBytesFromUnsigned
  rw [← h.size_eq]
  split_ifs
  · exact .error _
  · exact .error _
  · exact .ok (h.memWrite_alike _ _)

theorem slice_eq (s e : Int) : slice p s e = slice q s e := by
  unfold slice
  rw [← h.size_eq]
  split
  · rfl
  · exact congrArg _ (mkvec_congr fun i hi => h.bit_eq (by omega))

/-! ## Shifts, rotates and the leading-zero count -/

theorem shiftLeftBy_eq (c : Nat) : shiftLeftBy p c = shiftLeftBy q c := by
  rw [shiftLeftBy, shiftLeftBy, ← h.size_eq]
  refine mkvec_congr fun i _ => ?_
  by_cases hi : i + c < p.size
  · rw [h.bit_eq hi]
  · simp [hi]

theorem shiftRightBy_eq (c : Nat) : shiftRightBy p c = shiftRightBy q c := by
  rw [shiftRightBy, shiftRightBy, ← h.size_eq]
  exact mkvec_congr fun i hi => by rw [h.bit_eq (by omega)]

theorem rotateLeftBy_eq (c : Nat) : rotateLeftBy p c = rotateLeftBy q c := by
  rw [rotateLeftBy, rotateLeftBy, ← h.size_eq]
  exact mkvec_congr fun i hi => h.bit_eq (Nat.mod_lt _ (by omega))

theorem rotateRightBy_eq (c : Nat) : rotateRightBy p c = rotateRightBy q c := by
  rw [rotateRightBy, rotateRightBy, ← h.size_eq]
  exact mkvec_congr fun i hi => h.bit_eq (Nat.mod_lt _ (by omega))

theorem lshift_eq (c : Int) : lshift p c = lshift q c := by
  rw [lshift, lshift, h.shiftLeftBy_eq, h.shiftRightBy_eq]

theorem rshift_eq (c : Int) : rshift p c = rshift q c := by
  rw [rshift, rshift, h.shiftLeftBy_eq, h.shiftRightBy_eq]

theorem lrotate_eq (c : Int) : lrotate p c = lrotate q c := by
  rw [lrotate, lrotate, h.rotateLeftBy_eq, h.rotateRightBy_eq]

theorem rrotate_eq (c : Int) : rrotate p c = rrotate q c := by
  rw [rrotate, rrotate, h.rotateLeftBy_eq, h.rotateRightBy_eq]

theorem countZeros_eq (n fuel : Nat) (hn : n + fuel ≤ p.size) : countZeros p n fuel = countZeros q n fuel := by
  induction fuel generalizing n with
  | zero => rfl
  | succ fuel ih => rw [countZeros, countZeros, h.bit_eq (by omega), ih (n + 1) (by omega)]

theorem leadingZeros_eq : leadingZeros p = leadingZeros q := by
  rw [leadingZeros, leadingZeros, ← h.size_eq, h.countZeros_eq 0 p.size (by omega)]

/-! ## Text and padding -/

theorem toBinString_eq : toBinString p = toBinString q := by
  rw [toBinString, toBinString, ← h.size_eq]
  exact textVec_congr fun i hi => by rw [h.bit_eq hi]

theorem pad_eq : pad p = pad q := by
  rw [Machine.pad_eq, Machine.pad_eq, ← h.size_eq]
  refine mkvec_congr fun i _ => ?_
  split
  · next hi => exact h.bit_eq hi
  · rfl

theorem shaStart_eq (u : ShaUnit) (d : Fin 16) : shaStart u p d = shaStart u q d := by
  rw [shaStart, shaStart, h.pad_eq]

/-! ## Two and three operands -/

variable {p₂ q₂ p₃ q₃ : Vec}

theorem equalVec_eq (h₂ : LogicEq p₂ q₂) : equalVec p p₂ = equalVec q q₂ := by
  rw [equalVec, equalVec, ← h.size_eq, ← h₂.size_eq]
  by_cases hs : p.size = p₂.size
  · rw [all_range_congr fun i hi => by rw [h.bit_eq hi, h₂.bit_eq (hs ▸ hi)]]
  · rw [beq_false_of_ne hs, Bool.false_and, Bool.false_and]

theorem bitwise2_eq (h₂ : LogicEq p₂ q₂) (f : Bool → Bool → Bool) :
    bitwise2 f p p₂ = bitwise2 f q q₂ := by
  unfold bitwise2
  rw [← h.size_eq, ← h₂.size_eq]
  split
  · rfl
  · next hs => exact congrArg _ (mkvec_congr fun i hi => by rw [h.bit_eq hi, h₂.bit_eq (by omega)])

theorem bitwise3_eq (h₂ : LogicEq p₂ q₂) (h₃ : LogicEq p₃ q₃) (f : Bool → Bool → Bool → Bool) :
    bitwise3 f p p₂ p₃ = bitwise3 f q q₂ q₃ := by
  unfold bitwise3
  rw [← h.size_eq, ← h₂.size_eq, ← h₃.size_eq]
  split
  · rfl
  · next hs =>
    exact congrArg _ (mkvec_congr fun i hi => by
      rw [h.bit_eq hi, h₂.bit_eq (by omega), h₃.bit_eq (by omega)])

theorem addMod_eq (h₂ : LogicEq p₂ q₂) : addMod p p₂ = addMod q q₂ := by
  rw [addMod, addMod, h.val_eq, h₂.val_eq, h.size_eq, h₂.size_eq]

end LogicEq

end Sys2Proof.Claims
end

section
/-! SUPPORT. Two runs of a command from states that differ only in scratch bits (R9, R66). -/

namespace Sys2Proof.Claims

open Sys2Proof.Machine

/-- Both commands take a next state, and the two states differ only in scratch bits. -/
def EndAlike (o o' : Host.Outcome State Fault Refusal) : Prop :=
  ∃ t t', o = .next t ∧ o' = .next t' ∧ SameButScratch t t'

namespace SameButScratch

variable {s s' : State} (h : SameButScratch s s')
include h

theorem sx_eq (r : XReg) : s'.sx r = s.sx r := by rw [h.1]; rfl

theorem ux_eq (r : XReg) : s'.ux r = s.ux r := by rw [h.1]; rfl

theorem sha_eq : s'.sha = s.sha := by rw [h.1]

/-- An operation on the rest of the state: it neither reads nor writes the vector registers. -/
theorem apart {f : State → State}
    (hf : ∀ (s : State) (m : Vector (Option Vec) 16), f { s with v := m } = { f s with v := m }) :
    SameButScratch (f s) (f s') := by
  have left : (f s).v = s.v := (congrArg State.v (hf s s.v) :)
  have right : f s' = { f s with v := s'.v } := by rw [← hf, ← h.1]
  refine ⟨by rw [right], fun r => ?_⟩
  have hv : (f s').v = s'.v := by rw [right]
  have := h.2 r
  rwa [State.getV, State.getV, ← left, ← hv] at this

theorem complete : SameButScratch s.complete s'.complete := h.apart fun _ _ => rfl

theorem raise (e : Err) : SameButScratch (s.raise e) (s'.raise e) := h.apart (f := (State.raise · e)) fun _ _ => rfl

theorem setX (d : XReg) (y : Scalar) : SameButScratch (s.setX d y) (s'.setX d y) :=
  h.apart (f := (State.setX · d y)) fun _ _ => rfl

theorem forgetSha : SameButScratch s.forgetSha s'.forgetSha := h.apart fun _ _ => rfl

/-- A write of one vector register, with contents that differ only in scratch bits. -/
theorem setV (d : VReg) {o o' : Option Vec}
    (ho : (o = none ∧ o' = none) ∨ ∃ p q, o = some p ∧ o' = some q ∧ LogicEq p q) :
    SameButScratch (s.setV d o) (s'.setV d o') := by
  refine ⟨by rw [h.1]; rfl, fun r => ?_⟩
  by_cases hr : r = d
  · subst hr
    simpa using ho
  · simpa [State.getV_setV_ne _ _ _ _ hr] using h.2 r

/-- A vector operand is `Empty` in both states, or read in both. -/
theorem operand {α : Type} {R : α → α → Prop} (r : VReg) {f f' : Vec → Except Err α}
    (hf : ∀ p q, LogicEq p q → Alike R (f p) (f' q)) : Alike R (s.vec r >>= f) (s'.vec r >>= f') := by
  obtain ⟨hs, hs'⟩ | ⟨p, q, hp, hq, hpq⟩ := h.2 r
  · rw [vec_of_none hs, vec_of_none hs']
    exact .error .noVector
  · rw [vec_of_some hp, vec_of_some hq]
    exact hf p q hpq

theorem finishV (d : VReg) {r r' : Except Err Vec} (hr : Alike LogicEq r r') :
    EndAlike (Machine.finishV s d r) (Machine.finishV s' d r') := by
  cases hr with
  | ok hpq => exact ⟨_, _, rfl, rfl, (h.setV d (.inr ⟨_, _, rfl, rfl, hpq⟩)).complete⟩
  | error e => exact ⟨_, _, rfl, rfl, h.raise e⟩

theorem finishX (d : XReg) {r r' : Except Err Nat} (hr : Alike Eq r r') :
    EndAlike (Machine.finishX s d r) (Machine.finishX s' d r') := by
  cases hr with
  | ok hn => exact hn ▸ ⟨_, _, rfl, rfl, (h.setX d _).complete⟩
  | error e => exact ⟨_, _, rfl, rfl, h.raise e⟩

/-- A command on one vector whose result is made of its logical bits. -/
theorem unary (d a : VReg) {f f' : Vec → Except Err Vec} (hf : ∀ {p q}, LogicEq p q → f p = f' q) :
    EndAlike (Machine.finishV s d (s.vec a >>= f)) (Machine.finishV s' d (s'.vec a >>= f')) :=
  h.finishV d (h.operand a fun _ _ hp => .of_eq LogicEq.refl (hf hp))

/-- A command on two vectors whose result is made of their logical bits. -/
theorem binary (d a b : VReg) {f : Vec → Vec → Except Err Vec}
    (hf : ∀ {p q p₂ q₂}, LogicEq p q → LogicEq p₂ q₂ → f p p₂ = f q q₂) :
    EndAlike (Machine.finishV s d (s.vec a >>= fun p => s.vec b >>= f p))
      (Machine.finishV s' d (s'.vec a >>= fun p => s'.vec b >>= f p)) :=
  h.finishV d (h.operand a fun _ _ hp => h.operand b fun _ _ hp₂ => .of_eq LogicEq.refl (hf hp hp₂))

/-- A command on three vectors whose result is made of their logical bits. -/
theorem ternary (d a b c : VReg) {f : Vec → Vec → Vec → Except Err Vec}
    (hf : ∀ {p q p₂ q₂ p₃ q₃}, LogicEq p q → LogicEq p₂ q₂ → LogicEq p₃ q₃ → f p p₂ p₃ = f q q₂ q₃) :
    EndAlike (Machine.finishV s d (s.vec a >>= fun p => s.vec b >>= fun q => s.vec c >>= f p q))
      (Machine.finishV s' d (s'.vec a >>= fun p => s'.vec b >>= fun q => s'.vec c >>= f p q)) :=
  h.finishV d (h.operand a fun _ _ hp => h.operand b fun _ _ hp₂ => h.operand c fun _ _ hp₃ =>
    .of_eq LogicEq.refl (hf hp hp₂ hp₃))

/-- `VHASH`: the unit starts from the same state, and its run reads no vector register. -/
theorem vhash (d a : VReg) : EndAlike (execVhash d a s) (execVhash d a s') := by
  unfold execVhash
  obtain ⟨hs, hs'⟩ | ⟨p, q, hp, hq, hpq⟩ := h.2 a
  · rw [vec_of_none hs, vec_of_none hs']
    exact ⟨_, _, rfl, rfl, h.raise _⟩
  · rw [vec_of_some hp, vec_of_some hq]
    simp only [← hpq.size_eq, h.sha_eq, ← hpq.shaStart_eq]
    split
    · exact ⟨_, _, rfl, rfl, h.raise _⟩
    · exact ⟨_, _, rfl, rfl, (h.setV _ (.inr ⟨_, _, rfl, rfl, .refl _⟩)).forgetSha.complete⟩

end SameButScratch

/-- Two runs of a command other than the dumps, from states that differ only in scratch bits. -/
theorem exec_endAlike {s s' : State} (h : SameButScratch s s') (i : Instr) (notHex : ∀ d a, i ≠ .vtohex d a)
    (notDec : ∀ d a, i ≠ .vtodec d a) : EndAlike (exec i s) (exec i s') := by
  cases i with
  | nop => exact ⟨_, _, rfl, rfl, h.complete⟩
  | xli d imm => exact h.finishX d (.ok rfl)
  | xlis d imm => exact h.finishX d (.ok (by rw [h.ux_eq]))
  | vzero d a => exact h.finishV d (.of_eq LogicEq.refl (by rw [h.sx_eq]))
  | vbits d a => exact h.unary d a fun hp => hp.initFromBitString_eq
  | vuint d a b => exact h.finishV d (.of_eq LogicEq.refl (by rw [h.ux_eq, h.sx_eq]))
  | vcopy d a => exact h.finishV d (h.operand a fun _ _ hp => .ok hp.copyVec_alike)
  | vfree d => exact ⟨_, _, rfl, rfl, (h.setV d (.inl ⟨rfl, rfl⟩)).complete⟩
  | vsize d a => exact h.finishX d (h.operand a fun _ _ hp => .ok hp.size_eq)
  | vgetb d a b =>
    exact h.finishX d (h.operand a fun _ _ hp => .of_eq (fun _ => rfl) (by rw [h.sx_eq, hp.getBit_eq]))
  | vsetb d a b =>
    refine h.finishV d (h.operand d fun _ _ hp => ?_)
    rw [h.sx_eq, h.sx_eq]
    exact hp.setBit_alike _ _
  | vsety d a b =>
    refine h.finishV d (h.operand d fun _ _ hp => ?_)
    rw [h.sx_eq, h.sx_eq]
    exact hp.setByte_alike _ _
  | vsetu d a b c =>
    refine h.finishV d (h.operand d fun _ _ hp => ?_)
    rw [h.ux_eq, h.sx_eq, h.sx_eq]
    exact hp.setBytesFromUnsigned_alike _ _ _
  | vslice d a b c => exact h.unary d a fun hp => by rw [h.sx_eq, h.sx_eq, hp.slice_eq]
  | veq d a b =>
    exact h.finishX d (h.operand a fun _ _ hp => h.operand b fun _ _ hq => .ok (by rw [hp.equalVec_eq hq]))
  | vnot d a => exact h.finishV d (h.operand a fun _ _ hp => .ok hp.notVec_alike)
  | vor d a b => exact h.binary d a b fun hp hq => hp.bitwise2_eq hq _
  | vand d a b => exact h.binary d a b fun hp hq => hp.bitwise2_eq hq _
  | vxor d a b => exact h.binary d a b fun hp hq => hp.bitwise2_eq hq _
  | vchoose d a b c => exact h.ternary d a b c fun hp hq hu => hp.bitwise3_eq hq hu _
  | vmaj d a b c => exact h.ternary d a b c fun hp hq hu => hp.bitwise3_eq hq hu _
  | vshl d a b => exact h.unary d a fun hp => by rw [h.sx_eq, hp.lshift_eq]
  | vshr d a b => exact h.unary d a fun hp => by rw [h.sx_eq, hp.rshift_eq]
  | vrol d a b => exact h.unary d a fun hp => by rw [h.sx_eq, hp.lrotate_eq]
  | vror d a b => exact h.unary d a fun hp => by rw [h.sx_eq, hp.rrotate_eq]
  | vadd d a b => exact h.binary d a b fun hp hq => hp.addMod_eq hq
  | vclz d a => exact h.finishX d (h.operand a fun _ _ hp => .ok hp.leadingZeros_eq)
  | vtobin d a => exact h.unary d a fun hp => hp.toBinString_eq
  | vtohex d a => exact absurd rfl (notHex d a)
  | vtodec d a => exact absurd rfl (notDec d a)
  | vpad d a => exact h.unary d a fun hp => by rw [hp.pad_eq, hp.size_eq]
  | vhash d a => exact h.vhash d a

/-- Settles O15: operand by operand and operation by operation, only `VTOHEX` and `VTODEC` tell apart vectors that
differ in scratch bits. -/
theorem scratchBitsReachOnlyTheDumps : Obligations.ScratchBitsReachOnlyTheDumps := by
  unfold Obligations.ScratchBitsReachOnlyTheDumps
  intro i s s' t notHex notDec h ht
  obtain ⟨u, u', hu, hu', alike⟩ := exec_endAlike h i notHex notDec
  obtain rfl : u = t := Host.Outcome.next.inj (hu.symm.trans ht)
  exact ⟨u', hu', alike⟩

end Sys2Proof.Claims
end

section
/-! SUPPORT. Every step keeps the invariant (R31, R37, R40, R42, R49): first each operation on the state, then each
command by the one way it ends, then the engine's step and the moves of the outside world. -/

namespace Sys2Proof.Machine

/-! ## The operations -/

/-- `code(E)` is one of the seven codes of R179. -/
theorem errNumber_range (e : Err) : 1 ≤ (errNumber e).toNat ∧ (errNumber e).toNat ≤ 7 := by
  cases e <;> decide

namespace State.Inv

/-- The state after reset has the invariant: no vector, no queued word and no error (R51). -/
theorem reset : State.reset.Inv where
  storage := Memory.wf_reset
  depth   := Nat.zero_le _
  flushed := fun _ => rfl
  code    := fun h => nomatch h
  cleared := fun _ => ⟨rfl, rfl⟩
  unit    := rfl

variable {s : State} (h : s.Inv)
include h

/-- A vector operand is well-formed (R31). -/
theorem vec_wf {r : VReg} {v : Vec} (hv : s.getV r = some v) : v.wf = true :=
  (Memory.wf_iff s.v).mp h.storage r v hv

/-- The invariant says nothing of the scalars, `DONECNT`, `RSEL` and the model's own input and output. -/
theorem apart (x : Vector Scalar 16) (doneCnt : BitVec 32) (rsel : Rsel) (inputs : List HostEvent)
    (reads : List Word) (draws : Nat) :
    State.Inv { s with x := x, doneCnt := doneCnt, rsel := rsel, inputs := inputs, reads := reads, draws := draws } :=
  ⟨h.storage, h.depth, h.flushed, h.code, h.cleared, h.unit⟩

theorem withInputs (inputs : List HostEvent) : State.Inv { s with inputs := inputs } := h.apart ..

theorem setX (d : XReg) (y : Scalar) : (s.setX d y).Inv := h.apart ..

theorem setV (d : VReg) {o : Option Vec} (ho : ∀ v, o = some v → v.wf = true) : (s.setV d o).Inv :=
  { h with storage := Memory.wf_set d h.storage ho }

theorem forgetSha : s.forgetSha.Inv := { h with unit := rfl }

omit h in
/-- Reset during a run gives the state the invariant, whatever it was (R240, R241). -/
theorem engineReset (s : State) : s.engineReset.Inv := (reset.apart ..).forgetSha

theorem complete : s.complete.Inv where
  storage := h.storage
  depth   := Nat.le_trans (by simp) h.depth
  flushed := fun he => by simp [h.flushed he]
  code    := h.code
  cleared := h.cleared
  unit    := h.unit

theorem raise (e : Err) : (s.raise e).Inv where
  storage := h.storage
  depth   := Nat.zero_le _
  flushed := fun _ => rfl
  code    := fun _ => errNumber_range e
  cleared := fun he => nomatch he
  unit    := h.unit

theorem clearError : s.clearError.Inv where
  storage := h.storage
  depth   := h.depth
  flushed := fun he => nomatch he
  code    := fun he => nomatch he
  cleared := fun _ => ⟨rfl, rfl⟩
  unit    := h.unit

theorem enqueue (w : Word) (he : s.err = false) (room : s.queue.length < Config.CQ_DEPTH) : (s.enqueue w).Inv where
  storage := h.storage
  depth   := by simpa using room
  flushed := fun he' => nomatch he.symm.trans he'
  code    := h.code
  cleared := h.cleared
  unit    := h.unit

end State.Inv

/-! ## The commands -/

/-- A result that is not an error is a well-formed vector. -/
def WfResult (r : Except Err Vec) : Prop := ∀ v, r = .ok v → v.wf = true

theorem WfResult.ok {v : Vec} (hv : v.wf = true) : WfResult (.ok v) := fun _ e => Except.ok.inj e ▸ hv

theorem WfResult.error (e : Err) : WfResult (.error e) := fun _ h => nomatch h

/-- The padded message of `VPAD` is well-formed, as its size has been checked (R223). -/
theorem padChecked_wf (m : Vec) : WfResult
    (if m.size % 8 ≠ 0 then .error .invalidSize
     else if (pad m).size > Config.VLEN_MAX then .error .invalidSize
     else .ok (pad m)) := by
  rw [pad_eq, mkvec_size]
  split_ifs with _ hs
  · exact .error _
  · exact .error _
  · exact .ok (mkvec_wf _ (Nat.not_lt.mp hs))

/-- The command takes a next state, and it has the invariant. -/
def EndsInv (o : Host.Outcome State Fault Refusal) : Prop := ∃ t, o = .next t ∧ t.Inv

namespace State.Inv

variable {s : State} (h : s.Inv)
include h

/-- A vector operand that is not `Empty` is well-formed when the command uses it. -/
theorem operand (r : VReg) {f : Vec → Except Err Vec} (hf : ∀ v, v.wf = true → WfResult (f v)) :
    WfResult (s.vec r >>= f) := by
  cases hv : s.getV r with
  | none => rw [vec_of_none hv]; exact .error _
  | some v => rw [vec_of_some hv]; exact hf v (h.vec_wf hv)

theorem finishV (d : VReg) {r : Except Err Vec} (hr : WfResult r) : EndsInv (Machine.finishV s d r) := by
  obtain ⟨v, hv, ends⟩ | ⟨e, _, ends⟩ := finishV_next s d r
  · exact ⟨_, ends, (h.setV d fun _ e => Option.some.inj e ▸ hr v hv).complete⟩
  · exact ⟨_, ends, h.raise e⟩

theorem finishX (d : XReg) (r : Except Err Nat) : EndsInv (Machine.finishX s d r) := by
  obtain ⟨n, _, ends⟩ | ⟨e, _, ends⟩ := finishX_next s d r
  · exact ⟨_, ends, (h.setX d _).complete⟩
  · exact ⟨_, ends, h.raise e⟩

/-- A command on one vector. -/
theorem unary (d a : VReg) {f : Vec → Except Err Vec} (hf : ∀ v, v.wf = true → WfResult (f v)) :
    EndsInv (Machine.finishV s d (s.vec a >>= f)) := h.finishV d (h.operand a hf)

/-- A command on two vectors; the first decides that the result is well-formed. -/
theorem binary (d a b : VReg) {f : Vec → Vec → Except Err Vec} (hf : ∀ p q, p.wf = true → WfResult (f p q)) :
    EndsInv (Machine.finishV s d (s.vec a >>= fun p => s.vec b >>= f p)) :=
  h.unary d a fun p hp => h.operand b fun q _ => hf p q hp

/-- A command on three vectors; the first decides that the result is well-formed. -/
theorem ternary (d a b c : VReg) {f : Vec → Vec → Vec → Except Err Vec}
    (hf : ∀ p q u, p.wf = true → WfResult (f p q u)) :
    EndsInv (Machine.finishV s d (s.vec a >>= fun p => s.vec b >>= fun q => s.vec c >>= f p q)) :=
  h.binary d a b fun p q hp => h.operand c fun u _ => hf p q u hp

/-- `VHASH` writes a digest and leaves the unit `IDLE`, whatever its run did to its working fields (R221, R222). -/
theorem vhash (d a : VReg) : EndsInv (execVhash d a s) := by
  unfold execVhash
  split
  · exact ⟨_, rfl, h.raise _⟩
  · split
    · exact ⟨_, rfl, h.raise _⟩
    · exact ⟨_, rfl, (h.setV _ fun _ e => Option.some.inj e ▸ digest_wf _).forgetSha.complete⟩

/-- Every command keeps the invariant. -/
theorem exec (i : Instr) : EndsInv (Machine.exec i s) := by
  cases i with
  | nop => exact ⟨_, rfl, h.complete⟩
  | xli d imm => exact h.finishX d (.ok _)
  | xlis d imm => exact h.finishX d (.ok _)
  | vzero d a => exact h.finishV d fun _ => initZeros_wf
  | vbits d a => exact h.unary d a fun _ hv _ => initFromBitString_wf hv
  | vuint d a b => exact h.finishV d fun _ => initFromUnsigned_wf
  | vcopy d a => exact h.unary d a fun _ hv => .ok (copyVec_wf hv)
  | vfree d => exact ⟨_, rfl, (h.setV d (o := none) nofun).complete⟩
  | vsize d a => exact h.finishX d _
  | vgetb d a b => exact h.finishX d _
  | vsetb d a b => exact h.unary d d fun _ hv _ => setBit_wf hv
  | vsety d a b => exact h.unary d d fun _ hv _ => setByte_wf hv
  | vsetu d a b c => exact h.unary d d fun _ hv _ => setBytesFromUnsigned_wf hv
  | vslice d a b c => exact h.unary d a fun _ hv _ => slice_wf hv
  | veq d a b => exact h.finishX d _
  | vnot d a => exact h.unary d a fun _ hv => .ok (notVec_wf hv)
  | vor d a b => exact h.binary d a b fun _ _ hp _ => bitwise2_wf hp
  | vand d a b => exact h.binary d a b fun _ _ hp _ => bitwise2_wf hp
  | vxor d a b => exact h.binary d a b fun _ _ hp _ => bitwise2_wf hp
  | vchoose d a b c => exact h.ternary d a b c fun _ _ _ hp _ => bitwise3_wf hp
  | vmaj d a b c => exact h.ternary d a b c fun _ _ _ hp _ => bitwise3_wf hp
  | vshl d a b => exact h.unary d a fun _ hv => .ok (lshift_wf _ hv)
  | vshr d a b => exact h.unary d a fun _ hv => .ok (rshift_wf _ hv)
  | vrol d a b => exact h.unary d a fun _ hv => .ok (lrotate_wf _ hv)
  | vror d a b => exact h.unary d a fun _ hv => .ok (rrotate_wf _ hv)
  | vadd d a b => exact h.binary d a b fun _ _ hp _ => addMod_wf hp
  | vclz d a => exact h.finishX d _
  | vtobin d a => exact h.unary d a fun _ _ _ => textVec_wf
  | vtohex d a => exact h.unary d a fun _ _ _ => textVec_wf
  | vtodec d a => exact h.unary d a fun _ _ _ => textVec_wf
  | vpad d a => exact h.unary d a fun m _ => padChecked_wf m
  | vhash d a => exact h.vhash d a

/-! ## The two agents -/

/-- The engine's step keeps the invariant. -/
theorem engineStep {t : State} (ht : Machine.engineStep s = .next t) : t.Inv := by
  obtain ⟨_, _, _, _, ⟨i, _, hi⟩ | ⟨_, _, rfl⟩⟩ := engineStep_next ht
  · obtain ⟨u, hu, inv⟩ := h.exec i
    exact Host.Outcome.next.inj (hu.symm.trans hi) ▸ inv
  · exact h.raise _

/-- A host read changes nothing the invariant speaks of (R65). -/
theorem hostRead (r : HostReg) : (s.hostRead r).Inv := by
  unfold State.hostRead
  split <;> exact h.apart ..

theorem writeCtrl (w : Word) : (s.writeCtrl w).Inv := by
  unfold State.writeCtrl
  split_ifs
  · exact .engineReset s
  · exact h.clearError
  · exact h

/-- A host write keeps the invariant, when a write of `CMD` with no error recorded finds room in the queue. -/
theorem hostWrite (r : HostReg) (w : Word)
    (room : r = .cmd → s.err = false → s.queue.length < Config.CQ_DEPTH) : (s.hostWrite r w).Inv := by
  cases r with
  | cmd =>
    show (s.writeCmd w).Inv
    unfold State.writeCmd
    split
    · exact h
    · next he =>
      have he : s.err = false := by simpa using he
      exact h.enqueue w he (room rfl he)
  | ctrl => exact h.writeCtrl w
  | rsel => exact h.apart ..
  | status | errcmd | donecnt | rdlo | rdhi | rvinfo | reserved => exact h

/-- A move of the outside world that is not held keeps the invariant. -/
theorem hostStep {t : State} {ev : HostEvent} (free : s.held ev = false) (ht : Machine.hostStep s ev = .next t) :
    t.Inv := by
  obtain ⟨_, rfl⟩ | ⟨_, rfl⟩ | ⟨_, off, _, rfl⟩ | ⟨width, off, data, rfl, rfl⟩ := hostStep_next ht
  · exact .engineReset s
  · exact h
  · exact h.hostRead _
  · have supported : accessOk width off = true := by
      by_contra bad
      rw [(hostStep_unsupported s data (Bool.not_eq_true _ ▸ bad)).2] at ht
      cases ht
    refine h.hostWrite _ _ fun cmd he => ?_
    simpa [State.held, supported, cmd, he] using free

/-- A step of the machine keeps the invariant. -/
theorem step {t : State} (ht : Machine.step s = .next t) : t.Inv := by
  obtain ⟨_, eq⟩ | ⟨rest, _, _, eq⟩ | ⟨rest, _, _, eq⟩ | ⟨ev, rest, _, _, eq⟩ | ⟨ev, rest, _, free, eq⟩ :=
    step_cases s <;> rw [eq] at ht
  · exact h.engineStep ht
  · exact (h.withInputs rest).engineStep ht
  · exact Host.Outcome.next.inj ht ▸ h.withInputs rest
  · exact h.engineStep ht
  · exact (h.withInputs rest).hostStep free ht

end State.Inv

end Sys2Proof.Machine

namespace Sys2Proof.Claims

open Sys2Proof.Machine

/-- Settles O8: the engine moves or the outside world does, and each move keeps the invariant. -/
theorem stepKeepsTheInvariant : Obligations.StepKeepsTheInvariant := by
  unfold Obligations.StepKeepsTheInvariant
  exact fun _ _ h ht => h.step ht

/-- Settles O9: the base case of O8's invariant. -/
theorem resetHasTheInvariant : Obligations.ResetHasTheInvariant := State.Inv.reset

end Sys2Proof.Claims
end

section
/-! SUPPORT. One rule for each access of the host and, bit by bit or byte by byte, the words it reads (R39 to R48). -/

namespace Sys2Proof.Claims

open Sys2Proof.Machine

/-! ## The accesses -/

/-- Where its value is specified, a host read returns it and changes nothing else (R65, R175). -/
theorem hostReads_regValue {s : State} {off : Nat} (h4 : off % 4 = 0) (hb : off < Config.BLOCK_LEN)
    (specified : s.readIsFree (hostRegAt off) = false) : HostReads s off (s.regValue (hostRegAt off)) := by
  have move : step { s with inputs := .read 32 off :: s.inputs } = hostStep s (.read 32 off) := rfl
  rw [HostReads, move, hostStep_read s h4 hb, State.hostRead, specified]
  rfl

/-- A host write that is not held has the effect of its register (R39). -/
theorem hostWrites_hostWrite {s : State} {off : Nat} (w : Word) (h4 : off % 4 = 0) (hb : off < Config.BLOCK_LEN)
    (free : s.held (.write 32 off w) = false) : HostWrites s off w (s.hostWrite (hostRegAt off) w) := by
  have move : step { s with inputs := .write 32 off w :: s.inputs } =
      if s.held (.write 32 off w) then engineStep { s with inputs := .write 32 off w :: s.inputs }
      else hostStep s (.write 32 off w) := rfl
  rw [HostWrites, move, free, ← hostStep_write s w h4 hb]
  rfl

/-- Only the registers that show a selected register ever read as an unspecified value (R175). -/
theorem hostReads_plain (s : State) {off : Nat} (h4 : off % 4 = 0) (hb : off < Config.BLOCK_LEN)
    (plain : hostRegAt off ∉ [.rdlo, .rdhi, .rvinfo]) : HostReads s off (s.regValue (hostRegAt off)) := by
  have other : hostRegAt off ≠ .rdlo ∧ hostRegAt off ≠ .rdhi ∧ hostRegAt off ≠ .rvinfo := by simpa using plain
  exact hostReads_regValue h4 hb (by simp [State.readIsFree, other])

/-- With an empty queue, every host read is specified (R175). -/
theorem hostReads_idle {s : State} (idle : s.queue = []) {off : Nat} (h4 : off % 4 = 0) (hb : off < Config.BLOCK_LEN) :
    HostReads s off (s.regValue (hostRegAt off)) :=
  hostReads_regValue h4 hb (by simp [State.readIsFree, State.busy, idle])

/-- Only a write of `CMD` can be held (R173). -/
theorem hostWrites_of_ne_cmd (s : State) {off : Nat} (w : Word) (h4 : off % 4 = 0) (hb : off < Config.BLOCK_LEN)
    (other : hostRegAt off ≠ .cmd) : HostWrites s off w (s.hostWrite (hostRegAt off) w) :=
  hostWrites_hostWrite w h4 hb (by simp [State.held, other])

/-- The offsets past the table of R39 are reserved (R48). -/
theorem hostRegAt_reserved {off : Nat} (h : 0x24 ≤ off) : hostRegAt off = .reserved := by
  unfold hostRegAt
  iterate 9 rw [if_neg (by omega)]

/-! ## The words -/

/-- `STATUS` bit by bit (R40). -/
theorem status_getLsbD (s : State) {k : Nat} (hk : k < 32) : s.status.getLsbD k =
    if k = 0 then !s.queue.isEmpty
    else if k = 1 then s.err
    else if 8 ≤ k ∧ k < 16 then s.errCode.getLsbD (k - 8)
    else false := by
  simp only [State.status, State.busy, BitVec.getLsbD_append]
  interval_cases k <;> simp

/-- Bits 15:8 of `STATUS` are `ERRCODE` (R40). -/
theorem status_errCode (s : State) : s.status.extractLsb' 8 8 = s.errCode := by
  apply BitVec.eq_of_getLsbD_eq
  intro i hi
  rw [BitVec.getLsbD_extractLsb', status_getLsbD s (by omega)]
  simp [hi, show ¬ 8 + i = 1 by omega, show 8 + i < 16 by omega]

/-- What is written to `RSEL` reads back with bits 15:5 as 0 (R44). -/
theorem rselOf_word (w : Word) : (rselOf w).word = w &&& 0xFFFF001F := by
  apply BitVec.eq_of_getLsbD_eq
  intro i hi
  simp only [Rsel.word, rselOf, BitVec.getLsbD_append, BitVec.getLsbD_and, BitVec.getLsbD_extractLsb']
  interval_cases i <;> simp

/-- Of four bytes put together, the first is in bits 31:24 and the last in bits 7:0 (R62). -/
theorem extractLsb'_four_bytes (g : Nat → Byte) {n : Nat} (h : n < 4) :
    (g 0 ++ g 1 ++ g 2 ++ g 3).extractLsb' (24 - 8 * n) 8 = g n := by
  apply BitVec.eq_of_getLsbD_eq
  intro i hi
  simp only [BitVec.getLsbD_extractLsb', BitVec.getLsbD_append]
  interval_cases n <;> interval_cases i <;> simp

/-- With `Empty` selected, every byte reads as 0 (R45). -/
theorem selectedByte_of_none {s : State} (empty : s.getV (regOf s.rsel.reg) = none) (k : Nat) : s.selectedByte k = 0 := by
  rw [State.selectedByte, State.readByte, empty]
  rfl

/-- With a vector selected, its storage bytes are read, and 0 past them (R45). -/
theorem selectedByte_of_some {s : State} {v : Vec} (present : s.getV (regOf s.rsel.reg) = some v) (k : Nat) :
    s.selectedByte k = if k < nbytes v.size then v.byte k else 0 := by
  rw [State.selectedByte, State.readByte, present]
  exact apply_ite (Option.getD · 0) _ _ _

/-- Byte `n` of `RDLO` with `SPACE` = 1 (R45). -/
theorem rdlo_byte {s : State} (space : s.rsel.space = true) {n : Nat} (h : n < 4) :
    s.rdlo.extractLsb' (24 - 8 * n) 8 = s.selectedByte (s.rsel.boff.toNat + n) := by
  rw [State.rdlo, if_pos space]
  exact extractLsb'_four_bytes (fun n => s.selectedByte (s.rsel.boff.toNat + n)) h

/-- `RVINFO` of a register that holds a vector, as a number: bit 31 and the size below it (R47). -/
theorem rvinfo_of_some {s : State} {v : Vec} (space : s.rsel.space = true) (present : s.getV (regOf s.rsel.reg) = some v)
    (h : v.size ≤ Config.VLEN_MAX) : s.rvinfo = BitVec.ofNat 32 (2 ^ 31 + v.size) := by
  have word : s.rvinfo = 0x4000#15 ++ BitVec.ofNat 17 v.size := by
    rw [State.rvinfo, if_pos space, State.selectedV, present]
    rfl
  have fits : v.size < 2 ^ 17 := Nat.lt_of_le_of_lt h (by decide)
  apply BitVec.eq_of_toNat_eq
  rw [word, BitVec.toNat_append, BitVec.toNat_ofNat, BitVec.toNat_ofNat, BitVec.toNat_ofNat, Nat.mod_eq_of_lt fits,
    ← Nat.shiftLeft_add_eq_or_of_lt fits]
  omega

end Sys2Proof.Claims
end

section
/-! SUPPORT. What the host reads and writes, and what a reset leaves. -/

namespace Sys2Proof.Claims

open Sys2Proof.Machine

/-- Settles O55: with an empty queue the three reads are specified, and their words are taken apart byte by byte. -/
theorem readDataShowsTheSelectedRegister : Obligations.ReadDataShowsTheSelectedRegister := by
  unfold Obligations.ReadDataShowsTheSelectedRegister
  intro s idle
  have rdlo : HostReads s 0x18 s.rdlo := hostReads_idle idle rfl (by decide)
  have rdhi : HostReads s 0x1C s.rdhi := hostReads_idle idle rfl (by decide)
  have rvinfo : HostReads s 0x20 s.rvinfo := hostReads_idle idle rfl (by decide)
  refine ⟨fun scalar => ?_, fun vector => ⟨⟨_, rdlo, fun n hn => ?_⟩, ?_, fun empty => ?_, fun v present hv => ?_⟩⟩
  · simp only [State.rdlo, State.rdhi, State.rvinfo, scalar] at rdlo rdhi rvinfo
    exact ⟨rdlo, rdhi, rvinfo⟩
  · rw [rdlo_byte vector hn]
    cases selected : s.getV (regOf s.rsel.reg) with
    | none => exact selectedByte_of_none selected _
    | some v => exact selectedByte_of_some selected _
  · rwa [State.rdhi, if_pos vector] at rdhi
  · rwa [State.rvinfo, if_pos vector, State.selectedV, empty] at rvinfo
  · rwa [rvinfo_of_some vector present hv] at rvinfo

/-- Settles O10: `SRESET` and power-on both make `State.engineReset`, which has the values of `State.reset`. -/
theorem resetLeavesTheStatedValues : Obligations.ResetLeavesTheStatedValues := by
  unfold Obligations.ResetLeavesTheStatedValues
  intro s w sreset t ht
  have reset : t = State.reset ∨ t = s.engineReset := by
    obtain rfl | written | powered := ht
    · exact .inl rfl
    · have effect : s.writeCtrl w = s.engineReset := if_pos sreset
      have write : HostWrites s 0x08 w (s.writeCtrl w) :=
        hostWrites_of_ne_cmd s w rfl (by decide) (by decide)
      exact .inr (Host.Outcome.next.inj (written.symm.trans (effect ▸ write)))
    · exact .inr (Host.Outcome.next.inj powered.symm)
  obtain rfl | rfl := reset <;>
    exact ⟨fun r => by simp [State.getV, State.reset], fun r => by simp [State.getX, State.reset], rfl, rfl, rfl, rfl,
      rfl, rfl, rfl⟩

/-- Settles O52: `STATUS` bit by bit, and the invariant's clauses on the error state. -/
theorem statusReadShowsBusyErrAndCode : Obligations.StatusReadShowsBusyErrAndCode := by
  unfold Obligations.StatusReadShowsBusyErrAndCode
  intro s
  have read : HostReads s 0x04 s.status := hostReads_plain s rfl (by decide) (by decide)
  refine ⟨_, read, fun k hk => status_getLsbD s hk, fun inv => ⟨?_, ?_⟩⟩
  · rintro ⟨busy, err⟩
    rw [status_getLsbD s (by decide)] at busy err
    simp [inv.flushed err] at busy
  · rw [status_errCode]
    cases err : s.err with
    | true => exact (inv.code err).2
    | false => simp [(inv.cleared err).1]

/-- Settles O53: what each of these registers reads, and that a write of it is ignored. -/
theorem plainReadsAndIgnoredWrites : Obligations.PlainReadsAndIgnoredWrites := by
  unfold Obligations.PlainReadsAndIgnoredWrites
  intro s w
  have reads {off : Nat} := @hostReads_plain s off
  have writes {off : Nat} := @hostWrites_of_ne_cmd s off w
  refine ⟨reads rfl (by decide) (by decide), reads rfl (by decide) (by decide), reads rfl (by decide) (by decide),
    reads rfl (by decide) (by decide), fun off low high h4 => ?_, ?_⟩
  · have reserved := hostRegAt_reserved low
    have inBlock : off < Config.BLOCK_LEN := Nat.lt_of_le_of_lt high (by decide)
    have read := reads h4 inBlock (by simp [reserved])
    have write := writes h4 inBlock (by simp [reserved])
    rw [reserved] at read write
    exact ⟨read, write⟩
  · intro off readOnly
    fin_cases readOnly <;> exact writes rfl (by decide) (by decide)

/-- Settles O54: the write sets the fields, and the fields read back give the word with bits 15:5 cleared. -/
theorem rselReadsAsWritten : Obligations.RselReadsAsWritten := by
  unfold Obligations.RselReadsAsWritten
  intro s w
  have write : HostWrites s 0x14 w { s with rsel := rselOf w } :=
    hostWrites_of_ne_cmd s w rfl (by decide) (by decide)
  have read : HostReads { s with rsel := rselOf w } 0x14 (rselOf w).word :=
    hostReads_plain _ rfl (by decide) (by decide)
  exact ⟨_, write, rfl, rfl, rfl, rfl, rselOf_word w ▸ read⟩

end Sys2Proof.Claims
end

section
/-! SUPPORT. How a command that completes ends: with the result of its operation in its destination, and what the
operations that modify a register in place store to (R64, R171, R180). -/

namespace Sys2Proof.Machine

/-! ## Results -/

/-- A result that is not an error has the property. -/
def Yields (P : Vec → Prop) (r : Except Err Vec) : Prop := ∀ v, r = .ok v → P v

namespace Yields

variable {P : Vec → Prop}

theorem ok {v : Vec} (hv : P v) : Yields P (.ok v) := fun _ e => Except.ok.inj e ▸ hv

theorem error (e : Err) : Yields P (.error e) := fun _ h => nomatch h

/-- An operation on a vector operand, which holds a vector when the operation has a result. -/
theorem operand_of {s : State} (a : VReg) {f : Vec → Except Err Vec}
    (hf : ∀ p, s.getV a = some p → Yields P (f p)) : Yields P (s.vec a >>= f) := by
  cases ha : s.getV a with
  | none => rw [vec_of_none ha]; exact .error _
  | some p => rw [vec_of_some ha]; exact hf p ha

theorem operand {s : State} (a : VReg) {f : Vec → Except Err Vec} (hf : ∀ p, Yields P (f p)) :
    Yields P (s.vec a >>= f) := .operand_of a fun p _ => hf p

end Yields

/-! ## The ends of a command -/

variable {s t : State}

/-- Every next state of a command that writes a vector register. -/
theorem next_of_finishV {d : VReg} {r : Except Err Vec} (h : finishV s d r = .next t) :
    (∃ v, r = .ok v ∧ t = (s.setV d (some v)).complete) ∨ ∃ e, t = s.raise e := by
  obtain ⟨v, hv, ends⟩ | ⟨e, _, ends⟩ := finishV_next s d r
  · exact .inl ⟨v, hv, Host.Outcome.next.inj (h.symm.trans ends)⟩
  · exact .inr ⟨e, Host.Outcome.next.inj (h.symm.trans ends)⟩

/-- Every next state of a command that writes a scalar register. -/
theorem next_of_finishX {d : XReg} {r : Except Err Nat} (h : finishX s d r = .next t) :
    (∃ y, t = (s.setX d y).complete) ∨ ∃ e, t = s.raise e := by
  obtain ⟨n, _, ends⟩ | ⟨e, _, ends⟩ := finishX_next s d r
  · exact .inl ⟨_, Host.Outcome.next.inj (h.symm.trans ends)⟩
  · exact .inr ⟨e, Host.Outcome.next.inj (h.symm.trans ends)⟩

/-- No step of the SHA-256 unit changes `DEST`. -/
theorem shaStep_dest (u : ShaUnit) : (shaStep u).dest = u.dest := by
  cases phase : u.phase with
  | idle => rw [shaStep_idle phase]
  | load => rw [shaStep_load phase]; rfl
  | sched =>
    by_cases ht : u.t < 64
    · rw [shaStep_sched phase ht]
    · rw [shaStep_sched_end phase ht]
  | round =>
    by_cases ht : u.t < 64
    · rw [shaStep_round phase ht]
    · rw [shaStep_round_end phase ht]
  | update => rw [shaStep_update phase]; rfl
  | done => rw [shaStep_done phase]

theorem shaRun_dest (n : Nat) (u : ShaUnit) : (shaRun n u).dest = u.dest := by
  rw [shaRun_eq_iterate]
  induction n with
  | zero => rfl
  | succ n ih => rw [Function.iterate_succ_apply', shaStep_dest, ih]

/-- Every next state of `VHASH`: it wrote a digest to its own destination, or raised (R221, R222). -/
theorem next_of_execVhash {d a : VReg} (h : execVhash d a s = .next t) :
    (∃ u : ShaUnit, t = (s.setV d (some u.digest)).forgetSha.complete) ∨ ∃ e, t = s.raise e := by
  unfold execVhash at h
  split at h
  · exact .inr ⟨_, (Host.Outcome.next.inj h).symm⟩
  · split at h
    · exact .inr ⟨_, (Host.Outcome.next.inj h).symm⟩
    · simp only [shaRun_dest] at h
      exact .inl ⟨_, (Host.Outcome.next.inj h).symm⟩

/-! ## Bytes stored in place -/

/-- `r` has the size of `p`, and its storage bytes outside `S`. -/
def KeepsBut (S : Nat → Prop) (p r : Vec) : Prop :=
  r.size = p.size ∧ ∀ k < nbytes p.size, ¬ S k → r.byte k = p.byte k

variable {S : Nat → Prop}

theorem memWrite_keepsBut (p : Vec) (k : Nat) (bs : List Byte) (hS : ∀ j, k ≤ j → j < k + bs.length → S j) :
    KeepsBut S p (p.memWrite k bs) := by
  refine ⟨rfl, fun j hj outside => ?_⟩
  rw [memWrite_byte k bs hj, if_neg fun inside => outside (hS j inside.1 inside.2)]

/-- `MemWrite` of one byte. -/
theorem memWrite_singleton_keepsBut (p : Vec) {k : Nat} (b : Byte) (hS : S k) : KeepsBut S p (p.memWrite k [b]) :=
  memWrite_keepsBut p k [b] fun _ low high => Nat.le_antisymm low (Nat.le_of_lt_succ high) ▸ hS

theorem setBit_keepsBut (p : Vec) (i x : Int) (hS : S (i.toNat / 8)) : Yields (KeepsBut S p) (setBit p i x) := by
  unfold setBit
  split_ifs
  · exact .error _
  · exact .error _
  · exact .ok (memWrite_singleton_keepsBut p _ hS)

theorem setByte_keepsBut (p : Vec) (k x : Int) (hS : S k.toNat) : Yields (KeepsBut S p) (setByte p k x) := by
  unfold setByte
  split_ifs
  · exact .error _
  · exact .error _
  · exact .ok (memWrite_singleton_keepsBut p _ hS)

theorem setBytesFromUnsigned_keepsBut (p : Vec) (value : Nat) (i n : Int)
    (hS : ∀ j, i.toNat ≤ j → j < i.toNat + n.toNat → S j) :
    Yields (KeepsBut S p) (setBytesFromUnsigned p value i n) := by
  unfold setBytesFromUnsigned
  split_ifs
  · exact .error _
  · exact .error _
  · exact .ok (memWrite_keepsBut p _ _ (by simpa using hS))

/-- What a register reads as is decided by its contents (R60). -/
theorem readByte_congr {r : VReg} (h : t.getV r = s.getV r) (k : Nat) : t.readByte r k = s.readByte r k := by
  rw [State.readByte, State.readByte, h]

/-- A register read after a vector was written that keeps its bytes outside `S`. -/
theorem readByte_setV_of_keepsBut {d : VReg} {p v : Vec} (present : s.getV d = some p) (keeps : KeepsBut S p v)
    {k : Nat} (outside : ¬ S k) : (s.setV d (some v)).readByte d k = s.readByte d k := by
  obtain ⟨size, bytes⟩ := keeps
  rw [State.readByte, State.readByte, State.getV_setV_self, present]
  simp only [size]
  split
  · next hk => rw [bytes k hk outside]
  · rfl

end Sys2Proof.Machine
end

section
/-! SUPPORT. The frame of every command (R64, R171, R180): first of each way a command ends, then of each command by
the way it ends. -/

namespace Sys2Proof.Claims

open Sys2Proof.Machine

/-- What `i` leaves unchanged from `s` to `t`: every register but its destination, every storage byte it does not store
to, `RSEL`, the host's side and, unless it is `VHASH`, the SHA-256 unit. -/
structure Frame (i : Instr) (s t : State) : Prop where
  vectors : ∀ r : VReg, vDest i ≠ some r → t.getV r = s.getV r
  scalars : ∀ r : XReg, xDest i ≠ some r → t.getX r = s.getX r
  bytes   : ∀ (r : VReg) (k : Nat), ¬ storesTo i s r k → t.readByte r k = s.readByte r k
  rsel    : t.rsel = s.rsel
  inputs  : t.inputs = s.inputs
  reads   : t.reads = s.reads
  unit    : (∀ d a, i ≠ .vhash d a) → t.sha = s.sha ∧ t.draws = s.draws

namespace Frame

variable {i : Instr} {s t : State}

theorem refl (i : Instr) (s : State) : Frame i s s :=
  ⟨fun _ _ => rfl, fun _ _ => rfl, fun _ _ _ => rfl, rfl, rfl, rfl, fun _ => ⟨rfl, rfl⟩⟩

theorem raise (i : Instr) (s : State) (e : Err) : Frame i s (s.raise e) := { refl i s with }

theorem complete (h : Frame i s t) : Frame i s t.complete := { h with }

theorem forgetSha {d a : VReg} (h : Frame (.vhash d a) s t) : Frame (.vhash d a) s t.forgetSha :=
  { h with unit := fun other => absurd rfl (other d a) }

theorem setX {d : XReg} (y : Scalar) (dest : xDest i = some d) : Frame i s (s.setX d y) :=
  { refl i s with scalars := fun r hr => s.getX_setX_ne d r y fun e => hr (e ▸ dest) }

/-- A write of the destination, when its bytes that the command does not store to read as before. -/
theorem setV {d : VReg} {o : Option Vec} (dest : vDest i = some d)
    (stored : ∀ k, ¬ storesTo i s d k → (s.setV d o).readByte d k = s.readByte d k) : Frame i s (s.setV d o) :=
  { refl i s with
    vectors := fun r hr => s.getV_setV_ne d r o fun e => hr (e ▸ dest)
    bytes := fun r k hk => by
      by_cases hr : r = d
      · subst hr
        exact stored k hk
      · exact readByte_congr (s.getV_setV_ne d r o hr) k }

theorem finishX {d : XReg} {r : Except Err Nat} (dest : xDest i = some d) (h : Machine.finishX s d r = .next t) :
    Frame i s t := by
  obtain ⟨y, rfl⟩ | ⟨e, rfl⟩ := next_of_finishX h
  · exact (setX y dest).complete
  · exact raise i s e

/-- A write of the destination by a command that stores to all of it. -/
theorem setV_whole {d : VReg} (o : Option Vec) (dest : vDest i = some d) (whole : ∀ k, storesTo i s d k) :
    Frame i s (s.setV d o) := setV dest fun k outside => absurd (whole k) outside

/-- A command that stores to all of its destination. -/
theorem finishV {d : VReg} {r : Except Err Vec} (dest : vDest i = some d) (whole : ∀ k, storesTo i s d k)
    (h : Machine.finishV s d r = .next t) : Frame i s t := by
  obtain ⟨v, _, rfl⟩ | ⟨e, rfl⟩ := next_of_finishV h
  · exact (setV_whole _ dest whole).complete
  · exact raise i s e

/-- A command that modifies its destination in place. -/
theorem modify {d : VReg} {f : Vec → Except Err Vec} (dest : vDest i = some d)
    (keeps : ∀ p, Yields (KeepsBut (storesTo i s d) p) (f p)) (h : Machine.finishV s d (s.vec d >>= f) = .next t) :
    Frame i s t := by
  have result : Yields (fun v => ∃ p, s.getV d = some p ∧ KeepsBut (storesTo i s d) p v) (s.vec d >>= f) :=
    .operand_of d fun p present v hv => ⟨p, present, keeps p v hv⟩
  obtain ⟨v, hv, rfl⟩ | ⟨e, rfl⟩ := next_of_finishV h
  · obtain ⟨p, present, kept⟩ := result v hv
    exact (setV dest fun _ outside => readByte_setV_of_keepsBut present kept outside).complete
  · exact raise i s e

theorem vhash {d a : VReg} (h : execVhash d a s = .next t) : Frame (.vhash d a) s t := by
  obtain ⟨u, rfl⟩ | ⟨e, rfl⟩ := next_of_execVhash h
  · exact complete (forgetSha (setV_whole _ rfl fun _ => rfl))
  · exact raise _ s e

theorem exec (h : Machine.exec i s = .next t) : Frame i s t := by
  cases i with
  | nop => exact Host.Outcome.next.inj h ▸ (refl _ s).complete
  | xli | xlis => exact finishX (r := .ok _) rfl h
  | vsize | vgetb | veq | vclz => exact finishX rfl h
  | vfree d =>
    obtain rfl := Host.Outcome.next.inj h
    exact complete (setV_whole none rfl fun _ => rfl)
  | vsetb d a b => exact modify rfl (fun p => setBit_keepsBut p _ _ ⟨rfl, rfl⟩) h
  | vsety d a b => exact modify rfl (fun p => setByte_keepsBut p _ _ ⟨rfl, rfl⟩) h
  | vsetu d a b c =>
    exact modify rfl (fun p => setBytesFromUnsigned_keepsBut p _ _ _ fun _ low high => ⟨rfl, low, high⟩) h
  | vzero | vbits | vuint | vcopy | vslice | vnot | vor | vand | vxor | vchoose | vmaj | vshl | vshr | vrol | vror
  | vadd | vtobin | vtohex | vtodec | vpad => exact finishV rfl (fun _ => rfl) h
  | vhash d a => exact vhash h

end Frame

/-- Settles O13: a command raises or completes, and what it then writes is its destination, or the selected bytes of
it. -/
theorem onlyTheDestinationChanges : Obligations.OnlyTheDestinationChanges := by
  unfold Obligations.OnlyTheDestinationChanges
  intro i s t h
  obtain ⟨vectors, scalars, bytes, rsel, inputs, reads, unit⟩ := Frame.exec h
  exact ⟨vectors, scalars, bytes, rsel, inputs, reads, unit⟩

end Sys2Proof.Claims
end

section
/-! SUPPORT. The scratch bits of results (R9, R67): of each operation, and of what a completing command leaves in its
destination. -/

namespace Sys2Proof.Claims

open Sys2Proof.Machine

/-! ## Operations whose result has scratch bits 0 -/

theorem clean_iff (v : Vec) :
    v.clean = true ↔ ∀ j, v.size ≤ j → j < 8 * nbytes v.size → v.bit j = false := by
  simp only [Vec.clean, List.all_eq_true, List.mem_range, Bool.or_eq_true, Bool.not_eq_true', decide_eq_true_eq]
  constructor
  · exact fun h j low high => (h j high).resolve_left (Nat.not_lt.mpr low)
  · exact fun h j high => (Nat.lt_or_ge j v.size).imp_right fun low => h j low high

/-- A vector of whole bytes has no scratch bits. -/
theorem ofBytes_whole_clean (n : Nat) (g : Nat → Byte) : (ofBytes (8 * n) g).clean = true := by
  rw [clean_iff, ofBytes_size, nbytes_mul8]
  exact fun j low high => absurd high (Nat.not_lt.mpr low)

/-- The result is an error or has scratch bits 0. -/
def Clean : Except Err Vec → Prop := Yields (Vec.clean · = true)

theorem initZeros_clean (n : Int) : Clean (initZeros n) := by
  unfold initZeros
  split
  · exact .ok (mkvec_clean _ _)
  · exact .error _

theorem initFromBitString_clean (p : Vec) : Clean (initFromBitString p) := by
  unfold initFromBitString
  split_ifs
  · exact .error _
  · exact .ok (mkvec_clean _ _)
  · exact .error _

theorem initFromUnsigned_clean (value : Nat) (m : Int) : Clean (initFromUnsigned value m) := by
  unfold initFromUnsigned
  split
  · exact .ok (ofBytes_whole_clean _ _)
  · exact .error _

theorem slice_clean (p : Vec) (i e : Int) : Clean (slice p i e) := by
  unfold slice
  split
  · exact .error _
  · exact .ok (mkvec_clean _ _)

theorem bitwise2_clean (f : Bool → Bool → Bool) (p q : Vec) : Clean (bitwise2 f p q) := by
  unfold bitwise2
  split
  · exact .error _
  · exact .ok (mkvec_clean _ _)

theorem bitwise3_clean (f : Bool → Bool → Bool → Bool) (p q u : Vec) : Clean (bitwise3 f p q u) := by
  unfold bitwise3
  split
  · exact .error _
  · exact .ok (mkvec_clean _ _)

theorem lshift_clean (p : Vec) (c : Int) : (lshift p c).clean = true := by
  unfold lshift
  split <;> exact mkvec_clean _ _

theorem rshift_clean (p : Vec) (c : Int) : (rshift p c).clean = true := by
  unfold rshift
  split <;> exact mkvec_clean _ _

theorem lrotate_clean (p : Vec) (c : Int) : (lrotate p c).clean = true := by
  unfold lrotate
  split <;> exact mkvec_clean _ _

theorem rrotate_clean (p : Vec) (c : Int) : (rrotate p c).clean = true := by
  unfold rrotate
  split <;> exact mkvec_clean _ _

theorem addMod_clean (p q : Vec) : Clean (addMod p q) := by
  unfold addMod
  split
  · exact .error _
  · exact .ok (mkvec_clean _ _)

theorem textVec_clean (n : Nat) (g : Nat → Byte) : Clean (textVec n g) := by
  unfold textVec
  split
  · exact .error _
  · exact .ok (ofBytes_whole_clean _ _)

/-- The result of `VPAD` (R223). -/
theorem padChecked_clean (p : Vec) : Clean
    (if p.size % 8 ≠ 0 then .error .invalidSize
     else if (pad p).size > Config.VLEN_MAX then .error .invalidSize
     else .ok (pad p)) := by
  rw [pad_eq]
  split_ifs
  · exact .error _
  · exact .error _
  · exact .ok (mkvec_clean _ _)

/-! ## Operations whose result keeps or complements scratch bits -/

/-- `r` has the size of `p`, and each scratch bit of `r` is `f` of the one of `p`. -/
def ScratchFrom (f : Bool → Bool) (p r : Vec) : Prop :=
  r.size = p.size ∧ ∀ j, p.size ≤ j → j < 8 * nbytes p.size → r.bit j = f (p.bit j)

theorem copyVec_scratch (p : Vec) : ScratchFrom id p (copyVec p) :=
  ⟨rfl, fun _ _ stored => ofBytes_bit p.byte stored⟩

theorem notVec_scratch (p : Vec) : ScratchFrom (!·) p (notVec p) := by
  refine ⟨rfl, fun j _ stored => ?_⟩
  have position : 7 - j % 8 < 8 := by omega
  rw [notVec, ofBytes_bit _ stored, BitVec.getLsbD_not, decide_eq_true position, Bool.true_and, Vec.bit]

/-- The bit that is set is a logical one, so it is none of the scratch bits. -/
theorem setBit_scratch (p : Vec) (i x : Int) : Yields (ScratchFrom id p) (setBit p i x) := by
  unfold setBit
  split_ifs with range
  · exact .error _
  · exact .error _
  · refine .ok ⟨rfl, fun j scratch stored => ?_⟩
    have logical : i.toNat < p.size := by
      simp only [indexOk, Bool.not_eq_true', Bool.not_eq_false, Bool.and_eq_true, decide_eq_true_eq] at range
      omega
    rw [putBit_bit _ stored, if_neg (by omega), id]

/-! ## Commands that complete -/

variable {s t : State}

/-- A command that raises an error is not counted as done (R43, R180). -/
theorem raise_not_done (s : State) (e : Err) : (s.raise e).doneCnt ≠ s.doneCnt + 1 := by
  rw [State.raise_doneCnt]
  bv_omega

/-- A completing command leaves its result in its destination. -/
theorem getV_of_done {d : VReg} {r : Except Err Vec} {P : Vec → Prop} (h : finishV s d r = .next t)
    (done : t.doneCnt = s.doneCnt + 1) (hr : Yields P r) : ∃ v, t.getV d = some v ∧ P v := by
  obtain ⟨v, hv, rfl⟩ | ⟨e, rfl⟩ := next_of_finishV h
  · exact ⟨v, s.getV_setV_self d _, hr v hv⟩
  · exact absurd done (raise_not_done s e)

/-- A command whose result has scratch bits 0 leaves such a vector in its destination. -/
theorem clean_of_done {d : VReg} {r : Except Err Vec} (h : finishV s d r = .next t)
    (done : t.doneCnt = s.doneCnt + 1) (hr : Clean r) :
    ∃ v, t.getV d = some v ∧ ∀ j, v.size ≤ j → j < 8 * nbytes v.size → v.bit j = false := by
  obtain ⟨v, hv, clean⟩ := getV_of_done h done hr
  exact ⟨v, hv, (clean_iff v).mp clean⟩

/-- A command whose result has scratch bits made from its operand's. -/
theorem scratchFrom_of_done {d a : VReg} {f : Vec → Except Err Vec} {g : Bool → Bool}
    (h : finishV s d (s.vec a >>= f) = .next t) (done : t.doneCnt = s.doneCnt + 1)
    (hf : ∀ p, Yields (ScratchFrom g p) (f p)) :
    ∃ p v, s.getV a = some p ∧ t.getV d = some v ∧ ScratchFrom g p v := by
  obtain ⟨v, hv, p, hp, scratch⟩ := getV_of_done h done
    (.operand_of a (P := fun v => ∃ p, s.getV a = some p ∧ ScratchFrom g p v)
      fun p hp v hv => ⟨p, hp, hf p v hv⟩)
  exact ⟨p, v, hp, hv, scratch⟩

theorem vhash_clean_of_done {d a : VReg} (h : execVhash d a s = .next t) (done : t.doneCnt = s.doneCnt + 1) :
    ∃ v, t.getV d = some v ∧ ∀ j, v.size ≤ j → j < 8 * nbytes v.size → v.bit j = false := by
  obtain ⟨u, rfl⟩ | ⟨e, rfl⟩ := next_of_execVhash h
  · exact ⟨u.digest, s.getV_setV_self d _, (clean_iff _).mp (mkvec_clean _ _)⟩
  · exact absurd done (raise_not_done s e)

/-- Settles O16: a completing command leaves its operation's result, whose scratch bits the operation decides. -/
theorem scratchBitsOfResults : Obligations.ScratchBitsOfResults := by
  unfold Obligations.ScratchBitsOfResults
  intro i s t d h done dest
  cases i with
  | nop | xli | xlis | vsize | vgetb | veq | vclz => cases dest
  | vfree d =>
    cases dest
    exact Host.Outcome.next.inj h ▸ s.getV_setV_self d none
  | vsety | vsetu => trivial
  | vnot d a => cases dest; exact scratchFrom_of_done h done fun p => .ok (notVec_scratch p)
  | vcopy d a => cases dest; exact scratchFrom_of_done h done fun p => .ok (copyVec_scratch p)
  | vsetb d a b => cases dest; exact scratchFrom_of_done h done fun p => setBit_scratch p _ _
  | vzero d a => cases dest; exact clean_of_done h done (initZeros_clean _)
  | vbits d a => cases dest; exact clean_of_done h done (.operand a initFromBitString_clean)
  | vuint d a b => cases dest; exact clean_of_done h done (initFromUnsigned_clean _ _)
  | vslice d a b c => cases dest; exact clean_of_done h done (.operand a fun p => slice_clean p _ _)
  | vor d a b | vand d a b | vxor d a b =>
    cases dest
    exact clean_of_done h done (.operand a fun p => .operand b fun q => bitwise2_clean _ p q)
  | vchoose d a b c | vmaj d a b c =>
    cases dest
    exact clean_of_done h done (.operand a fun p => .operand b fun q => .operand c fun u => bitwise3_clean _ p q u)
  | vshl d a b => cases dest; exact clean_of_done h done (.operand a fun p => .ok (lshift_clean p _))
  | vshr d a b => cases dest; exact clean_of_done h done (.operand a fun p => .ok (rshift_clean p _))
  | vrol d a b => cases dest; exact clean_of_done h done (.operand a fun p => .ok (lrotate_clean p _))
  | vror d a b => cases dest; exact clean_of_done h done (.operand a fun p => .ok (rrotate_clean p _))
  | vadd d a b => cases dest; exact clean_of_done h done (.operand a fun p => .operand b fun q => addMod_clean p q)
  | vtobin d a | vtohex d a | vtodec d a =>
    cases dest
    exact clean_of_done h done (.operand a fun _ => textVec_clean _ _)
  | vpad d a => cases dest; exact clean_of_done h done (.operand a padChecked_clean)
  | vhash d a => cases dest; exact vhash_clean_of_done h done

end Sys2Proof.Claims
end

section
/-! SUPPORT. The host's accesses: which are refused (R63), and that its reads do not show scratch bits, but for vector
bytes through `RDLO` (R45, R66). -/

namespace Sys2Proof.Claims

open Sys2Proof.Machine

/-! ## Refusal -/

/-- A host read is performed at once: it is never held (R173). -/
theorem step_read (s : State) (width off : Nat) :
    step { s with inputs := .read width off :: s.inputs } = hostStep s (.read width off) := rfl

/-- A host write that is not supported is not held either. -/
theorem step_write_unsupported (s : State) {width off : Nat} (data : Word) (h : accessOk width off = false) :
    step { s with inputs := .write width off data :: s.inputs } = hostStep s (.write width off data) := by
  simp [step, agentStep, State.held, h]

theorem accessOk_iff (width off : Nat) : accessOk width off = true ↔ width = 32 ∧ off % 4 = 0 := by
  simp [accessOk]

/-- Settles O58: such an access is performed at once, and has no meaning. -/
theorem unsupportedAccessIsRefused : Obligations.UnsupportedAccessIsRefused := by
  unfold Obligations.UnsupportedAccessIsRefused
  intro s width off data h
  have unsupported : accessOk width off = false := by
    rw [← Bool.not_eq_true, accessOk_iff]
    omega
  rw [step_read, step_write_unsupported s data unsupported]
  exact hostStep_unsupported s data unsupported

/-! ## Reads from two states that differ only in scratch bits -/

/-- A host read that takes a next state is a supported one inside the block (R48, R63). -/
theorem supported_of_hostRead {s t : State} {width off : Nat} (h : hostStep s (.read width off) = .next t) :
    width = 32 ∧ off % 4 = 0 ∧ off < Config.BLOCK_LEN := by
  have supported : accessOk width off = true := by
    by_contra bad
    rw [(hostStep_unsupported s 0 (Bool.not_eq_true _ ▸ bad)).1] at h
    cases h
  have inside : off < Config.BLOCK_LEN := by
    by_contra outside
    rw [(hostStep_outside s 0 supported (Nat.not_lt.mp outside)).1] at h
    cases h
  obtain ⟨wide, aligned⟩ := (accessOk_iff width off).mp supported
  exact ⟨wide, aligned, inside⟩

/-- `RDLO` is at its own offset alone: every other branch of R39's table names another register. -/
theorem hostRegAt_eq_rdlo {off : Nat} (h : hostRegAt off = .rdlo) : off = 0x18 := by
  unfold hostRegAt at h
  grind

namespace SameButScratch

variable {s s' : State} (h : SameButScratch s s')
include h

theorem rsel_eq : s'.rsel = s.rsel := by rw [h.1]

theorem reads_eq : s'.reads = s.reads := by rw [h.1]

theorem readIsFree_eq (r : HostReg) : s'.readIsFree r = s.readIsFree r := by rw [h.1]; rfl

theorem selectedX_eq : s'.selectedX = s.selectedX := by rw [h.1]; rfl

/-- `RVINFO` shows whether the selected register is `Empty`, and its size (R47). -/
theorem rvinfo_eq : s'.rvinfo = s.rvinfo := by
  have selected : s'.selectedV = s'.getV (regOf s.rsel.reg) := by rw [State.selectedV, h.rsel_eq]
  rw [State.rvinfo, State.rvinfo, selected, State.selectedV, h.rsel_eq]
  obtain ⟨hs, hs'⟩ | ⟨p, q, hp, hq, hpq⟩ := h.2 (regOf s.rsel.reg)
  · rw [hs, hs']
  · rw [hp, hq]
    simp only [hpq.size_eq]

/-- No register but `RDLO` with `SPACE` = 1 shows scratch bits. -/
theorem regValue_eq (r : HostReg) (notBytes : r = .rdlo → s.rsel.space = false) : s'.regValue r = s.regValue r := by
  cases r with
  | cmd | ctrl | reserved => rfl
  | status | errcmd | donecnt | rsel => rw [h.1]; rfl
  | rdlo =>
    simp only [State.regValue, State.rdlo, h.rsel_eq, h.selectedX_eq, notBytes rfl, Bool.false_eq_true, if_false]
  | rdhi => simp only [State.regValue, State.rdhi, h.rsel_eq, h.selectedX_eq]
  | rvinfo => exact h.rvinfo_eq

/-- A read gives both hosts the same value, a free one (R175) or the register's. -/
theorem hostRead (r : HostReg) (notBytes : ¬ (r = .rdlo ∧ s.rsel.space = true ∧ s.queue = [])) :
    SameButScratch (s.hostRead r) (s'.hostRead r) := by
  rw [State.hostRead, State.hostRead, h.readIsFree_eq]
  split
  · exact h.apart (f := fun s => { s with reads := Config.freeRead s.draws :: s.reads, draws := s.draws + 1 })
      fun _ _ => rfl
  · next specified =>
    have scalar : r = .rdlo → s.rsel.space = false := by
      rintro rfl
      have idle : s.queue = [] := by simpa [State.readIsFree, State.busy] using specified
      simpa [idle] using notBytes
    rw [h.regValue_eq r scalar]
    exact h.apart (f := fun u => { u with reads := s.regValue r :: u.reads }) fun _ _ => rfl

end SameButScratch

/-- Settles O59: both reads are of one register, and it shows sizes, scalars and host registers, or a free value. -/
theorem hostReadsButVectorRdloIgnoreScratchBits : Obligations.HostReadsButVectorRdloIgnoreScratchBits := by
  unfold Obligations.HostReadsButVectorRdloIgnoreScratchBits
  intro s s' t width off h notBytes ht
  rw [step_read] at ht ⊢
  obtain ⟨rfl, aligned, inside⟩ := supported_of_hostRead ht
  rw [hostStep_read s aligned inside] at ht
  obtain rfl := Host.Outcome.next.inj ht
  have alike := h.hostRead (hostRegAt off) fun ⟨rdlo, rest⟩ => notBytes ⟨hostRegAt_eq_rdlo rdlo, rest⟩
  exact ⟨_, hostStep_read s' aligned inside, alike, alike.reads_eq⟩

end Sys2Proof.Claims
end

section
/-! SUPPORT. The decoder against the encoder and the opcode table (R81, R82, R85, R86). A row of R85 is read in two
further ways: which fields it keeps, so what the encoder writes, and which bits it fixes, so its mask. -/

namespace Sys2Proof

/-! ## Encode, then decode -/

/-- The per-instruction family EncodeLegal, put together. -/
theorem encodeLegal (i : Instr) : Laws.EncodeLegal.Statement i :=
  match i with
  | .nop => Laws.EncodeLegal.nop
  | .xli d imm => Laws.EncodeLegal.xli d imm
  | .xlis d imm => Laws.EncodeLegal.xlis d imm
  | .vzero d a => Laws.EncodeLegal.vzero d a
  | .vbits d a => Laws.EncodeLegal.vbits d a
  | .vuint d a b => Laws.EncodeLegal.vuint d a b
  | .vcopy d a => Laws.EncodeLegal.vcopy d a
  | .vfree d => Laws.EncodeLegal.vfree d
  | .vsize d a => Laws.EncodeLegal.vsize d a
  | .vgetb d a b => Laws.EncodeLegal.vgetb d a b
  | .vsetb d a b => Laws.EncodeLegal.vsetb d a b
  | .vsety d a b => Laws.EncodeLegal.vsety d a b
  | .vsetu d a b c => Laws.EncodeLegal.vsetu d a b c
  | .vslice d a b c => Laws.EncodeLegal.vslice d a b c
  | .veq d a b => Laws.EncodeLegal.veq d a b
  | .vnot d a => Laws.EncodeLegal.vnot d a
  | .vor d a b => Laws.EncodeLegal.vor d a b
  | .vand d a b => Laws.EncodeLegal.vand d a b
  | .vxor d a b => Laws.EncodeLegal.vxor d a b
  | .vchoose d a b c => Laws.EncodeLegal.vchoose d a b c
  | .vmaj d a b c => Laws.EncodeLegal.vmaj d a b c
  | .vshl d a b => Laws.EncodeLegal.vshl d a b
  | .vshr d a b => Laws.EncodeLegal.vshr d a b
  | .vrol d a b => Laws.EncodeLegal.vrol d a b
  | .vror d a b => Laws.EncodeLegal.vror d a b
  | .vadd d a b => Laws.EncodeLegal.vadd d a b
  | .vclz d a => Laws.EncodeLegal.vclz d a
  | .vtobin d a => Laws.EncodeLegal.vtobin d a
  | .vtohex d a => Laws.EncodeLegal.vtohex d a
  | .vtodec d a => Laws.EncodeLegal.vtodec d a
  | .vpad d a => Laws.EncodeLegal.vpad d a
  | .vhash d a => Laws.EncodeLegal.vhash d a

@[simp] theorem imm_fieldsI (o : Op) (d : Fin 16) (imm : BitVec 16) : (fieldsI o d imm).imm = imm := imm_parts imm

/-- The operands read from an instruction's fields are its own. -/
theorem build_fields (i : Instr) : i.op.build i.fields = i := by
  cases i with
  | xli d imm => exact congrArg (Instr.xli d) (imm_fieldsI .xli d imm)
  | xlis d imm => exact congrArg (Instr.xlis d) (imm_fieldsI .xlis d imm)
  | _ => rfl

/-- R81, R82, R85, R86. -/
@[simp] theorem decode_encode (i : Instr) : decode (encode i) = .ok i := by
  obtain ⟨code, legal⟩ := encodeLegal i
  rw [encode, decode_toWord, code, ofCode_code]
  simp only [legal, if_true, build_fields]

/-! ## Decode, then encode -/

/-- What the encoder writes to a field of a column when the decoder has read `x` there: 0 in an unused field. -/
def Column.keep (k : Column) (x : BitVec 4) : BitVec 4 :=
  match k with
  | .zero => 0
  | _ => x

theorem Column.keep_of_allows {k : Column} {x : BitVec 4} (h : k.allows x = true) : k.keep x = x := by
  cases k with
  | zero => exact ((beq_iff_eq (b := 0)).mp h).symm
  | V | X => rfl

/-- The fields the encoder writes for a row when the decoder has read the fields `f`. -/
def OpRow.keep (r : OpRow) (f : Fields) : Fields :=
  match r.fmt with
  | .I => ⟨r.code, r.d.keep f.d, r.a.keep f.a, f.b, f.c, f.z⟩
  | .R => ⟨r.code, r.d.keep f.d, r.a.keep f.a, r.b.keep f.b, r.c.keep f.c, 0⟩

/-- The must-be-zero checks of a row pass exactly where nothing is lost. -/
theorem OpRow.keep_of_legal {r : OpRow} {f : Fields} (code : r.code = f.op) (legal : r.legal f = true) :
    r.keep f = f := by
  obtain ⟨op, fmt, _, _, _, _⟩ := r
  obtain rfl : op = f.op := code
  cases fmt with
  | I =>
    simp only [OpRow.legal, Bool.and_eq_true] at legal
    obtain ⟨hd, ha⟩ := legal
    simp only [OpRow.keep, Column.keep_of_allows hd, Column.keep_of_allows ha]
  | R =>
    simp only [OpRow.legal, Bool.and_eq_true, beq_iff_eq] at legal
    obtain ⟨⟨⟨⟨hd, ha⟩, hb⟩, hc⟩, hz⟩ := legal
    simp only [OpRow.keep, Column.keep_of_allows hd, Column.keep_of_allows ha, Column.keep_of_allows hb,
      Column.keep_of_allows hc, ← hz]

/-- A format-I immediate is written to the fields it was read from. -/
theorem fieldsI_imm (o : Op) (f : Fields) : fieldsI o (regOf f.d) f.imm = ⟨o.row.code, f.d, 0, f.b, f.c, f.z⟩ := by
  have b : f.imm.extractLsb' 12 4 = f.b :=
    (BitVec.extractLsb'_append_eq_of_le (by decide)).trans BitVec.extractLsb'_append_eq_left
  have c : f.imm.extractLsb' 8 4 = f.c :=
    (BitVec.extractLsb'_append_eq_of_le (by decide)).trans BitVec.extractLsb'_append_eq_right
  have z : f.imm.extractLsb' 0 8 = f.z := BitVec.extractLsb'_append_eq_right
  rw [fieldsI, fieldOf_regOf, b, c, z]

/-- The fields of the command a row builds from `f`. -/
theorem fields_build (o : Op) (f : Fields) : (o.build f).fields = o.row.keep f := by
  cases o with
  | xli => exact fieldsI_imm .xli f
  | xlis => exact fieldsI_imm .xlis f
  | _ => rfl

theorem encode_of_decode {w : Word} {i : Instr} (h : decode w = .ok i) : encode i = w := by
  obtain ⟨o, ho, legal, rfl⟩ := decode_ok h
  rw [encode, fields_build, OpRow.keep_of_legal (code_of_ofCode ho) legal, toWord_ofWord]

/-! ## The opcode table -/

/-- Which words decode: those whose opcode is a row's and whose must-be-zero fields are 0. -/
theorem decodes_iff (w : Word) :
    (∃ i, decode w = .ok i) ↔
      ∃ o : Op, o.row.code = (Fields.ofWord w).op ∧ o.row.legal (Fields.ofWord w) = true := by
  constructor
  · rintro ⟨i, h⟩
    obtain ⟨o, ho, legal, _⟩ := decode_ok h
    exact ⟨o, code_of_ofCode ho, legal⟩
  · rintro ⟨o, code, legal⟩
    refine ⟨o.build (Fields.ofWord w), ?_⟩
    rw [← toWord_ofWord w, decode_toWord, ← code, ofCode_code]
    simp only [toWord_ofWord, legal, if_true]

/-- The bits a column fixes: all of an unused field. -/
def Column.mask (k : Column) : BitVec 4 :=
  match k with
  | .zero => 0xF
  | _ => 0

theorem Column.allows_iff_mask (k : Column) (x : BitVec 4) : k.allows x = true ↔ x &&& k.mask = 0 := by
  cases k with
  | zero =>
    have whole : x &&& 15#4 = x := BitVec.and_allOnes
    simp [Column.allows, Column.mask, whole]
  | V | X => simp [Column.allows, Column.mask]

/-- The bits a row fixes: the opcode and every must-be-zero field (R81, R82, R86). -/
def OpRow.mask (r : OpRow) : Fields :=
  match r.fmt with
  | .I => ⟨0xFF, r.d.mask, r.a.mask, 0, 0, 0⟩
  | .R => ⟨0xFF, r.d.mask, r.a.mask, r.b.mask, r.c.mask, 0xFF⟩

theorem ofWord_and (w m : Word) : Fields.ofWord (w &&& m) =
    ⟨(Fields.ofWord w).op &&& (Fields.ofWord m).op, (Fields.ofWord w).d &&& (Fields.ofWord m).d,
      (Fields.ofWord w).a &&& (Fields.ofWord m).a, (Fields.ofWord w).b &&& (Fields.ofWord m).b,
      (Fields.ofWord w).c &&& (Fields.ofWord m).c, (Fields.ofWord w).z &&& (Fields.ofWord m).z⟩ := by
  simp only [Fields.ofWord, BitVec.extractLsb'_and]

theorem eq_toWord_iff {w : Word} {f : Fields} : w = f.toWord ↔ Fields.ofWord w = f := by
  constructor
  · rintro rfl
    exact ofWord_toWord f
  · rintro rfl
    exact (toWord_ofWord w).symm

/-- A word is a row's command exactly when its masked bits are the row's opcode and otherwise 0. -/
theorem OpRow.match_iff (r : OpRow) (w : Word) : w &&& r.mask.toWord = Fields.toWord ⟨r.code, 0, 0, 0, 0, 0⟩ ↔
    r.code = (Fields.ofWord w).op ∧ r.legal (Fields.ofWord w) = true := by
  have whole (x : BitVec 8) : x &&& 255#8 = x := BitVec.and_allOnes
  rw [eq_toWord_iff, ofWord_and, ofWord_toWord, eq_comm (a := r.code)]
  obtain ⟨_, fmt, _, _, _, _⟩ := r
  cases fmt with
  | I => simp [OpRow.mask, OpRow.legal, Column.allows_iff_mask, whole]
  | R => simp [OpRow.mask, OpRow.legal, Column.allows_iff_mask, whole, and_assoc]

/-- The table of masks and match values is the opcode map's own. -/
theorem tableRows_eq : Claims.tableRows =
    Op.all.map fun o => (o.row.mask.toWord, Fields.toWord ⟨o.row.code, 0, 0, 0, 0, 0⟩) := by
  decide

theorem mem_all (o : Op) : o ∈ Op.all := by cases o <;> decide

theorem decodes_iff_table (w : Word) :
    (∃ i, decode w = .ok i) ↔ ∃ row ∈ Claims.tableRows, w &&& row.1 = row.2 := by
  rw [decodes_iff, tableRows_eq]
  simp only [List.mem_map, mem_all, true_and, exists_exists_eq_and, OpRow.match_iff]

end Sys2Proof
end

section
/-! SUPPORT. The encoding's obligations: the decoder (R85, R86, R93), and the step on a word it rejects (R87, R180). -/

namespace Sys2Proof.Machine

/-- The step on a word that does not decode: error entry with `IllegalCommand` (R86, R180). -/
theorem step_illegal {s : State} {w : Word} {rest : List Word} {e : DecodeError} (hi : s.inputs = [])
    (he : s.err = false) (hq : s.queue = w :: rest) (hd : decode w = .error e) :
    step s = .next (s.raise .illegalCommand) :=
  (step_engine hi).trans (engineStep_illegal he hq hd)

/-- The step on the word of a command runs the command. -/
theorem step_encode {s : State} {i : Instr} {rest : List Word} (hi : s.inputs = []) (he : s.err = false)
    (hq : s.queue = encode i :: rest) : step s = exec i s :=
  (step_engine hi).trans (engineStep_decoded he hq (decode_encode i))

end Sys2Proof.Machine

namespace Sys2Proof.Claims

open Sys2Proof.Machine

/-- Settles O1: the fields of an instruction are legal for its row, and its operands are read back from them. -/
theorem decodeOfEncodeGivesBack : Obligations.DecodeOfEncodeGivesBack := by
  unfold Obligations.DecodeOfEncodeGivesBack
  exact decode_encode

/-- Settles O2: the fields a row does not keep are 0 in every word that decodes. -/
theorem acceptedWordIsItsEncoding : Obligations.AcceptedWordIsItsEncoding := by
  unfold Obligations.AcceptedWordIsItsEncoding
  exact fun _ _ => encode_of_decode

/-- Settles O3: each row of the table is the mask and the opcode of a row of the opcode map. -/
theorem acceptedWordsAreTheTables : Obligations.AcceptedWordsAreTheTables := by
  unfold Obligations.AcceptedWordsAreTheTables
  exact decodes_iff_table

/-- Settles O6: a word that matches no row of the table does not decode. -/
theorem illegalWordRaisesIllegalCommand : Obligations.IllegalWordRaisesIllegalCommand := by
  unfold Obligations.IllegalWordRaisesIllegalCommand
  intro s w rest hi he hq noRow
  refine ⟨?_, by rw [raised, hq]; rfl⟩
  cases hd : decode w with
  | error e => exact step_illegal hi he hq hd
  | ok i =>
    obtain ⟨row, mem, hit⟩ := (decodes_iff_table w).mp ⟨i, hd⟩
    exact absurd hit (noRow row mem)

/-- Settles O4: the words are decoded by evaluation; the rejected ones raise `IllegalCommand`. -/
theorem workedEncodings : Obligations.WorkedEncodings := by
  unfold Obligations.WorkedEncodings
  refine ⟨rfl, rfl, rfl, rfl, rfl, rfl, rfl, rfl, rfl, rfl, rfl, rfl, rfl, fun w hw => ?_⟩
  have rejected : ∃ e, decode w = .error e := by
    simp only [List.mem_cons, List.not_mem_nil, or_false] at hw
    obtain rfl | rfl | rfl := hw
    · exact ⟨.undefinedOpcode, rfl⟩
    · exact ⟨.mustBeZero, rfl⟩
    · exact ⟨.mustBeZero, rfl⟩
  obtain ⟨e, hd⟩ := rejected
  exact step_illegal rfl rfl rfl hd

end Sys2Proof.Claims
end

section
/-! SUPPORT. `LI` (R91): the register after each of its words, and the run of them. -/

namespace Sys2Proof.Machine

/-! ## The pattern, chunk by chunk -/

/-- A number's chunks read as two's complement: the upper ones so read, and the lowest below them. -/
theorem toInt_ofNat_chunks {m : Nat} (hm : 1 ≤ m) (v : Nat) : (BitVec.ofNat (16 * (m + 1)) v).toInt =
    (BitVec.ofNat (16 * m) (v / 2 ^ 16)).toInt * 2 ^ 16 + (liChunk v 0).toNat := by
  obtain ⟨h, half⟩ : ∃ h, 2 ^ (16 * m) = 2 * h := ⟨2 ^ (16 * m - 1), by rw [← pow_succ']; congr 1; omega⟩
  have whole : 2 ^ (16 * (m + 1)) = 65536 * (2 * h) := by rw [← half]; ring
  have low : (liChunk v 0).toNat = v % 65536 := by simp [liChunk]
  have split : v % (65536 * (2 * h)) = v % 65536 + 65536 * (v / 2 ^ 16 % (2 * h)) := Nat.mod_mul
  simp only [BitVec.toInt_eq_toNat_cond, BitVec.toNat_ofNat, low, whole, half, split]
  split_ifs <;> omega

/-- The `m` chunks of `u` from chunk `k` up, sign-extended: what the register holds when `LI` has loaded these. -/
def liPartial (u m k : Nat) : Scalar := (BitVec.ofNat (16 * m) (u / 2 ^ (16 * k))).signExtend 64

/-- `XLI` of chunk `k` loads it (R106). -/
theorem liPartial_one (u k : Nat) : sext16 (liChunk u k) = liPartial u 1 k := rfl

/-- `XLIS` of chunk `k` puts it below the chunks loaded before it (R107). -/
theorem liPartial_succ (u k : Nat) {m : Nat} (hm : 1 ≤ m) :
    liPartial u m (k + 1) * 2 ^ 16 + zext16 (liChunk u k) = liPartial u (m + 1) k := by
  have upper : u / 2 ^ (16 * (k + 1)) = u / 2 ^ (16 * k) / 2 ^ 16 := by rw [Nat.div_div_eq_div_mul, ← pow_add]; rfl
  have low : liChunk (u / 2 ^ (16 * k)) 0 = liChunk u k := by simp [liChunk]
  have insert := toInt_ofNat_chunks hm (u / 2 ^ (16 * k))
  rw [← upper, low] at insert
  have chunk : zext16 (liChunk u k) = BitVec.ofInt 64 (liChunk u k).toNat := by
    rw [BitVec.ofInt_natCast, BitVec.ofNat_toNat]
    rfl
  simp only [liPartial, BitVec.signExtend, insert, BitVec.ofInt_add, BitVec.ofInt_mul, chunk]
  rfl

/-- The chunks that `LI` loads give the pattern: by its choice of their number, and four of them are all 64 bits. -/
theorem liPartial_liCount (u : Nat) : liPartial u (liCount u) 0 = BitVec.ofNat 64 u := by
  have fits {n : Nat} (h : liFits u n = true) : liPartial u n 0 = BitVec.ofNat 64 u := by
    simpa [liPartial, liFits] using h
  rw [liCount]
  split_ifs with h1 h2 h3
  · exact fits h1
  · exact fits h2
  · exact fits h3
  · simp [liPartial]

/-- `u = imm mod 2^64` is `imm`'s 64-bit pattern (R91). -/
theorem ofNat_pattern (imm : Int) : BitVec.ofNat 64 (imm % 2 ^ 64).toNat = BitVec.ofInt 64 imm := by
  apply BitVec.eq_of_toNat_eq
  rw [BitVec.toNat_ofNat, BitVec.toNat_ofInt]
  omega

theorem liCount_range (u : Nat) : 1 ≤ liCount u ∧ liCount u ≤ 4 := by
  rw [liCount]
  split_ifs <;> decide

/-! ## The words -/

/-- The `XLIS` commands for the `k` lowest chunks, the upper first. -/
def liLower (d : XReg) (u : Nat) : Nat → List Instr
  | 0     => []
  | k + 1 => .xlis d (liChunk u k) :: liLower d u k

theorem liLower_length (d : XReg) (u k : Nat) : (liLower d u k).length = k := by
  induction k with
  | zero => rfl
  | succ k ih => rw [liLower, List.length_cons, ih]

theorem liLower_eq_map (d : XReg) (u k : Nat) :
    liLower d u k = (List.range k).map fun j => .xlis d (liChunk u (k - 1 - j)) := by
  induction k with
  | zero => rfl
  | succ k ih =>
    rw [liLower, ih, List.range_succ_eq_map, List.map_cons, List.map_map]
    refine congrArg (_ :: ·) (List.map_congr_left fun j _ => ?_)
    rw [Function.comp_apply, show k + 1 - 1 - j.succ = k - 1 - j by omega]

/-- The expansion of `LI` with `k + 1` chunks (R91). -/
theorem liExpand_eq (d : XReg) {imm : Int} {k : Nat} (count : liCount (imm % 2 ^ 64).toNat = k + 1) :
    liExpand d imm = .xli d (liChunk (imm % 2 ^ 64).toNat k) :: liLower d (imm % 2 ^ 64).toNat k := by
  rw [liLower_eq_map]
  simp only [liExpand, count]
  rfl

theorem liExpand_length (d : XReg) (imm : Int) : (liExpand d imm).length = liCount (imm % 2 ^ 64).toNat := by
  obtain ⟨k, count⟩ := Nat.exists_eq_add_of_le' (liCount_range (imm % 2 ^ 64).toNat).1
  rw [liExpand_eq d count, List.length_cons, liLower_length, count]

/-! ## The run -/

/-- `s` after `n` commands that loaded `y` into `X[d]`, with the queue they leave. -/
def State.loaded (s : State) (d : XReg) (y : Scalar) (rest : List Word) (n : Nat) : State :=
  { s with x := s.x.set d y, queue := rest, doneCnt := s.doneCnt + BitVec.ofNat 32 n }

theorem State.loaded_none (s : State) (d : XReg) : s.loaded d (s.getX d) s.queue 0 = s := by
  simp [State.loaded, State.getX]

@[simp] theorem State.getX_loaded (s : State) (d : XReg) (y : Scalar) (rest : List Word) (n : Nat) :
    (s.loaded d y rest n).getX d = y := State.getX_setX_self s d y

/-- Of two loads of one register the later stays. -/
theorem State.loaded_loaded (s : State) (d : XReg) (y y' : Scalar) (rest rest' : List Word) (n n' : Nat) :
    (s.loaded d y rest n).loaded d y' rest' n' = s.loaded d y' rest' (n + n') := by
  simp [State.loaded, BitVec.ofNat_add, add_assoc]

/-- How a command that loads `y` into `X[d]` completes, with the queue written out (R171). -/
theorem finishX_loaded {s : State} {w : Word} {rest : List Word} (hq : s.queue = w :: rest) (d : XReg) (n : Nat) :
    finishX s d (.ok n) = .next (s.loaded d (BitVec.ofNat 64 n) rest 1) := by
  simp [State.complete, State.setX, State.loaded, hq]

/-- A step on an `XLI` (R106). -/
theorem step_xli {s : State} {d : XReg} {imm : BitVec 16} {rest : List Word} (hi : s.inputs = []) (he : s.err = false)
    (hq : s.queue = encode (.xli d imm) :: rest) : step s = .next (s.loaded d (sext16 imm) rest 1) := by
  have value : BitVec.ofNat 64 (sext16 imm).toNat = sext16 imm := BitVec.ofNat_toNat _ _ ▸ BitVec.setWidth_eq _
  rw [step_encode hi he hq, ← value]
  exact finishX_loaded hq d _

/-- A step on an `XLIS` (R107). -/
theorem step_xlis {s : State} {d : XReg} {imm : BitVec 16} {rest : List Word} (hi : s.inputs = []) (he : s.err = false)
    (hq : s.queue = encode (.xlis d imm) :: rest) :
    step s = .next (s.loaded d (s.getX d * 2 ^ 16 + zext16 imm) rest 1) := by
  have value : BitVec.ofNat 64 (s.ux d * 2 ^ 16 + (zext16 imm).toNat) = s.getX d * 2 ^ 16 + zext16 imm := by
    simp only [State.ux, BitVec.ofNat_add, BitVec.ofNat_mul, BitVec.ofNat_toNat, BitVec.setWidth_eq]
    rfl
  rw [step_encode hi he hq, ← value]
  exact finishX_loaded hq d _

/-- A run begins with a step (Host/Core.lean). -/
theorem run_succ {s t : State} (n : Nat) (h : step s = .next t) :
    Host.Core.run core (n + 1) s = Host.Core.run core n t := by
  have h : core.step s = .next t := h
  simp only [Host.Core.run, h]

/-- The `XLIS` commands for the `k` lowest chunks, run on the `m` upper ones, complete the pattern. -/
theorem run_liLower (d : XReg) (u k : Nat) (rest : List Word) {m : Nat} (hm : 1 ≤ m) {s : State} (hi : s.inputs = [])
    (he : s.err = false) (hq : s.queue = (liLower d u k).map encode ++ rest)
    (hx : s.getX d = liPartial u m k) :
    Host.Core.run core k s = .next (s.loaded d (liPartial u (m + k) 0) rest k) := by
  induction k generalizing m s with
  | zero =>
    have here : s.loaded d (liPartial u m 0) rest 0 = s := by
      rw [← hx, show rest = s.queue from hq.symm, State.loaded_none]
    exact congrArg Host.Outcome.next here.symm
  | succ k ih =>
    have next := step_xlis hi he hq
    rw [hx, liPartial_succ u k hm] at next
    have later := ih (Nat.le_succ_of_le hm) (s := s.loaded d _ _ 1) hi he rfl (State.getX_loaded ..)
    rw [State.loaded_loaded, show m + 1 + k = m + (k + 1) by omega, Nat.add_comm 1 k] at later
    exact (run_succ k next).trans later

/-- The words of `LI`'s expansion, run from any state with them at the head of the queue, load the pattern. -/
theorem run_liExpand {d : XReg} {imm : Int} {s : State} {rest : List Word} (hi : s.inputs = []) (he : s.err = false)
    (hq : s.queue = (liExpand d imm).map encode ++ rest) : Host.Core.run core (liExpand d imm).length s =
      .next (s.loaded d (BitVec.ofInt 64 imm) rest (liExpand d imm).length) := by
  obtain ⟨k, count⟩ := Nat.exists_eq_add_of_le' (liCount_range (imm % 2 ^ 64).toNat).1
  have pattern := liPartial_liCount (imm % 2 ^ 64).toNat
  rw [count, ofNat_pattern] at pattern
  rw [liExpand_length, count]
  rw [liExpand_eq d count] at hq
  have later := run_liLower d (imm % 2 ^ 64).toNat k rest le_rfl (s := s.loaded d _ _ 1) hi he rfl
    ((State.getX_loaded ..).trans (liPartial_one ..))
  rw [State.loaded_loaded, Nat.add_comm 1 k, pattern] at later
  exact (run_succ k (step_xli hi he hq)).trans later

end Sys2Proof.Machine

namespace Sys2Proof.Claims

open Sys2Proof.Machine

/-- Settles O20: `XLI` loads the top chunk by sign extension, and each `XLIS` puts one more below. -/
theorem liLoadsThePattern : Obligations.LiLoadsThePattern := by
  unfold Obligations.LiLoadsThePattern
  intro d imm s rest _ _ hi he hq
  obtain ⟨least, most⟩ := liCount_range (imm % 2 ^ 64).toNat
  rw [← liExpand_length d imm] at least most
  exact ⟨least, most, run_liExpand hi he hq⟩

end Sys2Proof.Claims
end

section
/-! SUPPORT. How a command's result is said (R171, R180, R184): format-I words, the ends of a command as `wroteV`,
`wroteX` and `raised`, an `Empty` operand, and the two ways a vector is made as `HasBytes` and `HasBits`. -/

namespace Sys2Proof.Claims

open Sys2Proof.Machine

/-! ## Words -/

/-- The format-I word is the immediate in the fields `b`, `c` and `z` (R82). -/
theorem immWord_eq_toWord (op : BitVec 8) (d : Fin 16) (imm : BitVec 16) : immWord op d imm =
    Fields.toWord ⟨op, fieldOf d, 0, imm.extractLsb' 12 4, imm.extractLsb' 8 4, imm.extractLsb' 0 8⟩ := by
  have parts := imm_parts imm
  generalize imm.extractLsb' 12 4 = b, imm.extractLsb' 8 4 = c, imm.extractLsb' 0 8 = z at parts ⊢
  subst parts
  simp only [immWord, Fields.toWord, fieldOf, BitVec.append_assoc, BitVec.cast_eq]
  rfl

/-! ## Ends -/

variable {i : Instr} {s : State} {d : VReg} {r : Except Err Vec} {e : Err}

/-- Error entry with the code of R179. -/
theorem raise_eq_raised (s : State) (e : Err) : s.raise e = raised s (errNumber e).toNat := by
  rw [raised, BitVec.ofNat_toNat, BitVec.setWidth_eq]
  rfl

/-- A command whose result is a vector completes with it. -/
theorem makes_of_ok {P : Vec → Prop} {v : Vec} (ends : exec i s = finishV s d r) (ok : r = .ok v) (hv : P v) :
    Makes i s d P := ⟨v, by rw [ends, ok]; rfl, hv⟩

/-- A command that writes a vector register and whose result is an error raises it. -/
theorem finishV_raised (error : r = .error e) : finishV s d r = .next (raised s (errNumber e).toNat) := by
  rw [error, finishV_error, raise_eq_raised]

/-- A command that writes a scalar register and whose result is an error raises it. -/
theorem finishX_raised {d : XReg} {r : Except Err Nat} (error : r = .error e) :
    finishX s d r = .next (raised s (errNumber e).toNat) := by
  rw [error, finishX_error, raise_eq_raised]

/-- A command whose result is a number completes with it. -/
theorem finishX_wroteX {d : XReg} {r : Except Err Nat} {n : Nat} (ok : r = .ok n) :
    finishX s d r = .next (wroteX s d n) := by
  rw [ok, finishX_ok]
  rfl

/-- A scalar register takes a number modulo 2^64 (R13). -/
theorem wroteX_mod (s : State) (d : XReg) (n : Nat) : wroteX s d (n % 2 ^ 64) = wroteX s d n := by
  have value : BitVec.ofNat 64 (n % 2 ^ 64) = BitVec.ofNat 64 n := by
    apply BitVec.eq_of_toNat_eq
    rw [BitVec.toNat_ofNat, BitVec.toNat_ofNat, Nat.mod_mod]
  rw [wroteX, wroteX, value]

/-! ## Operands -/

section Operands

variable {α : Type} {a b c : VReg}

theorem operand_of_some {v : Vec} (present : s.getV a = some v) (f : Vec → Except Err α) : (s.vec a >>= f) = f v := by
  rw [vec_of_some present]
  rfl

/-- A vector operand that is `Empty`, or one after it that is (R184). -/
theorem operand_noVector {f : Vec → Except Err α} (h : s.getV a = none ∨ ∀ v, f v = .error .noVector) :
    (s.vec a >>= f) = .error .noVector := by
  cases present : s.getV a with
  | none =>
    rw [vec_of_none present]
    rfl
  | some v =>
    rw [operand_of_some present]
    exact h.resolve_left (by rw [present]; nofun) v

theorem operand_of_none (empty : s.getV a = none) (f : Vec → Except Err α) : (s.vec a >>= f) = .error .noVector :=
  operand_noVector (.inl empty)

theorem unary_noVector {f : Vec → Except Err α} (h : ∃ r ∈ [a], s.getV r = none) :
    (s.vec a >>= f) = .error .noVector := by
  rw [List.exists_mem_cons_iff] at h
  exact operand_noVector (h.imp_right nofun)

theorem binary_noVector {f : Vec → Vec → Except Err α} (h : ∃ r ∈ [a, b], s.getV r = none) :
    (s.vec a >>= fun p => s.vec b >>= f p) = .error .noVector := by
  rw [List.exists_mem_cons_iff] at h
  exact operand_noVector (h.imp_right fun later _ => unary_noVector later)

theorem ternary_noVector {f : Vec → Vec → Vec → Except Err α} (h : ∃ r ∈ [a, b, c], s.getV r = none) :
    (s.vec a >>= fun p => s.vec b >>= fun q => s.vec c >>= f p q) = .error .noVector := by
  rw [List.exists_mem_cons_iff] at h
  exact operand_noVector (h.imp_right fun later _ => binary_noVector later)

end Operands

/-- A command with an `Empty` register among those it reads as vectors raises `NoVector` (R184). -/
theorem exec_noVector (h : ∃ r ∈ vectorOperands i, s.getV r = none) :
    exec i s = .next (raised s 6) := by
  cases i with
  | nop | xli | xlis | vzero | vuint | vfree =>
    obtain ⟨_, mem, _⟩ := h
    cases mem
  | vsize | vgetb | vclz => exact finishX_raised (unary_noVector h)
  | veq => exact finishX_raised (binary_noVector h)
  | vbits | vcopy | vsetb | vsety | vsetu | vslice | vnot | vshl | vshr | vrol | vror | vtobin | vtohex | vtodec
  | vpad => exact finishV_raised (unary_noVector h)
  | vor | vand | vxor | vadd => exact finishV_raised (binary_noVector h)
  | vchoose | vmaj => exact finishV_raised (ternary_noVector h)
  | vhash d a =>
    obtain ⟨r, mem, empty⟩ := h
    rw [List.mem_singleton.mp mem] at empty
    show execVhash d a s = _
    rw [execVhash, vec_of_none empty]
    exact congrArg Host.Outcome.next (raise_eq_raised s .noVector)

/-! ## Made vectors -/

theorem ofBytes_hasBytes {n : Nat} {g g' : Nat → Byte} (h : ∀ k < nbytes n, g k = g' k) :
    HasBytes (ofBytes n g) n g' :=
  ⟨rfl, ofBytes_length n g, fun k hk => (ofBytes_byte g hk).trans (h k hk)⟩

theorem mkvec_hasBits {n : Nat} {f f' : Nat → Bool} (h : ∀ i < n, f i = f' i) : HasBits (mkvec n f) n f' :=
  ⟨rfl, mkvec_length n f, fun i hi => (mkvec_bit f hi).trans (h i hi), fun _ => mkvec_scratch f⟩

end Sys2Proof.Claims
end

section
/-! SUPPORT. The operations of the construction commands (R100 to R103), one equation for each of their cases, and the
binary string parsed back (R160). -/

namespace Sys2Proof.Machine

theorem sizeOk_iff (n : Int) : sizeOk n = true ↔ 0 ≤ n ∧ n ≤ Config.VLEN_MAX := by
  rw [sizeOk, Bool.and_eq_true, decide_eq_true_eq, decide_eq_true_eq]

theorem sizeOk_eq_false {n : Int} (h : n < 0 ∨ (Config.VLEN_MAX : Int) < n) : sizeOk n = false := by
  rw [← Bool.not_eq_true, sizeOk_iff]
  omega

theorem initZeros_ok {n : Int} (low : 0 ≤ n) (high : n ≤ Config.VLEN_MAX) :
    initZeros n = .ok (mkvec n.toNat fun _ => false) := if_pos ((sizeOk_iff n).mpr ⟨low, high⟩)

theorem initZeros_invalidSize {n : Int} (h : n < 0 ∨ (Config.VLEN_MAX : Int) < n) :
    initZeros n = .error .invalidSize := by
  rw [initZeros, sizeOk_eq_false h]
  rfl

/-! ## Binary strings -/

/-- Every storage byte of the string is '0' or '1' (R101). -/
def IsBitString (p : Vec) : Prop := ∀ k < p.size / 8, p.byte k = 0x30 ∨ p.byte k = 0x31

theorem isBitString_iff (p : Vec) :
    ((List.range (p.size / 8)).all fun k => p.byte k == 0x30 || p.byte k == 0x31) = true ↔ IsBitString p := by
  simp only [IsBitString, List.all_eq_true, List.mem_range, Bool.or_eq_true, beq_iff_eq]

theorem initFromBitString_invalidSize {p : Vec} (h : p.size % 8 ≠ 0) :
    initFromBitString p = .error .invalidSize := if_pos h

theorem initFromBitString_ok {p : Vec} (whole : p.size % 8 = 0) (h : IsBitString p) :
    initFromBitString p = .ok (mkvec (p.size / 8) fun i => p.byte i == 0x31) := by
  rw [initFromBitString, if_neg (not_not.mpr whole), if_pos ((isBitString_iff p).mpr h)]

theorem initFromBitString_invalidCharacter {p : Vec} (whole : p.size % 8 = 0) (h : ¬ IsBitString p) :
    initFromBitString p = .error .invalidCharacter := by
  rw [initFromBitString, if_neg (not_not.mpr whole), if_neg (mt (isBitString_iff p).mp h)]

/-- The character of a bit (R160). -/
def bitChar (b : Bool) : Byte := if b then 0x31 else 0x30

theorem bitChar_eq (b : Bool) : bitChar b = 0x30 ∨ bitChar b = 0x31 := by cases b <;> decide

theorem bitChar_beq_one (b : Bool) : (bitChar b == 0x31) = b := by cases b <;> decide

theorem toBinString_ok {v : Vec} (fits : 8 * v.size ≤ Config.VLEN_MAX) :
    toBinString v = .ok (ofBytes (8 * v.size) fun i => bitChar (v.bit i)) := if_neg (Nat.not_lt.mpr fits)

/-- The string of the bits `f` parses to the vector of them (R101, R160). -/
theorem initFromBitString_bitChars (n : Nat) (f : Nat → Bool) :
    initFromBitString (ofBytes (8 * n) fun i => bitChar (f i)) = .ok (mkvec n f) := by
  have size : (ofBytes (8 * n) fun i => bitChar (f i)).size / 8 = n := Nat.mul_div_cancel_left n (by decide)
  have byte : ∀ k < n, (ofBytes (8 * n) fun i => bitChar (f i)).byte k = bitChar (f k) := fun k hk =>
    ofBytes_byte _ (by rwa [nbytes_mul8])
  have chars : IsBitString (ofBytes (8 * n) fun i => bitChar (f i)) := fun k hk => by
    rw [size] at hk
    rw [byte k hk]
    exact bitChar_eq _
  rw [initFromBitString_ok (Nat.mul_mod_right 8 n) chars, size]
  exact congrArg _ (mkvec_congr fun i hi => by rw [byte i hi, bitChar_beq_one])

/-! ## Big-endian numbers -/

theorem initFromUnsigned_ok {value : Nat} {m : Int} (low : 0 ≤ m) (high : 8 * m ≤ Config.VLEN_MAX) :
    initFromUnsigned value m = .ok (ofBytes (8 * m.toNat) (beByte value m.toNat)) :=
  if_pos ((sizeOk_iff _).mpr ⟨by omega, high⟩)

theorem initFromUnsigned_invalidSize {value : Nat} {m : Int} (h : m < 0 ∨ (Config.VLEN_MAX : Int) < 8 * m) :
    initFromUnsigned value m = .error .invalidSize := by
  rw [initFromUnsigned, sizeOk_eq_false (by omega)]
  rfl

theorem beByte_eq_mod (value n k : Nat) : beByte value n k = BitVec.ofNat 8 (value / 2 ^ (8 * (n - 1 - k)) % 256) := by
  apply BitVec.eq_of_toNat_eq
  rw [beByte, BitVec.toNat_ofNat, BitVec.toNat_ofNat, Nat.mod_mod]

/-- The bits of a number's big-endian bytes are the number's, high-order bits first (R61). -/
theorem ofBytes_beByte_bit (value : Nat) {m i : Nat} (h : i < 8 * m) :
    (ofBytes (8 * m) (beByte value m)).bit i = value.testBit (8 * m - 1 - i) := by
  have position : 7 - i % 8 < 8 := by omega
  rw [ofBytes_bit _ (by rwa [nbytes_mul8]), beByte, BitVec.getLsbD_ofNat, decide_eq_true position, Bool.true_and,
    Nat.testBit_div_two_pow, show 7 - i % 8 + 8 * (m - 1 - i / 8) = 8 * m - 1 - i by omega]

/-- The number of a number's big-endian bytes: the high-order ones are dropped (R102). -/
theorem ofBytes_beByte_val (value m : Nat) : (ofBytes (8 * m) (beByte value m)).val = value % 2 ^ (8 * m) :=
  val_eq_of_bits (v := ofBytes (8 * m) (beByte value m)) fun _ h => ofBytes_beByte_bit value h

/-! ## Copies and empty registers -/

/-- A well-formed vector is copied whole. -/
theorem copyVec_of_wf {v : Vec} (h : v.wf = true) : copyVec v = v :=
  (eq_ofBytes v.byte ((Vec.wf_iff v).mp h).1 fun _ _ => rfl).symm

/-- Writing what a register holds changes nothing. -/
theorem State.setV_getV (s : State) (r : VReg) : s.setV r (s.getV r) = s := by
  simp [State.setV, State.getV]

/-! ## Immediates -/

/-- The sign-extended immediate is its two's-complement value modulo 2^64 (R106). -/
theorem toNat_sext16 (imm : BitVec 16) : (sext16 imm).toNat = (imm.toInt % 2 ^ 64).toNat := BitVec.toNat_ofInt imm.toInt

theorem toNat_zext16 (imm : BitVec 16) : (zext16 imm).toNat = imm.toNat :=
  BitVec.toNat_setWidth_of_le (by decide)

end Sys2Proof.Machine
end

section
/-! SUPPORT. The obligations of the construction, lifecycle and scalar commands (R100 to R108). -/

namespace Sys2Proof.Claims

open Sys2Proof.Machine

/-- Settles O22: the four cases of `initFromBitString`, with its size check before its characters. -/
theorem vbitsParsesTheBitString : Obligations.VbitsParsesTheBitString := by
  unfold Obligations.VbitsParsesTheBitString
  intro d a s
  refine ⟨decode_encode (.vbits d a), fun empty => finishV_raised (operand_of_none empty _), fun v present => ?_⟩
  have result : (s.vec a >>= initFromBitString) = initFromBitString v := operand_of_some present _
  refine ⟨fun ragged => ?_, fun whole ⟨k, hk, no, no'⟩ => ?_, fun whole chars => ?_⟩
  · exact finishV_raised (result.trans (initFromBitString_invalidSize ragged))
  · have other : ¬ IsBitString v := fun chars => (chars k hk).elim no no'
    exact finishV_raised (result.trans (initFromBitString_invalidCharacter whole other))
  · exact makes_of_ok rfl (result.trans (initFromBitString_ok whole chars)) (mkvec_hasBits fun _ _ => rfl)

/-- Settles O23: the result is made of the number's big-endian bytes, and so has the number's low-order bits. -/
theorem vuintEncodesBigEndian : Obligations.VuintEncodesBigEndian := by
  unfold Obligations.VuintEncodesBigEndian
  rintro d a b s value m rfl rfl
  refine ⟨decode_encode (.vuint d a b), fun low high => ?_, fun outside => ?_⟩
  · exact makes_of_ok rfl (initFromUnsigned_ok low high)
      ⟨ofBytes_hasBytes fun k _ => beByte_eq_mod _ _ k, ofBytes_beByte_val _ _⟩
  · exact finishV_raised (initFromUnsigned_invalidSize outside)

/-- Settles O25: `VFREE` checks nothing, and the register it leaves `Empty` is one that every later reader refuses. -/
theorem vfreeEmptiesTheRegister : Obligations.VfreeEmptiesTheRegister := by
  unfold Obligations.VfreeEmptiesTheRegister
  intro d s
  refine ⟨decode_encode (.vfree d), (s.setV d none).complete, rfl, rfl, fun empty => ?_, fun i reads => ?_⟩
  · rw [← empty, s.setV_getV d]
    rfl
  · exact exec_noVector ⟨d, reads, s.getV_setV_self d none⟩

/-- Settles O45: the text has a '0' or '1' for each logical bit, which parses to that bit. -/
theorem textParsesBack : Obligations.TextParsesBack := by
  unfold Obligations.TextParsesBack
  intro v fits
  exact ⟨_, _, toBinString_ok fits, initFromBitString_bitChars v.size v.bit, mkvec_hasBits fun _ _ => rfl⟩

/-- Settles O18: `NOP` is `complete` alone. -/
theorem nopOnlyCompletes : Obligations.NopOnlyCompletes := by
  unfold Obligations.NopOnlyCompletes
  exact ⟨decode_encode .nop, fun _ => rfl⟩

/-- Settles O19: the immediate is extended by sign or by zeros, and the register takes the result modulo 2^64. -/
theorem scalarLoads : Obligations.ScalarLoads := by
  unfold Obligations.ScalarLoads
  intro d imm s
  refine ⟨?_, ?_, ?_, ?_⟩
  · rw [immWord_eq_toWord]
    exact decode_encode (.xli d imm)
  · rw [immWord_eq_toWord]
    exact decode_encode (.xlis d imm)
  · rw [← toNat_sext16]
    exact finishX_wroteX rfl
  · rw [wroteX_mod, ← toNat_zext16]
    exact finishX_wroteX rfl

/-- Settles O21: the size is legal, or it is on one of the two sides of the range. -/
theorem vzeroMakesZeroBits : Obligations.VzeroMakesZeroBits := by
  unfold Obligations.VzeroMakesZeroBits
  rintro d a s n rfl
  refine ⟨decode_encode (.vzero d a), fun low high => ?_, fun outside => ?_⟩
  · exact makes_of_ok rfl (initZeros_ok low high) (mkvec_hasBits fun _ _ => rfl)
  · exact finishV_raised (initZeros_invalidSize outside)

/-- Settles O24: the copy is made of the operand's bytes, and a well-formed operand has no others. -/
theorem vcopyClonesTheStorage : Obligations.VcopyClonesTheStorage := by
  unfold Obligations.VcopyClonesTheStorage
  intro d a s
  refine ⟨decode_encode (.vcopy d a), fun empty => finishV_raised (operand_of_none empty _), fun v present => ?_⟩
  have result : (s.vec a >>= fun p => .ok (copyVec p)) = .ok (copyVec v) := operand_of_some present _
  refine ⟨makes_of_ok rfl result (ofBytes_hasBytes fun _ _ => rfl), fun wf => ?_⟩
  rw [copyVec_of_wf wf] at result
  exact congrArg (finishV s d) result

/-- Settles O26: the one operand is `Empty`, or has a size. -/
theorem vsizeReadsTheSize : Obligations.VsizeReadsTheSize := by
  unfold Obligations.VsizeReadsTheSize
  intro d a s
  exact ⟨decode_encode (.vsize d a), fun empty => finishX_raised (operand_of_none empty _),
    fun v present => finishX_wroteX (operand_of_some present _)⟩

end Sys2Proof.Claims
end

section
/-! SUPPORT. The operations of bit, byte and range access (R120 to R124), one equation for each of their cases, and the
storage bytes of a write in place. -/

namespace Sys2Proof.Machine

/-! ## Indices -/

theorem indexOk_iff (i : Int) (n : Nat) : indexOk i n = true ↔ 0 ≤ i ∧ i < n := by
  rw [indexOk, Bool.and_eq_true, decide_eq_true_eq, decide_eq_true_eq]

theorem not_indexOk_iff (i : Int) (n : Nat) : (!indexOk i n) = true ↔ i < 0 ∨ n ≤ i := by
  rw [Bool.not_eq_true', ← Bool.not_eq_true, indexOk_iff]
  omega

/-- The index check of a write in place passes. -/
theorem not_not_indexOk {i : Int} {n : Nat} (low : 0 ≤ i) (high : i < n) : ¬ (!indexOk i n) = true := by
  rw [not_indexOk_iff]
  omega

/-! ## Reads -/

theorem getBit_ok {v : Vec} {i : Int} (low : 0 ≤ i) (high : i < v.size) :
    getBit v i = .ok (if v.bit i.toNat then 1 else 0) := by
  rw [getBit, if_pos ((indexOk_iff i v.size).mpr ⟨low, high⟩), Bool.toNat, Bool.cond_eq_ite]

theorem getBit_indexOutOfRange {v : Vec} {i : Int} (h : i < 0 ∨ (v.size : Int) ≤ i) :
    getBit v i = .error .indexOutOfRange := if_neg fun range => by
  rw [indexOk_iff] at range
  omega

theorem slice_ok {v : Vec} {st e : Int} (low : 0 ≤ st) (order : st ≤ e) (high : e ≤ v.size) :
    slice v st e = .ok (mkvec (e - st).toNat fun i => v.bit (st.toNat + i)) := if_neg (by omega)

theorem slice_indexOutOfRange {v : Vec} {st e : Int} (h : st < 0 ∨ (v.size : Int) < e ∨ e < st) :
    slice v st e = .error .indexOutOfRange := if_pos h

/-! ## Writes in place -/

theorem setBit_indexOutOfRange {v : Vec} {i : Int} (x : Int) (h : i < 0 ∨ (v.size : Int) ≤ i) :
    setBit v i x = .error .indexOutOfRange := if_pos ((not_indexOk_iff _ _).mpr h)

theorem setBit_invalidValue {v : Vec} {i x : Int} (low : 0 ≤ i) (high : i < v.size) (not0 : x ≠ 0) (not1 : x ≠ 1) :
    setBit v i x = .error .invalidValue := by
  rw [setBit, if_neg (not_not_indexOk low high), if_pos ⟨not0, not1⟩]

theorem setBit_ok {v : Vec} {i x : Int} (low : 0 ≤ i) (high : i < v.size) (value : x = 0 ∨ x = 1) :
    setBit v i x = .ok (v.putBit i.toNat (decide (x = 1))) := by
  rw [setBit, if_neg (not_not_indexOk low high), if_neg (by omega)]
  rfl

theorem setByte_indexOutOfRange {v : Vec} {k : Int} (x : Int) (h : k < 0 ∨ (nbytes v.size : Int) ≤ k) :
    setByte v k x = .error .indexOutOfRange := if_pos ((not_indexOk_iff _ _).mpr h)

theorem setByte_invalidValue {v : Vec} {k x : Int} (low : 0 ≤ k) (high : k < nbytes v.size) (h : x < 0 ∨ 255 < x) :
    setByte v k x = .error .invalidValue := by
  rw [setByte, if_neg (not_not_indexOk low high), if_pos h]

theorem setByte_ok {v : Vec} {k x : Int} (low : 0 ≤ k) (high : k < nbytes v.size) (nonneg : 0 ≤ x) (small : x ≤ 255) :
    setByte v k x = .ok (v.memWrite k.toNat [BitVec.ofNat 8 x.toNat]) := by
  rw [setByte, if_neg (not_not_indexOk low high), if_neg (by omega), ← BitVec.ofInt_natCast,
    Int.toNat_of_nonneg nonneg]

theorem setBytesFromUnsigned_invalidSize {v : Vec} {n : Int} (value : Nat) (st : Int) (h : n < 0) :
    setBytesFromUnsigned v value st n = .error .invalidSize := if_pos h

theorem setBytesFromUnsigned_indexOutOfRange {v : Vec} {st n : Int} (value : Nat) (count : 0 ≤ n)
    (h : st < 0 ∨ (nbytes v.size : Int) < st + n) :
    setBytesFromUnsigned v value st n = .error .indexOutOfRange := by
  rw [setBytesFromUnsigned, if_neg (Int.not_lt.mpr count), if_pos h]

theorem setBytesFromUnsigned_ok {v : Vec} {st n : Int} (value : Nat) (count : 0 ≤ n) (low : 0 ≤ st)
    (high : st + n ≤ nbytes v.size) : setBytesFromUnsigned v value st n =
      .ok (v.memWrite st.toNat ((List.range n.toNat).map (beByte value n.toNat))) := by
  rw [setBytesFromUnsigned, if_neg (Int.not_lt.mpr count), if_neg (by omega)]

end Sys2Proof.Machine

namespace Sys2Proof.Claims

open Sys2Proof.Machine

/-- `MemWrite` of one byte (R13). -/
theorem memWrite_singleton_hasBytes (v : Vec) (k : Nat) (b : Byte) :
    HasBytes (v.memWrite k [b]) v.size fun j => if j = k then b else v.byte j := by
  refine ofBytes_hasBytes fun j _ => ?_
  by_cases at_k : j = k
  · rw [if_pos at_k, if_pos (by simp [at_k]), at_k, Nat.sub_self, List.getD_cons_zero]
  · have outside : ¬ (k ≤ j ∧ j < k + [b].length) := by
      rw [List.length_singleton]
      omega
    rw [if_neg at_k, if_neg outside]

/-- `MemWrite` of the `n` bytes `g 0` to `g (n - 1)` (R13). -/
theorem memWrite_range_hasBytes (v : Vec) (k n : Nat) (g : Nat → Byte) :
    HasBytes (v.memWrite k ((List.range n).map g)) v.size
      fun j => if k ≤ j ∧ j < k + n then g (j - k) else v.byte j := by
  refine ofBytes_hasBytes fun j _ => ?_
  rw [List.length_map, List.length_range]
  by_cases inside : k ≤ j ∧ j < k + n
  · have index : j - k < n := by omega
    rw [if_pos inside, if_pos inside]
    simp [List.getD, index]
  · rw [if_neg inside, if_neg inside]

end Sys2Proof.Claims
end

section
/-! SUPPORT. The obligations of bit, byte and range access (R120 to R124). -/

namespace Sys2Proof.Claims

open Sys2Proof.Machine

/-- Settles O28: the index, then the value, are in range or not, and the bit put is the only storage bit changed. -/
theorem vsetbWritesOneBit : Obligations.VsetbWritesOneBit := by
  unfold Obligations.VsetbWritesOneBit
  rintro d a b s i x rfl rfl
  refine ⟨decode_encode (.vsetb d a b), fun empty => finishV_raised (operand_of_none empty _), fun v present => ?_⟩
  have result : (s.vec d >>= fun p => setBit p (s.sx a) (s.sx b)) = setBit v (s.sx a) (s.sx b) :=
    operand_of_some present _
  refine ⟨fun outside => ?_, fun low high not0 not1 => ?_, fun low high value => ?_⟩
  · exact finishV_raised (result.trans (setBit_indexOutOfRange _ outside))
  · exact finishV_raised (result.trans (setBit_invalidValue low high not0 not1))
  · have index : (s.getX a).toInt.toNat < 8 * nbytes v.size :=
      Nat.lt_of_lt_of_le (by omega) (size_le_storage v.size)
    exact makes_of_ok rfl (result.trans (setBit_ok low high value)) ⟨rfl, putBit_length _ _ _,
      (putBit_bit _ index).trans (if_pos rfl), fun j stored other => (putBit_bit _ stored).trans (if_neg other)⟩

/-- Settles O29: the byte index, then the value, are in range or not, and the byte written is the only one changed. -/
theorem vsetyWritesOneByte : Obligations.VsetyWritesOneByte := by
  unfold Obligations.VsetyWritesOneByte
  rintro d a b s k x rfl rfl
  refine ⟨decode_encode (.vsety d a b), fun empty => finishV_raised (operand_of_none empty _), fun v present => ?_⟩
  have result : (s.vec d >>= fun p => setByte p (s.sx a) (s.sx b)) = setByte v (s.sx a) (s.sx b) :=
    operand_of_some present _
  refine ⟨fun outside => ?_, fun low high other => ?_, fun low high nonneg small => ?_⟩
  · exact finishV_raised (result.trans (setByte_indexOutOfRange _ outside))
  · exact finishV_raised (result.trans (setByte_invalidValue low high other))
  · exact makes_of_ok rfl (result.trans (setByte_ok low high nonneg small)) (memWrite_singleton_hasBytes v _ _)

/-- Settles O30: the count, then the range, are legal or not, and the bytes written are the number's big-endian
ones. -/
theorem vsetuWritesBytesBigEndian : Obligations.VsetuWritesBytesBigEndian := by
  unfold Obligations.VsetuWritesBytesBigEndian
  rintro d a b c s value st n rfl rfl rfl
  refine ⟨decode_encode (.vsetu d a b c), fun empty => finishV_raised (operand_of_none empty _),
    fun v present => ?_⟩
  have result : (s.vec d >>= fun p => setBytesFromUnsigned p (s.ux a) (s.sx b) (s.sx c)) =
      setBytesFromUnsigned v (s.ux a) (s.sx b) (s.sx c) := operand_of_some present _
  refine ⟨fun negative => ?_, fun count outside => ?_, fun count low high => ?_⟩
  · exact finishV_raised (result.trans (setBytesFromUnsigned_invalidSize _ _ negative))
  · exact finishV_raised (result.trans (setBytesFromUnsigned_indexOutOfRange _ count outside))
  · simp only [← beByte_eq_mod]
    exact makes_of_ok rfl (result.trans (setBytesFromUnsigned_ok _ count low high)) (memWrite_range_hasBytes v _ _ _)

/-- Settles O27: the index is in range, or on one of the two sides of it. -/
theorem vgetbReadsOneBit : Obligations.VgetbReadsOneBit := by
  unfold Obligations.VgetbReadsOneBit
  rintro d a b s i rfl
  refine ⟨decode_encode (.vgetb d a b), fun empty => finishX_raised (operand_of_none empty _), fun v present => ?_⟩
  have result : (s.vec a >>= fun p => getBit p (s.sx b)) = getBit v (s.sx b) := operand_of_some present _
  refine ⟨fun low high => ?_, fun outside => ?_⟩
  · exact finishX_wroteX (result.trans (getBit_ok low high))
  · exact finishX_raised (result.trans (getBit_indexOutOfRange outside))

/-- Settles O31: the range lies in the vector and is copied bit by bit, or it fails in one of the three ways. -/
theorem vsliceCopiesTheRange : Obligations.VsliceCopiesTheRange := by
  unfold Obligations.VsliceCopiesTheRange
  rintro d a b c s st e rfl rfl
  refine ⟨decode_encode (.vslice d a b c), fun empty => finishV_raised (operand_of_none empty _),
    fun v present => ?_⟩
  have result : (s.vec a >>= fun p => slice p (s.sx b) (s.sx c)) = slice v (s.sx b) (s.sx c) :=
    operand_of_some present _
  refine ⟨fun outside => ?_, fun low order high => ?_⟩
  · exact finishV_raised (result.trans (slice_indexOutOfRange outside))
  · exact makes_of_ok rfl (result.trans (slice_ok low order high)) (mkvec_hasBits fun _ _ => rfl)

end Sys2Proof.Claims
end

section
/-! SUPPORT. The operations of equality and of the boolean commands (R130 to R136), one equation for each of their
cases, and a command's two or three vector operands read one after the other (R184). -/

namespace Sys2Proof.Machine

variable {p q u : Vec}

theorem bitwise2_ok (f : Bool → Bool → Bool) (same : p.size = q.size) :
    bitwise2 f p q = .ok (mkvec p.size fun i => f (p.bit i) (q.bit i)) := if_neg (not_not_intro same)

theorem bitwise2_sizeMismatch (f : Bool → Bool → Bool) (differ : p.size ≠ q.size) :
    bitwise2 f p q = .error .sizeMismatch := if_pos differ

theorem bitwise3_ok (f : Bool → Bool → Bool → Bool) (same : p.size = q.size) (same' : q.size = u.size) :
    bitwise3 f p q u = .ok (mkvec p.size fun i => f (p.bit i) (q.bit i) (u.bit i)) :=
  if_neg (not_not_intro ⟨same, same'⟩)

theorem bitwise3_sizeMismatch (f : Bool → Bool → Bool → Bool) (differ : ¬ (p.size = q.size ∧ q.size = u.size)) :
    bitwise3 f p q u = .error .sizeMismatch := if_pos differ

/-- The complement of a byte is its distance from 255 (R131). -/
theorem byte_not_eq (b : Byte) : ~~~b = BitVec.ofNat 8 (255 - b.toNat) := by
  apply BitVec.eq_of_toNat_eq
  rw [BitVec.toNat_not, BitVec.toNat_ofNat, Nat.mod_eq_of_lt (by omega)]

/-- Every storage bit of the complement, scratch bits among them (R131). -/
theorem notVec_bit {i : Nat} (stored : i < 8 * nbytes p.size) : (notVec p).bit i = !p.bit i := by
  have position : 7 - i % 8 < 8 := by omega
  rw [notVec, ofBytes_bit _ stored, BitVec.getLsbD_not, decide_eq_true position, Bool.true_and, Vec.bit]

/-- Three bits have a 1 in two places exactly when the majority of them is 1 (R136). -/
theorem majority_eq_count (x y z : Bool) :
    ((x && y) || (x && z) || (y && z)) = decide (2 ≤ x.toNat + y.toNat + z.toNat) := by
  revert x y z
  decide

end Sys2Proof.Machine

namespace Sys2Proof.Claims

open Sys2Proof.Machine

theorem equalVec_iff (p q : Vec) : equalVec p q = true ↔ LogicEq p q := by
  simp only [equalVec, Bool.and_eq_true, beq_iff_eq, List.all_eq_true, List.mem_range, LogicEq]

variable {α : Type} {s : State} {a b c : VReg} {p q u : Vec}

theorem binary_of_some (hp : s.getV a = some p) (hq : s.getV b = some q) (f : Vec → Vec → Except Err α) :
    (s.vec a >>= fun p => s.vec b >>= f p) = f p q :=
  (operand_of_some hp _).trans (operand_of_some hq _)

theorem ternary_of_some (hp : s.getV a = some p) (hq : s.getV b = some q) (hu : s.getV c = some u)
    (f : Vec → Vec → Vec → Except Err α) :
    (s.vec a >>= fun p => s.vec b >>= fun q => s.vec c >>= f p q) = f p q u :=
  (operand_of_some hp _).trans (binary_of_some hq hu _)

theorem empty_of_two (h : s.getV a = none ∨ s.getV b = none) : ∃ r ∈ [a, b], s.getV r = none := by
  simpa using h

theorem empty_of_three (h : s.getV a = none ∨ s.getV b = none ∨ s.getV c = none) :
    ∃ r ∈ [a, b, c], s.getV r = none := by
  simpa using h

end Sys2Proof.Claims
end

section
/-! SUPPORT. The obligations of equality and of the boolean commands (R130 to R136). -/

namespace Sys2Proof.Claims

open Sys2Proof.Machine

/-- Settles O32: `equalVec` decides `LogicEq`, which speaks of the sizes and the logical bits alone. -/
theorem veqComparesLogicalBits : Obligations.VeqComparesLogicalBits := by
  unfold Obligations.VeqComparesLogicalBits
  intro d a b s
  refine ⟨decode_encode (.veq d a b), fun empty => exec_noVector (empty_of_two empty), fun p q hp hq => ?_⟩
  have result : (s.vec a >>= fun p => s.vec b >>= fun q => .ok (equalVec p q).toNat) = .ok (equalVec p q).toNat :=
    binary_of_some hp hq _
  rw [← equalVec_iff, Bool.not_eq_true]
  refine ⟨fun equal => ?_, fun unequal => ?_⟩
  · rw [equal] at result
    exact finishX_wroteX result
  · rw [unequal] at result
    exact finishX_wroteX result

/-- Settles O33: the result is made of the complemented bytes, and so of the complemented storage bits. -/
theorem vnotComplementsEveryByte : Obligations.VnotComplementsEveryByte := by
  unfold Obligations.VnotComplementsEveryByte
  intro d a s
  refine ⟨decode_encode (.vnot d a), fun empty => finishV_raised (operand_of_none empty _), fun p present => ?_⟩
  exact makes_of_ok rfl (operand_of_some present _)
    ⟨ofBytes_hasBytes fun k _ => byte_not_eq (p.byte k), fun _ => notVec_bit⟩

/-- Settles O34: the three commands are `bitwise2` of three functions of two bits. -/
theorem vorVandVxorBitByBit : Obligations.VorVandVxorBitByBit := by
  unfold Obligations.VorVandVxorBitByBit
  intro d a b s
  refine ⟨decode_encode (.vor d a b), decode_encode (.vand d a b), decode_encode (.vxor d a b),
    fun empty => ?_, fun p q hp hq => ?_⟩
  · have operand := empty_of_two empty
    exact ⟨exec_noVector operand, exec_noVector operand, exec_noVector operand⟩
  have result (f) : (s.vec a >>= fun p => s.vec b >>= bitwise2 f p) = bitwise2 f p q := binary_of_some hp hq _
  refine ⟨fun differ => ?_, fun same => ?_⟩
  · have error (f) := (result f).trans (bitwise2_sizeMismatch f differ)
    exact ⟨finishV_raised (error _), finishV_raised (error _), finishV_raised (error _)⟩
  · have ok (f) := (result f).trans (bitwise2_ok f same)
    exact ⟨makes_of_ok rfl (ok _) (mkvec_hasBits fun _ _ => rfl),
      makes_of_ok rfl (ok _) (mkvec_hasBits fun _ _ => rfl),
      makes_of_ok rfl (ok _) (mkvec_hasBits fun _ _ => rfl)⟩

/-- Settles O35: the two commands are `bitwise3` of two functions of three bits. -/
theorem vchooseVmajBitByBit : Obligations.VchooseVmajBitByBit := by
  unfold Obligations.VchooseVmajBitByBit
  intro d a b c s
  refine ⟨decode_encode (.vchoose d a b c), decode_encode (.vmaj d a b c), fun empty => ?_,
    fun p q u hp hq hu => ?_⟩
  · have operand := empty_of_three empty
    exact ⟨exec_noVector operand, exec_noVector operand⟩
  have result (f) : (s.vec a >>= fun p => s.vec b >>= fun q => s.vec c >>= bitwise3 f p q) = bitwise3 f p q u :=
    ternary_of_some hp hq hu _
  refine ⟨fun differ => ?_, fun same same' => ?_⟩
  · have error (f) := (result f).trans (bitwise3_sizeMismatch f differ)
    exact ⟨finishV_raised (error _), finishV_raised (error _)⟩
  · have ok (f) := (result f).trans (bitwise3_ok f same same')
    exact ⟨makes_of_ok rfl (ok _) (mkvec_hasBits fun _ _ => rfl),
      makes_of_ok rfl (ok _) (mkvec_hasBits fun _ _ => majority_eq_count _ _ _)⟩

end Sys2Proof.Claims
end

section
/-! SUPPORT. The shifts and rotates (R140 to R143): a right one is the left one by the negated count, a left one bit by
bit for every signed count, a shift on the number, and a rotation as the OR of two shifts. -/

namespace Sys2Proof.Machine

/-- Of two operations opposite to each other, the one for a negative count and the other for the rest are the two
exchanged at the negated count, if they agree at 0 (R12). -/
theorem signedCount_neg {f g : Nat → Vec} (zero : f 0 = g 0) (c : Int) :
    (if c < 0 then f (-c).toNat else g c.toNat) = if -c < 0 then g (- -c).toNat else f (-c).toNat := by
  obtain neg | rfl | pos := lt_trichotomy c 0
  · rw [if_pos neg, if_neg (by omega)]
  · exact zero.symm
  · rw [if_neg (by omega), if_pos (by omega), Int.neg_neg]

/-! ## Shifts -/

theorem shiftLeftBy_zero (v : Vec) : shiftLeftBy v 0 = shiftRightBy v 0 :=
  mkvec_congr fun i hi => by simp [hi]

/-- The symmetry of the shifts (R144). -/
theorem rshift_eq_lshift_neg (v : Vec) (c : Int) : rshift v c = lshift v (-c) :=
  signedCount_neg (shiftLeftBy_zero v) c

/-- The bit moved to index `i` by the left shift by a count of either sign. -/
def shiftedBit (v : Vec) (c : Int) (i : Nat) : Bool := decide (0 ≤ i + c ∧ i + c < v.size) && v.bit (i + c).toNat

theorem shiftedBit_in {v : Vec} {c : Int} {i j : Nat} (index : i + c = j) (hj : j < v.size) :
    shiftedBit v c i = v.bit j := by
  rw [shiftedBit, index, decide_eq_true (by omega), Bool.true_and, Int.toNat_natCast]

theorem shiftedBit_out {v : Vec} {c : Int} {i : Nat} (h : i + c < 0 ∨ v.size ≤ i + c) : shiftedBit v c i = false := by
  rw [shiftedBit, decide_eq_false (by omega), Bool.false_and]

theorem lshift_eq_mkvec (v : Vec) (c : Int) : lshift v c = mkvec v.size (shiftedBit v c) := by
  unfold lshift
  split
  · refine mkvec_congr fun i hi => ?_
    by_cases moved : (-c).toNat ≤ i
    · rw [shiftedBit_in (j := i - (-c).toNat) (by omega) (by omega), decide_eq_true moved, Bool.true_and]
    · rw [shiftedBit_out (by omega), decide_eq_false moved, Bool.false_and]
  · refine mkvec_congr fun i hi => ?_
    by_cases moved : i + c.toNat < v.size
    · rw [shiftedBit_in (j := i + c.toNat) (by omega) moved, decide_eq_true moved, Bool.true_and]
    · rw [shiftedBit_out (by omega), decide_eq_false moved, Bool.false_and]

theorem rshift_eq_mkvec (v : Vec) (c : Int) : rshift v c = mkvec v.size (shiftedBit v (-c)) := by
  rw [rshift_eq_lshift_neg, lshift_eq_mkvec]

@[simp] theorem lshift_size (v : Vec) (c : Int) : (lshift v c).size = v.size := by rw [lshift_eq_mkvec, mkvec_size]

@[simp] theorem rshift_size (v : Vec) (c : Int) : (rshift v c).size = v.size := by rw [rshift_eq_mkvec, mkvec_size]

/-- A left shift by the size or more moves every bit out (R144). -/
theorem lshift_of_size_le {v : Vec} {c : Int} (h : v.size ≤ c) : lshift v c = mkvec v.size fun _ => false := by
  rw [lshift_eq_mkvec]
  exact mkvec_congr fun i _ => shiftedBit_out (by omega)

/-! ## Shifts on the number -/

/-- Above the vector's bits its number has zeros (R10). -/
theorem testBit_val_of_size_le (v : Vec) {j : Nat} (h : v.size ≤ j) : v.val.testBit j = false :=
  Nat.testBit_lt_two_pow ((val_lt v).trans_le (Nat.pow_le_pow_right two_pos h))

/-- A left shift by at least 0 is the product with a power of 2 modulo `2^size` (R140). -/
theorem lshift_val (v : Vec) (c : Nat) : (lshift v c).val = v.val * 2 ^ c % 2 ^ v.size := by
  rw [lshift_eq_mkvec]
  refine val_eq_of_bits (v := mkvec v.size (shiftedBit v c)) fun i (hi : i < v.size) => ?_
  rw [mkvec_bit _ hi, mkvec_size, Nat.testBit_mul_two_pow]
  by_cases moved : i + c < v.size
  · rw [shiftedBit_in (j := i + c) (by omega) moved, decide_eq_true (by omega), Bool.true_and,
      bit_eq_testBit_val v moved, show v.size - 1 - (i + c) = v.size - 1 - i - c by omega]
  · rw [shiftedBit_out (by omega), decide_eq_false (by omega), Bool.false_and]

/-- A right shift by at least 0 is the quotient by a power of 2 (R141). -/
theorem rshift_val (v : Vec) (c : Nat) : (rshift v c).val = v.val / 2 ^ c := by
  have fits : v.val / 2 ^ c < 2 ^ v.size := (Nat.div_le_self _ _).trans_lt (val_lt v)
  rw [← Nat.mod_eq_of_lt fits, rshift_eq_mkvec]
  refine val_eq_of_bits (v := mkvec v.size (shiftedBit v (-c))) fun i (hi : i < v.size) => ?_
  rw [mkvec_bit _ hi, mkvec_size, Nat.testBit_div_two_pow]
  by_cases moved : c ≤ i
  · rw [shiftedBit_in (j := i - c) (by omega) (by omega), bit_eq_testBit_val v (by omega),
      show v.size - 1 - (i - c) = v.size - 1 - i + c by omega]
  · rw [shiftedBit_out (by omega), testBit_val_of_size_le v (by omega)]

/-! ## Rotates -/

theorem rotateLeftBy_zero (v : Vec) : rotateLeftBy v 0 = rotateRightBy v 0 :=
  mkvec_congr fun i _ => by simp

/-- The symmetry of the rotations (R144). -/
theorem rrotate_eq_lrotate_neg (v : Vec) (c : Int) : rrotate v c = lrotate v (-c) :=
  signedCount_neg (rotateLeftBy_zero v) c

theorem rotateLeftBy_eq_mkvec (v : Vec) (m : Nat) :
    rotateLeftBy v m = mkvec v.size fun i => v.bit (((i + m : Int) % v.size).toNat) :=
  mkvec_congr fun i _ => by rw [Nat.add_mod_mod]; norm_cast

theorem rotateRightBy_eq_mkvec (v : Vec) (m : Nat) :
    rotateRightBy v m = mkvec v.size fun i => v.bit (((i - m : Int) % v.size).toNat) := by
  refine mkvec_congr fun i hi => ?_
  have reduced : m % v.size ≤ v.size := (Nat.mod_lt m (by omega)).le
  have index : ((i - m : Int) % v.size) = ((i + (v.size - m % v.size)) % v.size : Nat) := by
    push_cast [reduced]
    rw [← Int.add_sub_assoc, Int.sub_emod_emod, add_sub_right_comm, Int.add_emod_right]
  rw [index, Int.toNat_natCast]

theorem lrotate_eq_mkvec (v : Vec) (c : Int) :
    lrotate v c = mkvec v.size fun i => v.bit ((i + c) % v.size).toNat := by
  unfold lrotate
  split
  · rw [rotateRightBy_eq_mkvec, Int.toNat_of_nonneg (by omega)]
    simp only [Int.sub_neg]
  · rw [rotateLeftBy_eq_mkvec, Int.toNat_of_nonneg (by omega)]

theorem rrotate_eq_mkvec (v : Vec) (c : Int) :
    rrotate v c = mkvec v.size fun i => v.bit ((i - c) % v.size).toNat := by
  rw [rrotate_eq_lrotate_neg, lrotate_eq_mkvec]
  rfl

/-- A rotation depends on its count modulo the size alone (R142). -/
theorem lrotate_congr {v : Vec} {c c' : Int} (h : c % v.size = c' % v.size) : lrotate v c = lrotate v c' := by
  rw [lrotate_eq_mkvec, lrotate_eq_mkvec]
  exact mkvec_congr fun i _ => by rw [Int.add_emod, h, ← Int.add_emod]

theorem orVec_comm {p q : Vec} (same : p.size = q.size) : orVec p q = orVec q p := by
  rw [orVec, orVec, bitwise2_ok _ same, bitwise2_ok _ same.symm, same]
  simp only [Bool.or_comm]

/-- The rotation by at most the size is the OR of the shift by the count and, for the bits that wrap around, of the
shift the other way by what is left of the size (R142). A size-0 vector has no bits, whatever the count. -/
theorem orVec_shifts {v : Vec} {k : Int} (range : 0 < v.size → 0 ≤ k ∧ k ≤ v.size) :
    orVec (lshift v k) (rshift v (v.size - k)) = .ok (lrotate v k) := by
  have same : (lshift v k).size = (rshift v (v.size - k)).size := by rw [lshift_size, rshift_size]
  rw [orVec, bitwise2_ok _ same, lshift_eq_mkvec, rshift_eq_mkvec, lrotate_eq_mkvec]
  refine congrArg Except.ok (mkvec_congr fun i (hi : i < v.size) => ?_)
  obtain ⟨low, high⟩ := range (by omega)
  rw [mkvec_bit _ hi, mkvec_bit _ hi]
  by_cases wraps : v.size ≤ i + k
  · have index : (i + k) % v.size = i + k - v.size := by
      rw [← Int.sub_emod_right, Int.emod_eq_of_lt (by omega) (by omega)]
    rw [shiftedBit_out (.inr wraps), shiftedBit_in (j := (i + k - v.size).toNat) (by omega) (by omega), Bool.false_or,
      index]
  · have index : (i + k) % v.size = i + k := Int.emod_eq_of_lt (by omega) (by omega)
    rw [shiftedBit_in (j := (i + k).toNat) (by omega) (by omega), shiftedBit_out (by omega), Bool.or_false, index]

/-- The bounds of a reduced count, which a size of 0 does not have. -/
theorem count_emod_range (c : Int) {n : Nat} (h : 0 < n) : 0 ≤ c % n ∧ c % n ≤ n :=
  ⟨Int.emod_nonneg c (by omega), (Int.emod_lt_of_pos c (by omega)).le⟩

/-- The OR of shifts for any count of a left rotation (R142). -/
theorem orVec_shifts_lrotate (v : Vec) (c : Int) :
    orVec (lshift v (c % v.size)) (rshift v (v.size - c % v.size)) = .ok (lrotate v c) := by
  rw [orVec_shifts (count_emod_range c), lrotate_congr (Int.emod_emod c v.size)]

/-- The OR of shifts for any count of a right rotation, which is the left one by what is left of the size (R143). -/
theorem orVec_shifts_rrotate (v : Vec) (c : Int) :
    orVec (rshift v (c % v.size)) (lshift v (v.size - c % v.size)) = .ok (rrotate v c) := by
  have range (h : 0 < v.size) : 0 ≤ v.size - c % v.size ∧ v.size - c % v.size ≤ v.size := by
    obtain ⟨low, high⟩ := count_emod_range c h
    omega
  have same : (rshift v (c % v.size)).size = (lshift v (v.size - c % v.size)).size := by
    rw [rshift_size, lshift_size]
  have left := orVec_shifts range
  rw [Int.sub_sub_self] at left
  have count : (v.size - c % v.size) % v.size = -c % v.size := by
    rw [Int.sub_emod_emod, sub_eq_neg_add, Int.add_emod_right]
  rw [orVec_comm same, left, rrotate_eq_lrotate_neg, lrotate_congr count]

end Sys2Proof.Machine
end

section
/-! SUPPORT. The obligations of the shifts and rotates (R140 to R144). -/

namespace Sys2Proof.Claims

open Sys2Proof.Machine

/-- Settles O36: the bits of each shift for every signed count, and its number for a count of at least 0. -/
theorem vshlVshrMoveTheBits : Obligations.VshlVshrMoveTheBits := by
  unfold Obligations.VshlVshrMoveTheBits
  rintro d a b s c rfl
  refine ⟨decode_encode (.vshl d a b), decode_encode (.vshr d a b),
    fun empty => ⟨finishV_raised (operand_of_none empty _), finishV_raised (operand_of_none empty _)⟩,
    fun v present => ⟨makes_of_ok rfl (operand_of_some present _) ⟨?_, fun nonneg => ?_⟩,
      makes_of_ok rfl (operand_of_some present _) ⟨?_, fun nonneg => ?_⟩⟩⟩
  · rw [lshift_eq_mkvec]
    exact mkvec_hasBits fun _ _ => rfl
  · have number := lshift_val v (s.getX b).toInt.toNat
    rwa [Int.toNat_of_nonneg nonneg] at number
  · rw [rshift_eq_mkvec]
    exact mkvec_hasBits fun _ _ => rfl
  · have number := rshift_val v (s.getX b).toInt.toNat
    rwa [Int.toNat_of_nonneg nonneg] at number

/-- Settles O37: the bits of each rotation for every signed count, and the two shifts it is the OR of. -/
theorem vrolVrorTurnTheBits : Obligations.VrolVrorTurnTheBits := by
  unfold Obligations.VrolVrorTurnTheBits
  rintro d a b s c rfl
  refine ⟨decode_encode (.vrol d a b), decode_encode (.vror d a b),
    fun empty => ⟨finishV_raised (operand_of_none empty _), finishV_raised (operand_of_none empty _)⟩,
    fun v present => ⟨makes_of_ok rfl (operand_of_some present _) ⟨?_, orVec_shifts_lrotate v _⟩,
      makes_of_ok rfl (operand_of_some present _) ⟨?_, orVec_shifts_rrotate v _⟩⟩⟩
  · rw [lrotate_eq_mkvec]
    exact mkvec_hasBits fun _ _ => rfl
  · rw [rrotate_eq_mkvec]
    exact mkvec_hasBits fun _ _ => rfl

/-- Settles O38: each law is the one between the two directions, or the rotation's count modulo the size. -/
theorem shiftAndRotateSymmetry : Obligations.ShiftAndRotateSymmetry := by
  unfold Obligations.ShiftAndRotateSymmetry
  intro v c
  refine ⟨?_, rshift_eq_lshift_neg v c, lshift_of_size_le, ?_, fun _ => ?_⟩
  · rw [rshift_eq_lshift_neg, Int.neg_neg]
  · rw [rrotate_eq_lrotate_neg, Int.neg_neg]
  · have count : c % v.size = -(v.size - c) % v.size := by
      rw [Int.neg_sub, Int.sub_emod_right]
    rw [rrotate_eq_lrotate_neg, lrotate_congr count]

end Sys2Proof.Claims
end

section
/-! SUPPORT. The operations of the addition and of the leading-zero count (R150 to R153): the carry chain of two
numbers in any base, the digits of a vector's number (its bits, and the full bytes before its partial last one), and the
index of the first 1. -/

namespace Sys2Proof.Machine

/-! ## The carry chain of two numbers -/

/-- The carry that the addition of `x` and `y` takes out of the digits below the weight `w`. -/
def lowCarry (w x y : Nat) : Nat := (x % w + y % w) / w

theorem lowCarry_one (x y : Nat) : lowCarry 1 x y = 0 := by simp [lowCarry, Nat.mod_one]

/-- The sum above the weight `w`. -/
theorem add_div_eq_add_lowCarry {w : Nat} (hw : 0 < w) (x y : Nat) :
    (x + y) / w = x / w + y / w + lowCarry w x y := by
  have parts : x + y = (x % w + y % w) + w * (x / w + y / w) := by
    have hx := Nat.mod_add_div x w
    have hy := Nat.mod_add_div y w
    rw [Nat.mul_add]
    omega
  rw [parts, Nat.add_mul_div_left _ _ hw, lowCarry, Nat.add_comm]

/-- The digit of weight `w` in base `b` of a sum: the two digits and the carry, modulo the base. -/
theorem add_digit {w : Nat} (hw : 0 < w) (b x y : Nat) :
    (x + y) / w % b = (x / w % b + y / w % b + lowCarry w x y) % b := by
  rw [add_div_eq_add_lowCarry hw, Nat.add_mod, Nat.add_mod (x / w), ← Nat.add_mod]

/-- The carry out of the digit of weight `w` in base `b`. -/
theorem lowCarry_mul {w : Nat} (hw : 0 < w) (b x y : Nat) :
    lowCarry (w * b) x y = (x / w % b + y / w % b + lowCarry w x y) / b := by
  have parts : x % (w * b) + y % (w * b) = (x % w + y % w) + w * (x / w % b + y / w % b) := by
    rw [Nat.mod_mul, Nat.mod_mul, Nat.mul_add]
    omega
  rw [lowCarry, parts, ← Nat.div_div_eq_div_mul, Nat.add_mul_div_left _ _ hw, lowCarry, Nat.add_comm]

/-! ## The digits of a vector's number -/

/-- Without its last `k` bits, a number is the one that the bits before them write. -/
theorem valUpto_div (v : Vec) (n k : Nat) : v.valUpto (n + k) / 2 ^ k = v.valUpto n := by
  induction k with
  | zero => exact Nat.div_one _
  | succ k ih =>
    have halves : v.valUpto (n + k + 1) / 2 = v.valUpto (n + k) := by
      have := Bool.toNat_le (v.bit (n + k))
      rw [Vec.valUpto]
      omega
    rw [← Nat.add_assoc, pow_succ', ← Nat.div_div_eq_div_mul, halves, ih]

theorem val_bit_digit {v : Vec} {n k : Nat} (size : v.size = n) (h : k < n) :
    v.val / 2 ^ k % 2 = (v.bit (n - 1 - k)).toNat := by
  subst size
  rw [← Nat.toNat_testBit, testBit_val v h]

/-- The full byte with `j` full bytes and the partial one after it (R62, R152). -/
theorem val_byte_digit {v : Vec} {n j : Nat} (size : v.size = n) (h : j < n / 8) :
    v.val / 2 ^ (n % 8 + 8 * j) % 256 = (v.byte (n / 8 - 1 - j)).toNat := by
  have cut : v.size = 8 * (n / 8 - 1 - j + 1) + (n % 8 + 8 * j) := by omega
  rw [Vec.val, cut, valUpto_div, valUpto_byte, Nat.mul_add_mod, Nat.mod_eq_of_lt (v.byte _).isLt]

/-- `vec` reads its number modulo `2^size` (R10). -/
theorem vecOf_mod (n x : Nat) : vecOf n (x % 2 ^ n) = vecOf n x :=
  mkvec_congr fun i hi => by rw [Nat.testBit_mod_two_pow, decide_eq_true (by omega), Bool.true_and]

/-- A full byte of `vec`, none of whose bits the reduction modulo `2^size` drops. -/
theorem vecOf_byte_toNat {n j : Nat} (x : Nat) (h : j < n / 8) :
    ((vecOf n x).byte (n / 8 - 1 - j)).toNat = x / 2 ^ (n % 8 + 8 * j) % 256 := by
  have weight : 2 ^ n = 2 ^ (n % 8 + 8 * j) * (256 * 2 ^ (8 * (n / 8 - 1 - j))) := by
    rw [show 256 = 2 ^ 8 from rfl, ← pow_add, ← pow_add]
    congr 1
    omega
  have digit := val_byte_digit (vecOf_size n x) h
  rw [vecOf_val, weight, Nat.mod_mul_right_div_self, Nat.mod_mul_right_mod] at digit
  exact digit.symm

/-! ## Addition -/

variable {p q : Vec}

theorem addMod_ok (same : p.size = q.size) : addMod p q = .ok (vecOf p.size (p.val + q.val)) := by
  rw [addMod, if_neg (not_not_intro same), vecOf_mod]

theorem addMod_sizeMismatch (differ : p.size ≠ q.size) : addMod p q = .error .sizeMismatch := if_pos differ

/-! ## The first 1 -/

/-- `m` is the first index from `lo` whose bit is 1, or `hi` if there is none before it. -/
def IsFirstOne (v : Vec) (lo hi m : Nat) : Prop :=
  lo ≤ m ∧ m ≤ hi ∧ (∀ i, lo ≤ i → i < m → v.bit i = false) ∧ (m < hi → v.bit m = true)

theorem countZeros_isFirstOne (v : Vec) (n fuel : Nat) : IsFirstOne v n (n + fuel) (countZeros v n fuel) := by
  induction fuel generalizing n with
  | zero =>
    rw [countZeros]
    exact ⟨le_rfl, le_rfl, by omega, by omega⟩
  | succ fuel ih =>
    rw [countZeros]
    split
    · next one => exact ⟨le_rfl, by omega, by omega, fun _ => one⟩
    · next zero =>
      obtain ⟨low, high, zeros, one⟩ := ih (n + 1)
      refine ⟨by omega, by omega, fun i hi hi' => ?_, fun h => one (by omega)⟩
      obtain rfl | later := Nat.eq_or_lt_of_le hi
      · exact Bool.eq_false_of_not_eq_true zero
      · exact zeros i later hi'

theorem leadingZeros_isFirstOne (v : Vec) : IsFirstOne v 0 v.size (leadingZeros v) := by
  have first := countZeros_isFirstOne v 0 v.size
  rwa [Nat.zero_add] at first

end Sys2Proof.Machine

namespace Sys2Proof.Claims

open Sys2Proof.Machine

/-! ## The carry chains of two vectors -/

variable {p q : Vec}

/-- The bit-wise chain is the carry chain of the numbers in base 2 (R150). -/
theorem carryIn_eq_lowCarry (same : p.size = q.size) {k : Nat} (h : k ≤ p.size) :
    carryIn p q k = lowCarry (2 ^ k) p.val q.val := by
  induction k with
  | zero => exact (lowCarry_one _ _).symm
  | succ k ih =>
    rw [carryIn, ih (by omega), pow_succ, lowCarry_mul (by positivity), val_bit_digit rfl h, val_bit_digit same.symm h]

/-- The byte-wise chain is the carry chain of the numbers in base 256, above the partial last byte (R152). -/
theorem byteCarryIn_eq_lowCarry (same : p.size = q.size) {j : Nat} (h : j ≤ p.size / 8) :
    byteCarryIn p q j = lowCarry (2 ^ (p.size % 8 + 8 * j)) p.val q.val := by
  induction j with
  | zero => exact carryIn_eq_lowCarry same (Nat.mod_le _ _)
  | succ j ih =>
    have weight : 2 ^ (p.size % 8 + 8 * (j + 1)) = 2 ^ (p.size % 8 + 8 * j) * 256 := by ring
    rw [byteCarryIn, ih (by omega), weight, lowCarry_mul (by positivity), val_byte_digit rfl h,
      val_byte_digit same.symm h]

/-- A bit of the sum (R150, R153). -/
theorem add_bit_digit (same : p.size = q.size) {k : Nat} (h : k < p.size) : (p.val + q.val) / 2 ^ k % 2 =
    ((p.bit (p.size - 1 - k)).toNat + (q.bit (p.size - 1 - k)).toNat + carryIn p q k) % 2 := by
  rw [add_digit (by positivity), val_bit_digit rfl h, val_bit_digit same.symm h,
    carryIn_eq_lowCarry same h.le]

/-- A full byte of the sum (R152). -/
theorem add_byte_digit (same : p.size = q.size) {j : Nat} (h : j < p.size / 8) :
    (p.val + q.val) / 2 ^ (p.size % 8 + 8 * j) % 256 =
      ((p.byte (p.size / 8 - 1 - j)).toNat + (q.byte (p.size / 8 - 1 - j)).toNat + byteCarryIn p q j) % 256 := by
  rw [add_digit (by positivity), val_byte_digit rfl h, val_byte_digit same.symm h,
    byteCarryIn_eq_lowCarry same h.le]

end Sys2Proof.Claims
end

section
/-! SUPPORT. The obligations of the arithmetic commands (R150 to R153). -/

namespace Sys2Proof.Claims

open Sys2Proof.Machine

/-- Settles O39: the result is `vec` of the sum, and the bits of the sum are the carry chain's. -/
theorem vaddAddsModuloTheSize : Obligations.VaddAddsModuloTheSize := by
  unfold Obligations.VaddAddsModuloTheSize
  intro d a b s
  refine ⟨decode_encode (.vadd d a b), fun empty => exec_noVector (empty_of_two empty), fun p q hp hq => ?_⟩
  have result : (s.vec a >>= fun p => s.vec b >>= addMod p) = addMod p q := binary_of_some hp hq _
  refine ⟨fun differ => finishV_raised (result.trans (addMod_sizeMismatch differ)), fun same => ?_⟩
  refine makes_of_ok rfl (result.trans (addMod_ok same)) ⟨mkvec_hasBits fun i hi => ?_, vecOf_val _ _⟩
  have index : p.size - 1 - (p.size - 1 - i) = i := by omega
  rw [Nat.testBit_eq_decide_div_mod_eq, add_bit_digit same (by omega), index]

/-- Settles O40: the sum of the numbers, read in base 2 on the partial last byte and in base 256 above it. -/
theorem vaddIsTheCarryChain : Obligations.VaddIsTheCarryChain := by
  unfold Obligations.VaddIsTheCarryChain
  intro p q same
  refine ⟨_, addMod_ok same, rfl, fun k hk => ?_, fun j hj => ?_⟩
  · have inside : k < p.size := hk.trans_le (Nat.mod_le _ _)
    have index : p.size - 1 - (p.size - 1 - k) = k := by omega
    rw [vecOf_bit (by omega), index, Nat.toNat_testBit, add_bit_digit same inside]
  · rw [vecOf_byte_toNat _ hj, add_byte_digit same hj]

/-- Settles O41: the loop stops at the first 1 or at the size, and reads no bit past it. -/
theorem vclzCountsLeadingZeros : Obligations.VclzCountsLeadingZeros := by
  unfold Obligations.VclzCountsLeadingZeros
  intro d a s
  refine ⟨decode_encode (.vclz d a), fun empty => exec_noVector ⟨a, List.mem_singleton_self a, empty⟩,
    fun v present => ?_⟩
  have result : (s.vec a >>= fun v => .ok (leadingZeros v)) = .ok (leadingZeros v) := operand_of_some present _
  obtain ⟨_, bound, zeros, one⟩ := leadingZeros_isFirstOne v
  exact ⟨leadingZeros v, bound, finishX_wroteX result, fun i hi => zeros i i.zero_le hi, one⟩

end Sys2Proof.Claims
end

section
/-! SUPPORT. The texts of the conversion commands (R160 to R162): the cases of `textVec`, the string that a vector was
parsed from, and the digits of each byte of the two dumps. -/

namespace Sys2Proof.Machine

/-! ## Texts -/

theorem textVec_invalidSize {n : Nat} (g : Nat → Byte) (long : Config.VLEN_MAX < 8 * n) :
    textVec n g = .error .invalidSize := if_pos long

/-- A text with the `c` characters `char k 0` to `char k (c - 1)` for each `k` below `n`. -/
theorem textVec_groups {c n : Nat} (char : Nat → Nat → Byte) (fits : 8 * (c * n) ≤ Config.VLEN_MAX) :
    ∃ r, textVec (c * n) (fun i => char (i / c) (i % c)) = .ok r ∧ r.size = 8 * (c * n) ∧ r.bytes.length = c * n ∧
      ∀ k < n, ∀ j < c, r.byte (c * k + j) = char k j := by
  refine ⟨ofBytes (8 * (c * n)) _, if_neg (Nat.not_lt.mpr fits), rfl, ?_, fun k hk j hj => ?_⟩
  · rw [ofBytes_length, nbytes_mul8]
  · have inside : c * k + j < c * n := calc
      c * k + j < c * (k + 1) := Nat.add_lt_add_left hj (c * k)
      _ ≤ c * n := Nat.mul_le_mul_left c hk
    rw [ofBytes_byte _ (by rwa [nbytes_mul8]), Nat.mul_add_div (Nat.zero_lt_of_lt hj), Nat.div_eq_of_lt hj,
      Nat.mul_add_mod, Nat.mod_eq_of_lt hj, Nat.add_zero]

/-! ## The binary string -/

theorem toBinString_invalidSize {v : Vec} (long : Config.VLEN_MAX < 8 * v.size) :
    toBinString v = .error .invalidSize := textVec_invalidSize _ long

/-- Only a string of whole characters '0' and '1' parses, to the vector of the bits they name (R101). -/
theorem initFromBitString_eq_ok {p v : Vec} (h : initFromBitString p = .ok v) :
    p.size % 8 = 0 ∧ IsBitString p ∧ v = mkvec (p.size / 8) fun i => p.byte i == 0x31 := by
  have whole : p.size % 8 = 0 := by
    by_contra ragged
    cases (initFromBitString_invalidSize ragged).symm.trans h
  have chars : IsBitString p := by
    by_contra other
    cases (initFromBitString_invalidCharacter whole other).symm.trans h
  exact ⟨whole, chars, Except.ok.inj (h.symm.trans (initFromBitString_ok whole chars))⟩

/-- A '0' or '1' is the character of the bit it names (R101, R160). -/
theorem bitChar_of_char {b : Byte} (h : b = 0x30 ∨ b = 0x31) : bitChar (b == 0x31) = b := by
  rcases h with rfl | rfl <;> decide

/-- The characters of a parsed vector's bits are the string it was parsed from (R160). -/
theorem ofBytes_bitChars_of_parsed {p v : Vec} (wf : p.wf = true) (parsed : initFromBitString p = .ok v) :
    (ofBytes (8 * v.size) fun i => bitChar (v.bit i)) = p := by
  obtain ⟨whole, chars, rfl⟩ := initFromBitString_eq_ok parsed
  have size : 8 * (p.size / 8) = p.size := by omega
  have stored : nbytes p.size = p.size / 8 := by rw [← nbytes_mul8 (p.size / 8), size]
  rw [mkvec_size, size]
  refine (eq_ofBytes _ ((Vec.wf_iff p).mp wf).1 fun k hk => ?_).symm
  rw [stored] at hk
  rw [mkvec_bit _ hk, bitChar_of_char (chars k hk)]

/-! ## The dumps -/

/-- The character of a digit below 16 is the table's (R161). -/
theorem hexDigit_eq_hexChars : ∀ n < 16, hexDigit n = Claims.hexChars.getD n 0 := by decide

/-- Character `j` of the two for byte `k` of a hex dump (R161). -/
def hexDumpChar (v : Vec) (k j : Nat) : Byte :=
  hexDigit (if j = 0 then (v.byte k).toNat / 16 else (v.byte k).toNat % 16)

theorem toHexDump_eq_textVec (v : Vec) :
    toHexDump v = textVec (2 * nbytes v.size) fun i => hexDumpChar v (i / 2) (i % 2) := rfl

theorem toHexDump_invalidSize {v : Vec} (long : Config.VLEN_MAX < 16 * nbytes v.size) :
    toHexDump v = .error .invalidSize := textVec_invalidSize _ (by omega)

/-- The two digits of each storage byte, the high nibble first (R161). -/
theorem toHexDump_ok {v : Vec} (fits : 16 * nbytes v.size ≤ Config.VLEN_MAX) :
    ∃ r, toHexDump v = .ok r ∧ r.size = 16 * nbytes v.size ∧ r.bytes.length = 2 * nbytes v.size ∧
      ∀ k < nbytes v.size, r.byte (2 * k) = hexDigit ((v.byte k).toNat / 16) ∧
        r.byte (2 * k + 1) = hexDigit ((v.byte k).toNat % 16) := by
  obtain ⟨r, text, size, length, char⟩ := textVec_groups (c := 2) (n := nbytes v.size) (hexDumpChar v) (by omega)
  rw [toHexDump_eq_textVec]
  exact ⟨r, text, by omega, length, fun k hk => ⟨char k hk 0 (by decide), char k hk 1 (by decide)⟩⟩

/-- Digit `j` of the three decimal digits of a byte, the hundreds first (R162). -/
def decDigit (n j : Nat) : Nat := if j = 0 then n / 100 else if j = 1 then n / 10 % 10 else n % 10

theorem decDigit_lt {n : Nat} (byte : n < 256) (j : Nat) : decDigit n j < 10 := by
  unfold decDigit
  split_ifs <;> omega

/-- Character `j` of the three for byte `k` of a decimal dump (R162). -/
def decDumpChar (v : Vec) (k j : Nat) : Byte := BitVec.ofNat 8 (0x30 + decDigit (v.byte k).toNat j)

/-- The sum of a digit and the character of 0 fits in a byte. -/
theorem toNat_decDumpChar (v : Vec) (k j : Nat) : (decDumpChar v k j).toNat = 0x30 + decDigit (v.byte k).toNat j := by
  have digit := decDigit_lt (v.byte k).isLt j
  exact Nat.mod_eq_of_lt (by omega)

theorem toDecDump_eq_textVec (v : Vec) :
    toDecDump v = textVec (3 * nbytes v.size) fun i => decDumpChar v (i / 3) (i % 3) := rfl

theorem toDecDump_invalidSize {v : Vec} (long : Config.VLEN_MAX < 24 * nbytes v.size) :
    toDecDump v = .error .invalidSize := textVec_invalidSize _ (by omega)

/-- The three digits of each storage byte, the hundreds first (R162). -/
theorem toDecDump_ok {v : Vec} (fits : 24 * nbytes v.size ≤ Config.VLEN_MAX) :
    ∃ r, toDecDump v = .ok r ∧ r.size = 24 * nbytes v.size ∧ r.bytes.length = 3 * nbytes v.size ∧
      ∀ k < nbytes v.size, (r.byte (3 * k)).toNat = 0x30 + (v.byte k).toNat / 100 ∧
        (r.byte (3 * k + 1)).toNat = 0x30 + (v.byte k).toNat / 10 % 10 ∧
        (r.byte (3 * k + 2)).toNat = 0x30 + (v.byte k).toNat % 10 := by
  obtain ⟨r, text, size, length, char⟩ := textVec_groups (c := 3) (n := nbytes v.size) (decDumpChar v) (by omega)
  rw [toDecDump_eq_textVec]
  have digit : ∀ k < nbytes v.size, ∀ j < 3, (r.byte (3 * k + j)).toNat = 0x30 + decDigit (v.byte k).toNat j :=
    fun k hk j hj => by rw [char k hk j hj, toNat_decDumpChar]
  exact ⟨r, text, by omega, length, fun k hk =>
    ⟨digit k hk 0 (by decide), digit k hk 1 (by decide), digit k hk 2 (by decide)⟩⟩

end Sys2Proof.Machine
end

section
/-! SUPPORT. The obligations of the text conversions (R160 to R162). -/

namespace Sys2Proof.Claims

open Sys2Proof.Machine

/-- Settles O42: the text has the character of each logical bit, and those characters of a parsed vector are the string
it was parsed from. -/
theorem vtobinWritesTheBits : Obligations.VtobinWritesTheBits := by
  unfold Obligations.VtobinWritesTheBits
  intro d a s
  refine ⟨decode_encode (.vtobin d a), fun empty => finishV_raised (operand_of_none empty _), fun v present => ?_⟩
  have result : (s.vec a >>= toBinString) = toBinString v := operand_of_some present _
  refine ⟨fun long => finishV_raised (result.trans (toBinString_invalidSize long)), fun fits => ?_⟩
  exact makes_of_ok rfl (result.trans (toBinString_ok fits))
    ⟨ofBytes_hasBytes fun _ _ => rfl, fun _ => ofBytes_bitChars_of_parsed⟩

/-- Settles O43: each nibble is below 16, so its digit is the table's. -/
theorem vtohexDumpsTheBytes : Obligations.VtohexDumpsTheBytes := by
  unfold Obligations.VtohexDumpsTheBytes
  intro d a s
  refine ⟨decode_encode (.vtohex d a), fun empty => finishV_raised (operand_of_none empty _), fun v present => ?_⟩
  have result : (s.vec a >>= toHexDump) = toHexDump v := operand_of_some present _
  refine ⟨fun long => finishV_raised (result.trans (toHexDump_invalidSize long)), fun fits => ?_⟩
  obtain ⟨r, text, size, length, digits⟩ := toHexDump_ok fits
  refine makes_of_ok rfl (result.trans text) ⟨size, length, fun k hk => ?_⟩
  have byte : (v.byte k).toNat < 256 := (v.byte k).isLt
  rw [← hexDigit_eq_hexChars _ (by omega), ← hexDigit_eq_hexChars _ (by omega)]
  exact digits k hk

/-- Settles O44: the dump has the three decimal digits of each storage byte, and each is below 10. -/
theorem vtodecDumpsTheBytes : Obligations.VtodecDumpsTheBytes := by
  unfold Obligations.VtodecDumpsTheBytes
  intro d a s
  refine ⟨decode_encode (.vtodec d a), fun empty => finishV_raised (operand_of_none empty _), fun v present => ?_⟩
  have result : (s.vec a >>= toDecDump) = toDecDump v := operand_of_some present _
  refine ⟨fun long => finishV_raised (result.trans (toDecDump_invalidSize long)), fun fits => ?_⟩
  obtain ⟨r, text, size, length, digits⟩ := toDecDump_ok fits
  exact makes_of_ok rfl (result.trans text) ⟨size, length, digits⟩

end Sys2Proof.Claims
end

section
/-! SUPPORT. The SHA-256 unit's operations on Words as the engine's on size-32 vectors (R200, R203 to R209), bit by
bit, and the padding of R210 written out. -/

namespace Sys2Proof.Claims

open Sys2Proof.Machine

/-! ## Words as size-32 vectors -/

variable (x y z : Word)

@[simp] theorem vecOfWord_size : (vecOfWord x).size = 32 := vecOf_size 32 x.toNat

theorem vecOfWord_size_eq : (vecOfWord x).size = (vecOfWord y).size :=
  (vecOfWord_size x).trans (vecOfWord_size y).symm

theorem vecOfWord_val : (vecOfWord x).val = x.toNat := by
  rw [vecOfWord, vecOf_val, Nat.mod_eq_of_lt x.isLt]

theorem vecOfWord_bit {i : Nat} (h : i < 32) : (vecOfWord x).bit i = x.getLsbD (31 - i) := vecOf_bit h

variable {x y z}

/-- A size-32 vector is the Word's that has its bits, the first the most significant (R10). -/
theorem mkvec_eq_vecOfWord {f : Nat → Bool} (h : ∀ i < 32, f i = x.getLsbD (31 - i)) : mkvec 32 f = vecOfWord x :=
  mkvec_eq_vecOf h

variable (x y z)

theorem rrotate_vecOfWord (n : Nat) : rrotate (vecOfWord x) n = vecOfWord (rotrWord x n) := by
  rw [rrotate_eq_mkvec]
  refine mkvec_eq_vecOfWord fun i hi => ?_
  rw [vecOfWord_size, vecOfWord_bit x (by omega), rotrWord, BitVec.getLsbD_rotateRight]
  by_cases wraps : 31 - i < 32 - n % 32
  · rw [decide_eq_true wraps, cond_true]
    congr 1
    omega
  · rw [decide_eq_false wraps, cond_false, decide_eq_true (by omega), Bool.true_and]
    congr 1
    omega

theorem rshift_vecOfWord (n : Nat) : rshift (vecOfWord x) n = vecOfWord (shrWord x n) := by
  rw [rshift_eq_mkvec]
  refine mkvec_eq_vecOfWord fun i hi => ?_
  rw [shrWord, BitVec.getLsbD_ushiftRight]
  by_cases moved : n ≤ i
  · rw [shiftedBit_in (j := i - n) (by omega) (by rw [vecOfWord_size]; omega), vecOfWord_bit x (by omega)]
    congr 1
    omega
  · rw [shiftedBit_out (by omega), BitVec.getLsbD_of_ge x _ (by omega)]

theorem xorVec_vecOfWord : xorVec (vecOfWord x) (vecOfWord y) = .ok (vecOfWord (x ^^^ y)) := by
  rw [xorVec, bitwise2_ok _ (vecOfWord_size_eq x y)]
  refine congrArg Except.ok (mkvec_eq_vecOfWord fun i hi => ?_)
  rw [vecOfWord_bit x hi, vecOfWord_bit y hi, BitVec.getLsbD_xor]

theorem addMod_vecOfWord : addMod (vecOfWord x) (vecOfWord y) = .ok (vecOfWord (x + y)) := by
  rw [addMod_ok (vecOfWord_size_eq x y), vecOfWord_val, vecOfWord_val, vecOfWord_size, ← vecOf_mod, ← BitVec.toNat_add]
  rfl

theorem chooseVec_vecOfWord :
    chooseVec (vecOfWord x) (vecOfWord y) (vecOfWord z) = .ok (vecOfWord (chooseWord x y z)) := by
  rw [chooseVec, bitwise3_ok _ (vecOfWord_size_eq x y) (vecOfWord_size_eq y z)]
  refine congrArg Except.ok (mkvec_eq_vecOfWord fun i hi => ?_)
  rw [vecOfWord_bit x hi, vecOfWord_bit y hi, vecOfWord_bit z hi, chooseWord, BitVec.getLsbD_or, BitVec.getLsbD_and,
    BitVec.getLsbD_and, BitVec.getLsbD_not, decide_eq_true (by omega)]
  cases x.getLsbD (31 - i) <;> simp

theorem majorityVec_vecOfWord :
    majorityVec (vecOfWord x) (vecOfWord y) (vecOfWord z) = .ok (vecOfWord (majorityWord x y z)) := by
  rw [majorityVec, bitwise3_ok _ (vecOfWord_size_eq x y) (vecOfWord_size_eq y z)]
  refine congrArg Except.ok (mkvec_eq_vecOfWord fun i hi => ?_)
  rw [vecOfWord_bit x hi, vecOfWord_bit y hi, vecOfWord_bit z hi, majorityWord, BitVec.getLsbD_or, BitVec.getLsbD_or,
    BitVec.getLsbD_and, BitVec.getLsbD_and, BitVec.getLsbD_and]

variable {x y z}

/-- The shape of the four sigma functions (R204 to R207). -/
theorem xorVec_three {p q u : Vec} (hp : p = vecOfWord x) (hq : q = vecOfWord y) (hu : u = vecOfWord z) :
    (do
      let r ← xorVec p q
      xorVec r u) = .ok (vecOfWord (x ^^^ y ^^^ z)) := by
  rw [hp, hq, hu, xorVec_vecOfWord]
  exact xorVec_vecOfWord (x ^^^ y) z

/-! ## Padding -/

/-- The unit's padding is R210's, with the length's bits read from its number. -/
theorem pad_eq_padded (m : Vec) : pad m = padded m := by
  rw [pad_eq, padded]
  refine mkvec_congr fun i hi => ?_
  by_cases message : i < m.size
  · rw [if_pos message, if_pos message]
  rw [if_neg message, if_neg message]
  by_cases one : i = m.size
  · rw [if_pos one, if_pos (by omega), decide_eq_true one]
  rw [if_neg one]
  split
  · rw [decide_eq_false one]
  · refine (vecOf_bit (by omega)).trans (congrArg m.size.testBit ?_)
    omega

theorem padded_hasBits (m : Vec) {size : Nat} (hs : size = 512 * ((m.size + 64) / 512 + 1)) :
    HasBits (padded m) size fun i =>
      if i < m.size then m.bit i
      else if i < size - 64 then decide (i = m.size)
      else m.size.testBit (size - 1 - i) := by
  rw [padded, ← hs]
  exact mkvec_hasBits fun _ _ => rfl

/-- The operation of `VPAD` (R223). -/
def padChecked (m : Vec) : Except Err Vec :=
  if m.size % 8 ≠ 0 then .error .invalidSize
  else if (pad m).size > Config.VLEN_MAX then .error .invalidSize
  else .ok (pad m)

theorem exec_vpad (d a : VReg) (s : State) : exec (.vpad d a) s = finishV s d (s.vec a >>= padChecked) := rfl

theorem padChecked_invalidSize {m : Vec}
    (bad : m.size % 8 ≠ 0 ∨ Config.VLEN_MAX < 512 * ((m.size + 64) / 512 + 1)) :
    padChecked m = .error .invalidSize := by
  rw [padChecked, pad_size]
  split_ifs with part long
  · rfl
  · rfl
  · exact absurd bad (not_or.mpr ⟨part, long⟩)

theorem padChecked_ok {m : Vec} (whole : m.size % 8 = 0) (fits : 512 * ((m.size + 64) / 512 + 1) ≤ Config.VLEN_MAX) :
    padChecked m = .ok (padded m) := by
  rw [padChecked, pad_size, if_neg (not_not_intro whole), if_neg fits.not_gt, pad_eq_padded]

end Sys2Proof.Claims
end

section
/-! SUPPORT. The obligations of the Word operations and of padding (R200, R204 to R210, R223). -/

namespace Sys2Proof.Claims

open Sys2Proof.Machine

/-- Settles O50: each operation of the engine makes the Word operation's vector bit by bit, so that the XORs of the
sigma functions have vectors of Words as operands. -/
theorem wordOperationsAreTheEngines : Obligations.WordOperationsAreTheEngines := by
  unfold Obligations.WordOperationsAreTheEngines
  intro x y z
  exact ⟨fun n => ⟨rrotate_vecOfWord x n, rshift_vecOfWord x n⟩, xorVec_vecOfWord x y, addMod_vecOfWord x y,
    chooseVec_vecOfWord x y z, majorityVec_vecOfWord x y z,
    xorVec_three (rrotate_vecOfWord x 7) (rrotate_vecOfWord x 18) (rshift_vecOfWord x 3),
    xorVec_three (rrotate_vecOfWord x 17) (rrotate_vecOfWord x 19) (rshift_vecOfWord x 10),
    xorVec_three (rrotate_vecOfWord x 2) (rrotate_vecOfWord x 13) (rrotate_vecOfWord x 22),
    xorVec_three (rrotate_vecOfWord x 6) (rrotate_vecOfWord x 11) (rrotate_vecOfWord x 25)⟩

/-- Settles O46: the two size checks fail, or pass and leave the padding of R210. -/
theorem vpadPadsTheMessage : Obligations.VpadPadsTheMessage := by
  unfold Obligations.VpadPadsTheMessage
  intro d a s
  refine ⟨decode_encode (.vpad d a), fun empty => finishV_raised (operand_of_none empty padChecked), ?_⟩
  rintro m present _ rfl
  have result : (s.vec a >>= padChecked) = padChecked m := operand_of_some present _
  exact ⟨fun bad => finishV_raised (result.trans (padChecked_invalidSize bad)), fun whole fits =>
    makes_of_ok (exec_vpad d a s) (result.trans (padChecked_ok whole fits)) (padded_hasBits m rfl)⟩

end Sys2Proof.Claims
end

section
/-! SUPPORT. The SHA-256 unit against the algorithm of R210 to R215: what each part of a block's run leaves (R218 to
R221), then the run of a block, of all blocks, and of `VHASH`. -/

namespace Sys2Proof.Machine

open Claims

/-! ## Runs of the unit -/

/-- `v` is the unit after `n` steps from `u`, none of them made while `IDLE`. -/
def ShaUnit.RunsTo (u : ShaUnit) (n : Nat) (v : ShaUnit) : Prop :=
  shaStep^[n] u = v ∧ ∀ k < n, (shaStep^[k] u).phase ≠ .idle

namespace ShaUnit.RunsTo

variable {u v x : ShaUnit} {m n : Nat}

theorem refl (u : ShaUnit) : u.RunsTo 0 u := ⟨rfl, fun _ h => absurd h (Nat.not_lt_zero _)⟩

theorem next (h : u.RunsTo n v) (busy : v.phase ≠ .idle) (step : shaStep v = x) : u.RunsTo (n + 1) x := by
  obtain ⟨rfl, before⟩ := h
  refine ⟨(Function.iterate_succ_apply' ..).trans step, fun k hk => ?_⟩
  obtain earlier | rfl := Nat.lt_or_eq_of_le (Nat.le_of_lt_succ hk)
  · exact before k earlier
  · exact busy

theorem trans (h : u.RunsTo m v) (h' : v.RunsTo n x) : u.RunsTo (m + n) x := by
  induction n generalizing x with
  | zero =>
    obtain ⟨rfl, -⟩ := h'
    exact h
  | succ n ih =>
    obtain ⟨ends, busy⟩ := h'
    have upTo : v.RunsTo n (shaStep^[n] v) := ⟨rfl, fun k hk => busy k (Nat.lt_succ_of_lt hk)⟩
    exact (ih upTo).next (busy n (Nat.lt_succ_self n)) ((Function.iterate_succ_apply' ..).symm.trans ends)

end ShaUnit.RunsTo

/-! ## The schedule -/

theorem schedule_length (m : Vec) (j n : Nat) : (schedule m j n).length = 16 + n := by
  induction n with
  | zero => rfl
  | succ n ih =>
    rw [schedule, List.length_append, ih]
    rfl

/-- A later Word of the schedule changes no earlier one. -/
theorem schedule_succ_getD (m : Vec) (j : Nat) {n i : Nat} (h : i < 16 + n) :
    (schedule m j (n + 1)).getD i 0 = (schedule m j n).getD i 0 := by
  rw [schedule]
  exact List.getD_append _ _ _ _ (by rwa [schedule_length])

/-- The Word that R212 computes. -/
theorem schedule_succ_getD_last (m : Vec) (j n : Nat) : (schedule m j (n + 1)).getD (16 + n) 0 =
    lowerSigma1 ((schedule m j n).getD (16 + n - 2) 0) + (schedule m j n).getD (16 + n - 7) 0 +
      lowerSigma0 ((schedule m j n).getD (16 + n - 15) 0) + (schedule m j n).getD (16 + n - 16) 0 := by
  rw [schedule, List.getD_append_right _ _ _ _ (by rw [schedule_length]), schedule_length, Nat.sub_self]
  rfl

/-- The first `16 + n` entries of `w` are the schedule's. -/
def HoldsSchedule (w : Vector Word 64) (m : Vec) (j n : Nat) : Prop :=
  ∀ i < 16 + n, w[i]?.getD 0 = (schedule m j n).getD i 0

/-- The unit in `SCHED`, with `w` and `t` as they are then. -/
def ShaUnit.scheduling (u : ShaUnit) (w : Vector Word 64) (t : Nat) : ShaUnit :=
  { u with w := w, t := t, phase := .sched }

/-- The `LOAD` step (R211, R218). -/
theorem load_runsTo {u : ShaUnit} (h : u.phase = .load) :
    ∃ w, u.RunsTo 1 (u.scheduling w 16) ∧ HoldsSchedule w u.m u.blk 0 := by
  refine ⟨_, (ShaUnit.RunsTo.refl u).next (by simp [h]) (shaStep_load h), fun i hi => ?_⟩
  have word : messageWord u.m u.blk i = blockWord u.m u.blk i := (blockWord_eq_bytes ..).symm
  simp [schedule, List.getD, hi, word, show i < 64 by omega]

/-- `LOAD` and `n` of the `SCHED` steps that make a Word (R212, R219). -/
theorem sched_runsTo {u : ShaUnit} (h : u.phase = .load) {n : Nat} (hn : n ≤ 48) :
    ∃ w, u.RunsTo (1 + n) (u.scheduling w (16 + n)) ∧ HoldsSchedule w u.m u.blk n := by
  induction n with
  | zero => exact load_runsTo h
  | succ n ih =>
    obtain ⟨w, run, holds⟩ := ih (by omega)
    refine ⟨_, run.next nofun (shaStep_sched rfl (show 16 + n < 64 by omega)), fun i hi => ?_⟩
    refine (wAt_write (u.scheduling w (16 + n)) _ i (show 16 + n < 64 by omega)).trans ?_
    split
    · next last =>
      rw [last, schedule_succ_getD_last, ← holds _ (by omega), ← holds _ (by omega), ← holds _ (by omega),
        ← holds _ (by omega)]
      rfl
    · rw [schedule_succ_getD _ _ (by omega)]
      exact holds i (by omega)

/-! ## The rounds -/

/-- The unit in `ROUND`, with the working variables and `t` as they are then. -/
def ShaUnit.rounding (u : ShaUnit) (w : Vector Word 64) (v : Vars) (t : Nat) : ShaUnit :=
  { u with
    w := w, a := v.a, b := v.b, c := v.c, d := v.d, e := v.e, f := v.f, g := v.g, hh := v.h, t := t, phase := .round }

/-- The running hash state, `H[0]` to `H[7]`. -/
def ShaUnit.running (u : ShaUnit) : Vars :=
  ⟨u.hAt 0, u.hAt 1, u.hAt 2, u.hAt 3, u.hAt 4, u.hAt 5, u.hAt 6, u.hAt 7⟩

theorem kAt_eq (t : Nat) : kAt t = roundConstants.getD t 0 := rfl

/-- `t` of the `ROUND` steps that do a round (R213, R220). -/
theorem rounds_runsTo (u : ShaUnit) {w : Vector Word 64} (v : Vars) {words : List Word}
    (holds : ∀ i < 64, w[i]?.getD 0 = words.getD i 0) {t : Nat} (ht : t ≤ 64) :
    (u.rounding w v 0).RunsTo t (u.rounding w (rounds words v t) t) := by
  induction t with
  | zero => exact .refl _
  | succ t ih =>
    refine (ih (by omega)).next nofun ((shaStep_round rfl (show t < 64 by omega)).trans ?_)
    rw [rounds, ← holds t (by omega), ← kAt_eq]
    rfl

/-! ## The blocks -/

/-- The unit with `j` of the `n` blocks of the padded message `p` done, before it goes on to the next, or to `DONE`. -/
structure ShaUnit.AtBlock (p : Vec) (n j : Nat) (u : ShaUnit) : Prop where
  message : u.m = p
  count   : u.nblk = n
  block   : u.blk = j
  running : u.running = hashState p j
  phase   : u.phase = if j < n then .load else .done

theorem shaStart_atBlock (u : ShaUnit) (m : Vec) (d : Fin 16) :
    (shaStart u m d).AtBlock (padded m) ((m.size + 64) / 512 + 1) 0 where
  message := pad_eq_padded m
  count   := shaStart_nblk u m d
  block   := rfl
  running := rfl
  phase   := (if_pos (Nat.succ_pos _)).symm

/-- The steps of one block: `LOAD`, `SCHED`, `ROUND` and `UPDATE` (R216). -/
theorem block_runsTo {p : Vec} {n j : Nat} {u : ShaUnit} (h : u.AtBlock p n j) (more : j < n) :
    ∃ v, u.RunsTo (1 + 49 + 64 + 1 + 1) v ∧ v.AtBlock p n (j + 1) := by
  obtain ⟨rfl, rfl, rfl, running, phase⟩ := h
  rw [if_pos more] at phase
  obtain ⟨w, scheduled, holds⟩ := sched_runsTo phase (n := 48) le_rfl
  have start : u.RunsTo (1 + 49) (u.rounding w u.running 0) :=
    scheduled.next nofun (shaStep_sched_end rfl (show ¬ 64 < 64 by decide))
  have compressed := start.trans (rounds_runsTo u u.running holds le_rfl)
  have left := compressed.next nofun (shaStep_round_end rfl (show ¬ 64 < 64 by decide))
  refine ⟨_, left.next nofun (shaStep_update rfl), rfl, rfl, rfl, ?_, rfl⟩
  rw [hashState, ← running]
  rfl

theorem blocks_runsTo {p : Vec} {n : Nat} {u : ShaUnit} (h : u.AtBlock p n 0) {j : Nat} (hj : j ≤ n) :
    ∃ v, u.RunsTo (j * (1 + 49 + 64 + 1 + 1)) v ∧ v.AtBlock p n j := by
  induction j with
  | zero => exact ⟨u, by rw [Nat.zero_mul]; exact .refl u, h⟩
  | succ j ih =>
    obtain ⟨v, run, at_j⟩ := ih (by omega)
    obtain ⟨x, run', at_succ⟩ := block_runsTo at_j hj
    exact ⟨x, by rw [Nat.succ_mul]; exact run.trans run', at_succ⟩

/-- The whole run after the start step, with the algorithm's hash state at its end (R216, R221). -/
theorem shaStart_runsTo (u : ShaUnit) (m : Vec) (d : Fin 16) {n : Nat} (hn : n = (m.size + 64) / 512 + 1) :
    ∃ v, (shaStart u m d).RunsTo (n * (1 + 49 + 64 + 1 + 1) + 1) v ∧ v.phase = .idle ∧
      v.running = hashState (padded m) n := by
  subst hn
  obtain ⟨v, run, done⟩ := blocks_runsTo (shaStart_atBlock u m d) le_rfl
  have phase := done.phase
  rw [if_neg (lt_irrefl _)] at phase
  exact ⟨_, run.next (by simp [phase]) (shaStep_done phase), rfl, done.running⟩

end Sys2Proof.Machine

namespace Sys2Proof.Claims

open Sys2Proof.Machine

/-! ## The digest -/

/-- The digest of a message as a vector (R215). -/
def digestVec (m : Vec) : Vec := mkvec 256 fun i => ((sha256 m).getD (i / 32) 0).getMsbD (i % 32)

/-- The eight Words of the running hash state, in order. -/
theorem hAt_eq_getD (u : ShaUnit) {k : Nat} (hk : k < 8) :
    u.hAt k = [u.running.a, u.running.b, u.running.c, u.running.d, u.running.e, u.running.f, u.running.g,
      u.running.h].getD k 0 := by
  interval_cases k <;> rfl

theorem digest_eq_digestVec {u : ShaUnit} {m : Vec}
    (h : u.running = hashState (padded m) ((m.size + 64) / 512 + 1)) : u.digest = digestVec m := by
  refine mkvec_congr fun i hi => ?_
  rw [hAt_eq_getD u (by omega), h]
  rfl

theorem shaRun_digest (u : ShaUnit) (m : Vec) (d : Fin 16) :
    (shaRun (shaStepCount (shaStart u m d).nblk) (shaStart u m d)).digest = digestVec m := by
  obtain ⟨v, ⟨ends, -⟩, -, running⟩ := shaStart_runsTo u m d rfl
  rw [shaRun_eq_iterate, shaStart_nblk]
  exact digest_eq_digestVec (ends ▸ running)

variable {s : State} {m : Vec} {a : VReg}

theorem exec_vhash_invalidSize (d : VReg) (present : s.getV a = some m) (part : m.size % 8 ≠ 0) :
    exec (.vhash d a) s = .next (raised s 1) := by
  show execVhash d a s = _
  rw [execVhash, vec_of_some present]
  exact (if_pos part).trans (congrArg Host.Outcome.next (raise_eq_raised s .invalidSize))

/-- `VHASH` on whole bytes, whatever the unit held before it (R222). -/
theorem exec_vhash_ok (d : VReg) (present : s.getV a = some m) (whole : m.size % 8 = 0) :
    exec (.vhash d a) s = .next (s.setV d (some (digestVec m))).forgetSha.complete := by
  show execVhash d a s = _
  rw [execVhash, vec_of_some present]
  refine (if_neg (not_not_intro whole)).trans ?_
  simp only [shaRun_dest, shaRun_digest]
  rfl

/-- The digest reads the message's size and logical bits alone (R224). -/
theorem digestVec_congr {m m' : Vec} (h : LogicEq m m') : digestVec m = digestVec m' := by
  have same : sha256 m = sha256 m' := by
    rw [sha256, sha256, ← pad_eq_padded, ← pad_eq_padded, h.pad_eq, h.size_eq]
  rw [digestVec, digestVec, same]

/-- Vectors of whole bytes with the same bytes have the same logical bits. -/
theorem logicEq_of_bytes {m m' : Vec} (whole : m.size % 8 = 0) (size : m'.size = m.size)
    (bytes : ∀ k < m.size / 8, m.byte k = m'.byte k) : LogicEq m m' :=
  ⟨size.symm, fun i hi => by rw [Vec.bit, Vec.bit, bytes _ (by omega)]⟩

end Sys2Proof.Claims
end

section
/-! SUPPORT. The obligations of the SHA-256 unit and of `VHASH` (R216 to R222, R224). -/

namespace Sys2Proof.Claims

open Sys2Proof.Machine

/-- Settles O48: the run is the blocks' runs, one after another, and the `DONE` step. -/
theorem shaStepCount : Obligations.ShaStepCount := by
  unfold Obligations.ShaStepCount
  intro u m d n hn
  obtain ⟨v, ⟨ends, busy⟩, idle, -⟩ := shaStart_runsTo u m d hn
  exact ⟨(shaStart_nblk u m d).trans hn.symm, busy, ends ▸ idle⟩

/-- Settles O47: block by block the unit's schedule, working variables and hash state are the algorithm's. -/
theorem vhashComputesTheDigest : Obligations.VhashComputesTheDigest := by
  unfold Obligations.VhashComputesTheDigest
  exact fun d a s => ⟨decode_encode (.vhash d a), fun empty => exec_noVector ⟨a, List.mem_singleton_self a, empty⟩,
    fun m present => ⟨exec_vhash_invalidSize d present, fun whole =>
      ⟨digestVec m, _, exec_vhash_ok d present whole, rfl, rfl, mkvec_hasBits fun _ _ => rfl⟩⟩⟩

/-- Settles O49: `VHASH` writes `digestVec` of its message from any state, and equal bytes are equal logical bits. -/
theorem hashDependsOnTheBytesOnly : Obligations.HashDependsOnTheBytesOnly := by
  unfold Obligations.HashDependsOnTheBytesOnly
  intro d a d' a' s s' m m' present present' whole size bytes
  have hash' := exec_vhash_ok d' present' (size ▸ whole)
  rw [← digestVec_congr (logicEq_of_bytes whole size bytes)] at hash'
  exact ⟨digestVec m, _, _, exec_vhash_ok d present whole, hash', State.getV_setV_self .., State.getV_setV_self ..⟩

end Sys2Proof.Claims
end

section
/-! SUPPORT. How a command ends (R171, R180, R184): which errors each operation can raise, and that a command completes
or raises one of them. -/

namespace Sys2Proof.Claims

open Sys2Proof.Machine

variable {α : Type} {s t : State}

/-! ## The errors of the operations -/

/-- A command that reads the registers `rs` as vectors can raise `e`: it is not `IllegalCommand`, which is the decoder's
alone (R86), and it is `NoVector` only if one of these registers is `Empty` (R184). -/
def CanRaise (s : State) (rs : List VReg) (e : Err) : Prop :=
  e ≠ .illegalCommand ∧ (e = .noVector → ∃ r ∈ rs, s.getV r = none)

/-- The result of a command that has the registers `rs` left to read as vectors: an error is one it can raise. -/
def Raises (s : State) (rs : List VReg) (r : Except Err α) : Prop := ∀ e, r = .error e → CanRaise s rs e

namespace Raises

theorem ok {rs : List VReg} (x : α) : Raises s rs (.ok x) := nofun

/-- An error that an operation raises by a check of its own. -/
theorem own {rs : List VReg} {e : Err} (legal : e ≠ .illegalCommand) (present : e ≠ .noVector) :
    Raises s rs (.error e : Except Err α) := by
  rintro _ ⟨⟩
  exact ⟨legal, fun absent => absurd absent present⟩

/-- The checks of an operation, one after another. -/
theorem ite {rs : List VReg} {c : Prop} [Decidable c] {r r' : Except Err α} (h : Raises s rs r) (h' : Raises s rs r') :
    Raises s rs (if c then r else r') := by
  split
  · exact h
  · exact h'

/-- An `Empty` operand raises `NoVector` before what comes after it is looked at (R184). -/
theorem operand {rs : List VReg} {a : VReg} {f : Vec → Except Err α} (later : ∀ p, Raises s rs (f p)) :
    Raises s (a :: rs) (s.vec a >>= f) := by
  intro e error
  cases selected : s.getV a with
  | none =>
    rw [operand_of_none selected] at error
    obtain rfl := Except.error.inj error
    exact ⟨nofun, fun _ => ⟨a, List.mem_cons_self, selected⟩⟩
  | some p =>
    rw [operand_of_some selected] at error
    obtain ⟨legal, empty⟩ := later p e error
    exact ⟨legal, fun absent => List.exists_mem_cons_of_exists (empty absent)⟩

theorem initZeros (n : Int) : Raises s [] (initZeros n) := .ite (.ok _) (.own nofun nofun)

theorem initFromBitString (p : Vec) : Raises s [] (initFromBitString p) :=
  .ite (.own nofun nofun) (.ite (.ok _) (.own nofun nofun))

theorem initFromUnsigned (value : Nat) (m : Int) : Raises s [] (initFromUnsigned value m) :=
  .ite (.ok _) (.own nofun nofun)

theorem getBit (p : Vec) (i : Int) : Raises s [] (getBit p i) := .ite (.ok _) (.own nofun nofun)

theorem setBit (p : Vec) (i x : Int) : Raises s [] (setBit p i x) :=
  .ite (.own nofun nofun) (.ite (.own nofun nofun) (.ok _))

theorem setByte (p : Vec) (k x : Int) : Raises s [] (setByte p k x) :=
  .ite (.own nofun nofun) (.ite (.own nofun nofun) (.ok _))

theorem setBytesFromUnsigned (p : Vec) (value : Nat) (i n : Int) : Raises s [] (setBytesFromUnsigned p value i n) :=
  .ite (.own nofun nofun) (.ite (.own nofun nofun) (.ok _))

theorem slice (p : Vec) (i e : Int) : Raises s [] (slice p i e) := .ite (.own nofun nofun) (.ok _)

theorem bitwise2 (f : Bool → Bool → Bool) (p q : Vec) : Raises s [] (bitwise2 f p q) :=
  .ite (.own nofun nofun) (.ok _)

theorem bitwise3 (f : Bool → Bool → Bool → Bool) (p q u : Vec) : Raises s [] (bitwise3 f p q u) :=
  .ite (.own nofun nofun) (.ok _)

theorem addMod (p q : Vec) : Raises s [] (addMod p q) := .ite (.own nofun nofun) (.ok _)

theorem textVec (n : Nat) (char : Nat → Byte) : Raises s [] (textVec n char) := .ite (.own nofun nofun) (.ok _)

theorem padChecked (m : Vec) : Raises s [] (padChecked m) :=
  .ite (.own nofun nofun) (.ite (.own nofun nofun) (.ok _))

end Raises

/-! ## The ends of the commands -/

/-- The bookkeeping of completion (R171): the word leaves the queue, `DONECNT` counts it, and no error is recorded. -/
structure Completes (s t : State) : Prop where
  queue   : t.queue = s.queue.tail
  doneCnt : t.doneCnt = s.doneCnt + 1
  err     : t.err = s.err
  errCode : t.errCode = s.errCode
  errCmd  : t.errCmd = s.errCmd

/-- The command takes a next state: it completes, or raises an error it can raise. -/
def Ends (s : State) (rs : List VReg) (o : Host.Outcome State Fault Refusal) : Prop :=
  ∃ t, o = .next t ∧ (Completes s t ∨ ∃ e, t = s.raise e ∧ CanRaise s rs e)

namespace Ends

variable {rs : List VReg}

theorem next (h : Completes s t) : Ends s rs (.next t) := ⟨t, rfl, .inl h⟩

theorem raise {e : Err} (h : Raises s rs (.error e : Except Err α)) : Ends s rs (.next (s.raise e)) :=
  ⟨_, rfl, .inr ⟨e, rfl, h e rfl⟩⟩

theorem finishV {d : VReg} {r : Except Err Vec} (h : Raises s rs r) : Ends s rs (finishV s d r) := by
  cases r with
  | ok v => exact next ⟨rfl, rfl, rfl, rfl, rfl⟩
  | error e => exact raise h

theorem finishX {d : XReg} {r : Except Err Nat} (h : Raises s rs r) : Ends s rs (finishX s d r) := by
  cases r with
  | ok n => exact next ⟨rfl, rfl, rfl, rfl, rfl⟩
  | error e => exact raise h

/-- `VHASH` checks that its message is whole bytes, and then nothing stops its run (R222). -/
theorem vhash (d a : VReg) : Ends s [a] (execVhash d a s) := by
  have operand : Raises s [a] (s.vec a >>= Except.ok) := .operand .ok
  unfold execVhash
  cases message : s.vec a with
  | error e => exact raise (message ▸ operand)
  | ok m =>
    show Ends s [a] (if m.size % 8 ≠ 0 then _ else _)
    split
    · exact raise (α := Vec) (.own nofun nofun)
    · exact next ⟨rfl, rfl, rfl, rfl, rfl⟩

/-- Every command ends so, with the registers it reads as vectors. -/
theorem exec (i : Instr) (s : State) : Ends s (vectorOperands i) (exec i s) := by
  cases i with
  | nop | vfree => exact next ⟨rfl, rfl, rfl, rfl, rfl⟩
  | xli | xlis => exact finishX (.ok _)
  | vzero => exact finishV (.initZeros _)
  | vuint => exact finishV (.initFromUnsigned _ _)
  | vbits => exact finishV (.operand .initFromBitString)
  | vcopy | vnot | vshl | vshr | vrol | vror => exact finishV (.operand fun _ => .ok _)
  | vsize | vclz => exact finishX (.operand fun _ => .ok _)
  | vgetb => exact finishX (.operand fun p => .getBit p _)
  | vsetb => exact finishV (.operand fun p => .setBit p _ _)
  | vsety => exact finishV (.operand fun p => .setByte p _ _)
  | vsetu => exact finishV (.operand fun p => .setBytesFromUnsigned p _ _ _)
  | vslice => exact finishV (.operand fun p => .slice p _ _)
  | veq => exact finishX (.operand fun _ => .operand fun _ => .ok _)
  | vor | vand | vxor => exact finishV (.operand fun p => .operand fun q => .bitwise2 _ p q)
  | vchoose | vmaj => exact finishV (.operand fun p => .operand fun q => .operand fun u => .bitwise3 _ p q u)
  | vadd => exact finishV (.operand fun p => .operand fun q => .addMod p q)
  | vtobin | vtohex | vtodec => exact finishV (.operand fun _ => .textVec _ _)
  | vpad => exact finishV (.operand .padChecked)
  | vhash d a => exact vhash d a

end Ends

/-! ## The obligations -/

/-- The codes of the errors that a command can raise (R179). -/
theorem errNumber_le_six {e : Err} (legal : e ≠ .illegalCommand) : (errNumber e).toNat ≤ 6 := by
  cases e with
  | illegalCommand => exact absurd rfl legal
  | invalidSize | indexOutOfRange | invalidValue | sizeMismatch | invalidCharacter | noVector => decide

/-- Code 6 is `NoVector`'s alone (R179). -/
theorem eq_noVector_of_errNumber {e : Err} (h : errNumber e = 6) : e = .noVector := by
  cases e with
  | noVector => rfl
  | invalidSize | indexOutOfRange | invalidValue | sizeMismatch | invalidCharacter | illegalCommand =>
    exact absurd h (by decide)

/-- Settles O11: the two ends of a command, and its frame for what both leave untouched. -/
theorem everyCommandCompletesOrRaises : Obligations.EveryCommandCompletesOrRaises := by
  unfold Obligations.EveryCommandCompletesOrRaises
  intro i s
  obtain ⟨t, ends, ⟨queue, doneCnt, err, errCode, errCmd⟩ | ⟨e, rfl, legal, _⟩⟩ := Ends.exec i s
  · have frame := Frame.exec ends
    have counted : t.doneCnt.toNat = (s.doneCnt.toNat + 1) % 2 ^ 32 := doneCnt ▸ BitVec.toNat_add s.doneCnt 1
    exact ⟨t, ends, .inl ⟨queue, counted, err, errCode, errCmd, frame.rsel, frame.reads, frame.inputs⟩⟩
  · exact ⟨_, ends, .inr ⟨_, (errNumber_range e).1, errNumber_le_six legal, raise_eq_raised s e⟩⟩

/-- Settles O12: a command that ends in error 6 did not complete, as it is not counted, and raised no error but
`NoVector`. -/
theorem noVectorExactlyOnEmptyOperand : Obligations.NoVectorExactlyOnEmptyOperand := by
  unfold Obligations.NoVectorExactlyOnEmptyOperand
  refine fun i s => ⟨fun h => ?_, exec_noVector⟩
  obtain ⟨t, ends, how⟩ := Ends.exec i s
  obtain rfl := Host.Outcome.next.inj (h.symm.trans ends)
  obtain ⟨_, doneCnt, _⟩ | ⟨e, raises, _, empty⟩ := how
  · exact absurd doneCnt (raise_not_done s .noVector)
  · exact empty (eq_noVector_of_errNumber (congrArg State.errCode raises).symm)

end Sys2Proof.Claims
end

section
/-! SUPPORT. Which steps stop (R63, R170, R194), and the engine at work on its queue (R170, R173, R247). -/

namespace Sys2Proof.Claims

open Sys2Proof.Machine

variable {s : State}

/-! ## The engine's step -/

/-- With a word in the queue and no error recorded the engine has a step, which completes the word, or records an error
and empties the queue (R170, R171, R180). -/
theorem engineStep_queued {w : Word} {rest : List Word} (noError : s.err = false) (hq : s.queue = w :: rest) :
    ∃ t, engineStep s = .next t ∧ t.inputs = s.inputs ∧
      ((t.queue = rest ∧ t.err = false ∧ t.doneCnt = s.doneCnt + 1) ∨ (t.queue = [] ∧ t.err = true)) := by
  cases hd : decode w with
  | error e => exact ⟨_, engineStep_illegal noError hq hd, rfl, .inr ⟨rfl, rfl⟩⟩
  | ok i =>
    rw [engineStep_decoded noError hq hd]
    obtain ⟨t, ends, ⟨queue, doneCnt, err, _⟩ | ⟨e, rfl, _⟩⟩ := Ends.exec i s
    · rw [hq] at queue
      exact ⟨t, ends, (Frame.exec ends).inputs, .inl ⟨queue, err.trans noError, doneCnt⟩⟩
    · exact ⟨_, ends, rfl, .inr ⟨rfl, rfl⟩⟩

theorem engineStep_of_ready (h : s.ready = true) : ∃ t, engineStep s = .next t := by
  obtain ⟨busy, noError⟩ : s.queue ≠ [] ∧ s.err = false := by simpa [State.ready, State.busy] using h
  obtain ⟨w, rest, hq⟩ := List.exists_cons_of_ne_nil busy
  obtain ⟨t, next, _⟩ := engineStep_queued noError hq
  exact ⟨t, next⟩

/-- The host is held only while the engine has a step: its queue is full (R173). -/
theorem ready_of_held {ev : HostEvent} (h : s.held ev = true) : s.ready = true := by
  cases ev with
  | read | powerOn | wait => cases h
  | write width off data =>
    obtain ⟨⟨_, noError⟩, full⟩ : (_ ∧ s.err = false) ∧ Config.CQ_DEPTH ≤ s.queue.length := by
      simpa [State.held] using h
    have busy : s.queue ≠ [] := List.ne_nil_of_length_pos (Nat.lt_of_lt_of_le (by decide) full)
    simp [State.ready, State.busy, noError, busy]

/-- Where the engine has no step, in the two ways the model names (R170). -/
theorem engineStep_stops (s : State) : (∃ t, s.queue ≠ [] ∧ s.err = false ∧ engineStep s = .next t) ∨
    (s.err = true ∧ engineStep s = .fault .stoppedInError) ∨
    (s.err = false ∧ s.queue = [] ∧ engineStep s = .fault .idle) := by
  cases err : s.err with
  | true => exact .inr (.inl ⟨rfl, engineStep_error err⟩)
  | false =>
    cases queue : s.queue with
    | nil => exact .inr (.inr ⟨rfl, rfl, engineStep_idle err queue⟩)
    | cons w rest =>
      obtain ⟨t, next, _⟩ := engineStep_queued err queue
      exact .inl ⟨t, nofun, rfl, next⟩

/-! ## Refusals -/

/-- `r` is the refusal of an access `width` bits wide at the block's offset `off` (R63, R68). -/
def RefusedFor (r : Refusal) (width off : Nat) : Prop :=
  (r = .unsupportedAccess ∧ (width ≠ 32 ∨ off % 4 ≠ 0)) ∨ (r = .outsideBlock ∧ 0x40 ≤ off)

/-- A host access is performed, or refused for its width and offset, be it a read or a write. -/
theorem hostStep_access (s : State) (width off : Nat) (data : Word) :
    (∃ t t', hostStep s (.read width off) = .next t ∧ hostStep s (.write width off data) = .next t') ∨
    ∃ r, RefusedFor r width off ∧ hostStep s (.read width off) = .refused r ∧
      hostStep s (.write width off data) = .refused r := by
  cases supported : accessOk width off with
  | false =>
    refine .inr ⟨_, .inl ⟨rfl, ?_⟩, hostStep_unsupported s data supported⟩
    rw [← Bool.not_eq_true, accessOk_iff] at supported
    omega
  | true =>
    by_cases outside : Config.BLOCK_LEN ≤ off
    · exact .inr ⟨_, .inr ⟨rfl, outside⟩, hostStep_outside s data supported outside⟩
    · obtain ⟨rfl, aligned⟩ := (accessOk_iff width off).mp supported
      have inside := Nat.not_le.mp outside
      exact .inl ⟨_, _, hostStep_read s aligned inside, hostStep_write s data aligned inside⟩

/-- `ev` is a host access `width` bits wide to the block's offset `off`. -/
def Accesses (ev : HostEvent) (width off : Nat) : Prop :=
  ev = .read width off ∨ ∃ data, ev = .write width off data

/-- A move of the outside world is performed, or is a refused access. -/
theorem hostStep_stops (s : State) (ev : HostEvent) : (∃ t, hostStep s ev = .next t) ∨
    ∃ r width off, Accesses ev width off ∧ RefusedFor r width off ∧ hostStep s ev = .refused r := by
  cases ev with
  | powerOn | wait => exact .inl ⟨_, rfl⟩
  | read width off =>
    obtain ⟨t, _, next, _⟩ | ⟨r, reason, refused, _⟩ := hostStep_access s width off 0
    · exact .inl ⟨t, next⟩
    · exact .inr ⟨r, width, off, .inl rfl, reason, refused⟩
  | write width off data =>
    obtain ⟨_, t, _, next⟩ | ⟨r, reason, _, refused⟩ := hostStep_access s width off data
    · exact .inl ⟨t, next⟩
    · exact .inr ⟨r, width, off, .inr ⟨data, rfl⟩, reason, refused⟩

/-- While the outside world has a next move, a step takes a next state or refuses that move. -/
theorem step_stops_of_inputs {ev : HostEvent} {rest : List HostEvent} (hi : s.inputs = ev :: rest) :
    (∃ t, step s = .next t) ∨
    ∃ r width off, Accesses ev width off ∧ RefusedFor r width off ∧ step s = .refused r := by
  obtain ⟨empty, _⟩ | ⟨rest', _, ready, eq⟩ | ⟨_, _, _, eq⟩ | ⟨_, _, _, held, eq⟩ | ⟨ev', rest', pending, _, eq⟩ :=
    step_cases s
  · exact absurd (hi.symm.trans empty) nofun
  · exact .inl (eq ▸ engineStep_of_ready ready)
  · exact .inl ⟨_, eq⟩
  · exact .inl (eq ▸ engineStep_of_ready (ready_of_held held))
  · obtain ⟨rfl, rfl⟩ := List.cons.inj (hi.symm.trans pending)
    exact eq ▸ hostStep_stops _ _

/-! ## The run -/

/-- The engine on its own drains its queue, a word a step (R173, R247). -/
theorem run_drains (queue : List Word) {s : State} (noInput : s.inputs = []) (noError : s.err = false)
    (hq : s.queue = queue) :
    ∃ k t, k ≤ queue.length ∧ Host.Core.run core k s = .next t ∧ t.queue = [] ∧
      (t.err = true ∨ t.doneCnt = s.doneCnt + BitVec.ofNat 32 queue.length) := by
  induction queue generalizing s with
  | nil => exact ⟨0, s, le_rfl, rfl, hq, .inr (BitVec.add_zero _).symm⟩
  | cons w rest ih =>
    obtain ⟨t, moves, inputs, left⟩ := engineStep_queued noError hq
    have next := (step_engine noInput).trans moves
    obtain ⟨queue, err, doneCnt⟩ | ⟨queue, err⟩ := left
    · obtain ⟨k, u, short, run, drained, result⟩ := ih (inputs.trans noInput) err queue
      have count : t.doneCnt + BitVec.ofNat 32 rest.length = s.doneCnt + BitVec.ofNat 32 (w :: rest).length := by
        rw [doneCnt, List.length_cons, Nat.add_comm, BitVec.ofNat_add, add_assoc]
        rfl
      exact ⟨k + 1, u, Nat.succ_le_succ short, (run_succ k next).trans run, drained, count ▸ result⟩
    · exact ⟨1, t, Nat.succ_le_succ (Nat.zero_le _), run_succ 0 next, queue, .inl err⟩

/-! ## The obligations -/

/-- Settles O7: with no input the step is the engine's, and otherwise it moves or refuses an access. -/
theorem stepStopsOnlyWhereNothingMoves : Obligations.StepStopsOnlyWhereNothingMoves := by
  unfold Obligations.StepStopsOnlyWhereNothingMoves
  intro s
  cases hi : s.inputs with
  | nil =>
    rw [step_engine hi]
    obtain ⟨t, busy, err, eq⟩ | ⟨err, eq⟩ | ⟨err, idle, eq⟩ := engineStep_stops s
    · simp [eq, err, busy]
    · simp [eq, err, eq_comm (a := Fault.stoppedInError)]
    · simp [eq, err, idle, eq_comm (a := Fault.idle)]
  | cons ev rest =>
    obtain ⟨t, eq⟩ | ⟨r, width, off, access, reason, eq⟩ := step_stops_of_inputs hi
    · simp [eq]
    · refine ⟨by simp [eq], fun r' refused => ⟨width, off, rest, ?_, ?_⟩⟩
      · exact access.imp (congrArg (· :: rest)) fun ⟨data, write⟩ => ⟨data, congrArg (· :: rest) write⟩
      · exact Host.Outcome.refused.inj (eq.symm.trans refused) ▸ reason

/-- Settles O14: with an error recorded the queue is empty already, and otherwise the engine drains it. -/
theorem engineDrainsItsQueue : Obligations.EngineDrainsItsQueue := by
  unfold Obligations.EngineDrainsItsQueue
  intro s inv noInput
  cases err : s.err with
  | true => exact ⟨0, s, Nat.zero_le _, rfl, inv.flushed err, .inl err⟩
  | false => exact run_drains s.queue noInput err rfl

/-- Settles O5: the engine's step on a word that decodes. -/
theorem stepRunsTheDecodedCommand : Obligations.StepRunsTheDecodedCommand := by
  unfold Obligations.StepRunsTheDecodedCommand
  exact fun s w rest i hi he hq hd => (step_engine hi).trans (engineStep_decoded he hq hd)

end Sys2Proof.Claims
end

section
/-! SUPPORT. The host's writes of `CMD` and `CTRL`, and its reads while the engine is busy (R172 to R176). -/

namespace Sys2Proof.Claims

open Sys2Proof.Machine

/-- While a host write is held, the step is the engine's, and the write stays to be made (R173). -/
theorem step_write_held {s : State} {width off : Nat} {w : Word} (h : s.held (.write width off w) = true) :
    step { s with inputs := .write width off w :: s.inputs } =
      engineStep { s with inputs := .write width off w :: s.inputs } := if_pos h

/-- Settles O51: the write is held with a full queue and no error recorded, and else `writeCmd` drops or appends. -/
theorem cmdWriteAppendsHoldsOrDrops : Obligations.CmdWriteAppendsHoldsOrDrops := by
  unfold Obligations.CmdWriteAppendsHoldsOrDrops
  intro s w
  have write (free : s.held (.write 32 0x00 w) = false) : HostWrites s 0x00 w (s.writeCmd w) :=
    hostWrites_hostWrite w rfl (by decide) free
  refine ⟨fun err => ?_, fun noError room => ⟨?_, ?_⟩, fun noError full => ?_⟩
  · have drop := write (by simp [State.held, err])
    rwa [State.writeCmd, if_pos err] at drop
  · have append := write (by simp [State.held, Nat.not_le.mpr room])
    rwa [State.writeCmd, if_neg (Bool.not_eq_true _ ▸ noError)] at append
  · simp [State.busy]
  · have held : s.held (.write 32 0x00 w) = true := by simp [State.held, accessOk, hostRegAt, noError, full]
    obtain ⟨v, rest, hq⟩ := List.exists_cons_of_length_pos (Nat.lt_of_lt_of_le (by decide) full)
    obtain ⟨t, next, inputs, left⟩ :=
      engineStep_queued (s := { s with inputs := .write 32 0x00 w :: s.inputs }) noError hq
    refine ⟨t, (step_write_held held).trans next, next, inputs, ?_⟩
    obtain ⟨queue, _⟩ | ⟨queue, _⟩ := left <;> simp [queue, hq]

/-- Settles O56: such a read is free while the queue is not empty. -/
theorem busyReadIsUnspecified : Obligations.BusyReadIsUnspecified := by
  unfold Obligations.BusyReadIsUnspecified
  intro s off busy offset
  have free : s.readIsFree (hostRegAt off) = true := by
    obtain rfl | rfl | rfl := offset <;> simp [State.readIsFree, State.busy, busy, hostRegAt]
  have inside : off % 4 = 0 ∧ off < Config.BLOCK_LEN := by
    obtain rfl | rfl | rfl := offset <;> decide
  rw [step_read, hostStep_read s inside.1 inside.2, State.hostRead, if_pos free]

/-- Settles O57: `writeCtrl` without `SRESET`; with no error recorded the fields it clears are 0 already. -/
theorem ctrlWriteClearsTheError : Obligations.CtrlWriteClearsTheError := by
  unfold Obligations.CtrlWriteClearsTheError
  intro s w noReset
  have write : HostWrites s 0x08 w (s.writeCtrl w) := hostWrites_of_ne_cmd s w rfl (by decide) (by decide)
  rw [State.writeCtrl, if_neg (Bool.not_eq_true _ ▸ noReset)] at write
  refine ⟨fun clear => ?_, fun clear inv noError => ?_, fun keep => ?_⟩
  · rwa [if_pos clear] at write
  · obtain ⟨errCode, errCmd⟩ := inv.cleared noError
    have unchanged : s.clearError = s := by rw [State.clearError, ← noError, ← errCode, ← errCmd]
    rwa [if_pos clear, unchanged] at write
  · rwa [if_neg (Bool.not_eq_true _ ▸ keep)] at write

end Sys2Proof.Claims
end
